-- ==== Sys2Proof/Word.lean ====
section
/-! DEFINITION. The two word types of the engine: bytes of the data memory and 32-bit registers (R9, R10). -/

namespace Sys2Proof

/-- A byte: an 8-bit unsigned value (R9). -/
abbrev Byte := BitVec 8

/-- A host-visible register is 32 bits wide (R7 "register width", R20). -/
abbrev Word := BitVec 32

/-- An internal register of up to 255 bytes (R8, R49). -/
abbrev Wide := BitVec 2040

end Sys2Proof
end

