-- ==== Sys2Proof/Config.lean ====
section
/-! DEFINITION. What the build and the platform fix (R7, R8), and the free values. -/

namespace Sys2Proof

/-- One supported entry `(b, k)` of `VARIANT_TABLE`: block size and key size in bytes (R7, R13). -/
structure Variant where
  b : Nat
  k : Nat
  deriving DecidableEq, Repr

/-- The parameters a model takes as arguments (R7) that are plain data. They are build and platform constants: no
command, register write or reset changes them (R252). The two function parameters are `Config.cipher` and
`Config.cipherAccepts`. -/
structure Build where
  /-- `VARIANT_TABLE`, entries 0 to 3; `none` is `unsupported` (R7, R162). -/
  variant0 : Option Variant
  variant1 : Option Variant
  variant2 : Option Variant
  variant3 : Option Variant
  /-- `K0_BYTE` (R45, R164). -/
  k0Byte : Byte
  /-- `DECODE_BYTES` (R121). -/
  decodeBytes : Nat
  /-- `WORD_BYTES` (R145, R146). -/
  wordBytes : Nat
  /-- `UNALIGNED_OK` (R146). -/
  unalignedOk : Bool
  /-- `MEM_BYTES` (R60). -/
  memBytes : Nat
  /-- `REG_BASE`: where the platform puts the register window (R20, R77). -/
  regBase : Nat
  /-- `MEM_BASE`: where the platform puts the data memory (R60, R77). -/
  memBase : Nat
  deriving DecidableEq, Repr

/-! ### OPEN parameters and port functions: constants without a body -/

/-- `K0_BYTE` is OPEN: no source gives it (R7, R45). Log 1. -/
opaque Config.k0Byte : Byte

/-- The highest data memory address; `MEM_BYTES` is one more, so it is any value from 1 to 2^32 (R7). Log 1. -/
opaque Config.memTop : BitVec 32

/-- `REG_BASE` is OPEN (R7, R77). Log 1. -/
opaque Config.regBase : Nat

/-- `MEM_BASE` in units of `WORD_BYTES`, of which it is a multiple (R8). Log 1. -/
opaque Config.memBaseWords : Nat

/-- The cipher port `E(v, K, x)`: total, deterministic, `b` bytes long, a function of (v, K, x) alone (R160). Log 2. -/
opaque Config.cipher (b : Nat) (v : BitVec 2) (key block : List Byte) : Vector Byte b

/-- `CIPHER_ACCEPTS(v, K)` (R161). Log 2. -/
opaque Config.cipherAccepts (v : BitVec 2) (key : List Byte) : Bool

/-- FREE VALUE: the RNG port's answer to one request for `k` bytes; `none` is `fail` (R166). The first argument is the
machine's counter `draws`, so that every request has an answer of its own. Log 3. -/
opaque Config.rngDraw (draws k : Nat) : Option (Vector Byte k)

/-- FREE VALUE: a byte that the spec calls "any value": a host read (R62, R70) or a destination byte of an aborted
command (R251). Log 8, log 10. -/
opaque Config.freeByte (fresh : Nat) : Byte

/-- FREE VALUE: how many host turns fit between a command's acceptance and its completion: finite, no bound (R100).
Log 5. -/
opaque Config.delay (fresh : Nat) : Nat

/-- FREE VALUE: whether the completion falls in the same step as a host transaction (R231). Log 6. -/
opaque Config.tie (fresh : Nat) : Bool

/-- FREE VALUE: how far the sequencer moves on in one turn of a running command; its internal timing is not specified and
not observable (R47, R96). Log 12. -/
opaque Config.hiddenAdvance (fresh turn : Nat) : Nat

/-- FREE VALUE: what the working block BLK holds at a position of a running command (R49). Log 12. -/
opaque Config.hiddenBlock (fresh position : Nat) : Wide

/-- The default build (R7, R162): the AES variants' sizes, `DECODE_BYTES` = 8, `WORD_BYTES` = 8, `UNALIGNED_OK` = false;
the OPEN parameters are the constants above. -/
def Config.build : Build where
  variant0 := some ⟨16, 16⟩
  variant1 := some ⟨16, 24⟩
  variant2 := some ⟨16, 32⟩
  variant3 := none
  k0Byte := Config.k0Byte
  decodeBytes := 8
  wordBytes := 8
  unalignedOk := false
  memBytes := Config.memTop.toNat + 1
  regBase := Config.regBase
  memBase := 8 * Config.memBaseWords

end Sys2Proof
end

