-- ==== Sys2Proof/Machine/BusOp.lean ====
section
/-! DEFINITION. The host agent's vocabulary: bus transactions (R6, R86) and what the host has read. -/

namespace Sys2Proof.Machine

/-- One transaction of the host (R86, third column), or the platform's power-on reset. `off` is an offset in the
register window, `addr` a data memory address, `var` the number of the host variable a read goes to. -/
inductive BusOp where
  /-- A register write of `size` bytes (only `size = 4` at a multiple of 4 has a meaning, R64). -/
  | regWrite (off size : Nat) (data : Word)
  /-- A register read of `size` bytes. -/
  | regRead (off size var : Nat)
  /-- A byte write to the data memory. -/
  | memWrite (addr : Nat) (data : Byte)
  /-- A byte read of the data memory. -/
  | memRead (addr var : Nat)
  /-- Read the register; if (value AND mask) is not `value`, go back to transaction `target` (R86 `poll`). -/
  | poll (off : Nat) (mask value : Word) (target : Nat)
  /-- Power removed and applied again: the power-on reset (R237, R250). Log 19. -/
  | powerOn
  deriving DecidableEq, Repr

/-- A value the host has read into one of its variables (R86 `rd`, `rdm`); a byte is zero-extended. -/
structure Reading where
  var   : Nat
  value : Word
  deriving DecidableEq, Repr

/-- The host agent: its program as a list of bus transactions (R86), the number of the next one, and what it has read,
oldest first. -/
structure HostAgent where
  ops      : List BusOp
  pos      : Nat
  readings : List Reading
  deriving DecidableEq, Repr

end Sys2Proof.Machine
end

