-- ==== Sys2Proof/Machine/State.lean ====
section
/-! DEFINITION. The machine's state as plain data (R20-R55, R60-R62, R95), the reasons a step can stop (R227), and the
state after power-on reset (R55, R250). -/

namespace Sys2Proof.Machine

/-- The sequencer's phase (R47). STATUS.BUSY is 1 exactly when it is `run`. -/
inductive Phase where
  | idle
  | run
  deriving DecidableEq, Repr

/-- CTRL's stored fields (R24). Bits [30:4] are reserved and SRST stores nothing. -/
structure Ctrl where
  variant     : BitVec 2
  xorBytewise : Bool
  irqEn       : Bool
  deriving DecidableEq, Repr

/-- STATUS's stored fields (R30), all but BUSY, which is the phase. -/
structure Flags where
  done     : Bool
  err      : Bool
  ovr      : Bool
  xpath    : Bool
  errCode  : BitVec 4
  errCause : BitVec 4
  deriving DecidableEq, Repr

/-- The operand registers (R37-R41). -/
structure Operands where
  srcAddr : Word
  srcLen  : Word
  dstAddr : Word
  dstLen  : Word
  argLo   : Word
  argHi   : Word
  deriving DecidableEq, Repr

/-- The internal registers (R47, R49), the keyed state of the cipher port for the running command (R51) as the keys of its
encryptors, and the model's own `position`: how far the sequencer has come in the running command. A register of up to
255 bytes holds the big-endian value of its bytes. No register read shows any of them. Log 12. -/
structure Datapath where
  key        : Wide
  kacc       : Wide
  hacc       : Wide
  ctr        : Wide
  blk        : Wide
  pnum       : BitVec 64
  index      : Nat
  encryptors : List Wide
  position   : Nat
  deriving DecidableEq, Repr

/-- Zeroised (R53). MODEL'S CHOICE (DESIGN CHOICE): the block index is 0 as well, after every completion, reset and
acceptance; R53 and R97 do not name it. Log 12. -/
def Datapath.zero : Datapath := ⟨0, 0, 0, 0, 0, 0, 0, [], 0⟩

/-- A region `(a, n)`: the addresses a..a+n-1 (R66). -/
structure Region where
  start : Nat
  len   : Nat
  deriving DecidableEq, Repr

/-- The data memory: the bytes that have a value (R62), addresses strictly rising. An unlisted address has no value. -/
abbrev Memory := List Host.Cell

/-- Everything the spec gives the machine, the host agent, and the model's own `unseen`, `delay`, `tie`, `fresh` and
`draws`. -/
structure State where
  /-- Build and platform parameters (R7); constants (R252). -/
  build   : Build
  /-- CTRL (R24). -/
  ctrl    : Ctrl
  /-- STATUS but for BUSY (R30). -/
  flags   : Flags
  /-- SRC_ADDR, SRC_LEN, DST_ADDR, DST_LEN, ARG_LO, ARG_HI (R37-R41). -/
  opnd    : Operands
  /-- RESULT0 (R42). -/
  result0 : Word
  /-- RESULT1 (R42). -/
  result1 : Word
  /-- PADBYTE.FILL (R44). -/
  fill    : Byte
  /-- The sequencer's phase (R47), read as STATUS.BUSY (R31). -/
  phase   : Phase
  /-- latched_cmd (R95). -/
  latched : Word
  /-- Internal registers (R49, R51). -/
  dp      : Datapath
  /-- The data memory (R60, R62). -/
  mem     : Memory
  /-- The model's own: host turns left before the running command completes (R100). Log 5. -/
  delay   : Nat
  /-- The model's own: the completion falls in the step of a host transaction (R231). Log 6. -/
  tie     : Bool
  /-- The host agent (R86). -/
  host    : HostAgent
  /-- The model's own, for the host's duty at completion (R71, R104): the destination region, or none, of each command
  accepted since the host last observed DONE = 1 or BUSY = 0, latest first. Log 26. -/
  unseen  : List (Option Region)
  /-- The model's own: the counter the free values are applied to. Log 8. -/
  fresh   : Nat
  /-- The model's own: the number of the next RNG answer. Log 3. -/
  draws   : Nat
  deriving DecidableEq, Repr

/-- Reasons the machine stops with a fault: outcomes that the hardware does not report (R227). Log 21. -/
inductive Fault where
  /-- UNINIT_READ: raised by a command's meaning that reads a byte no agent has written (R62). Safe: the hardware goes
  on with whatever the memory holds. -/
  | uninitRead (addr : Nat)
  /-- HOST_RACE: raised by a host write inside a region of the running command (R70). Safe: the host broke a duty and
  the run has no meaning. Log 9. -/
  | hostRace (addr : Nat)
  /-- Raised by a host read of a completed command's destination byte before the host has observed DONE = 1 or BUSY = 0
  (R104). Safe: the host broke a duty and the run has no meaning. Log 26. -/
  | unseenByte (addr : Nat)
  /-- Raised by a host read of RESULT0 or RESULT1, at this offset, after a completion that the host has not observed
  (R104). Safe: the host broke a duty and the run has no meaning. Log 26. -/
  | unseenResult (off : Nat)
  /-- Raised by a host access to a data memory byte that does not exist (R60). Safe. Log 15. -/
  | noSuchByte (addr : Nat)
  deriving DecidableEq, Repr

/-- Reasons a step is refused. -/
inductive Refusal where
  /-- An instruction without a meaning yet; raised by `exec` only. Safe. No arm raises it in this model. -/
  | notModelled (mnemonic : String)
  /-- A register access that is not an aligned 32-bit access: raised by a host transaction (R64). Safe. -/
  | badRegisterAccess (off size : Nat)
  /-- A register access beyond the 4096-byte window: raised by a host transaction (R20). Safe. Log 14. -/
  | outsideWindow (off : Nat)
  deriving DecidableEq, Repr

/-- What a step answers. -/
abbrev Result := Host.Outcome State Fault Refusal

/-- CTRL after reset (R24, R55). -/
def Ctrl.reset : Ctrl := ⟨0, false, false⟩

/-- STATUS after reset (R30, R55). -/
def Flags.reset : Flags := ⟨false, false, false, false, 0, 0⟩

/-- The operand registers after reset (R55). -/
def Operands.reset : Operands := ⟨0, 0, 0, 0, 0, 0⟩

/-- The machine after power-on reset (R55, R250): no data memory byte has a value and no host program is loaded.
`latched`, the block index, `delay`, `tie`, `unseen`, `fresh` and `draws` have values the model names (log 13, 12, 5, 6,
26, 8, 3). -/
def State.reset : State where
  build := Config.build
  ctrl := Ctrl.reset
  flags := Flags.reset
  opnd := Operands.reset
  result0 := 0
  result1 := 0
  fill := 0
  phase := .idle
  latched := 0
  dp := Datapath.zero
  mem := []
  delay := 0
  tie := false
  host := ⟨[], 0, []⟩
  unseen := []
  fresh := 0
  draws := 0

end Sys2Proof.Machine
end

