-- ==== Sys2Proof/Machine/Flags.lean ====
section
/-! DEFINITION. The flag computations: STATUS and CTRL as words (R24, R30), the W1C clears (R30, R32-R36), the interrupt
output (R230), and the error pairs (R220). -/

namespace Sys2Proof.Machine

/-- The error completions of R220, one constructor for each row that reports an error. -/
inductive CmdError where
  | inputTooShort    -- INVALID_INPUT 1
  | inputMisaligned  -- INVALID_INPUT 2
  | inputPadding     -- INVALID_INPUT 3
  | cipherInitKey    -- CIPHER_INIT 1
  | cipherInitK0     -- CIPHER_INIT 2
  | illegalOpcode    -- ILLEGAL_CMD 1
  | illegalReserved  -- ILLEGAL_CMD 2
  | badConfig        -- BAD_CONFIG 1
  | rangeSrc         -- RANGE 1
  | rangeDst         -- RANGE 2
  | overlap          -- OVERLAP 1
  | capacity         -- CAPACITY 1
  | entropy          -- ENTROPY 1
  deriving DecidableEq, Repr

/-- ERRCODE (R220). -/
def CmdError.code : CmdError → BitVec 4
  | .inputTooShort => 1
  | .inputMisaligned => 1
  | .inputPadding => 1
  | .cipherInitKey => 2
  | .cipherInitK0 => 2
  | .illegalOpcode => 3
  | .illegalReserved => 3
  | .badConfig => 4
  | .rangeSrc => 5
  | .rangeDst => 5
  | .overlap => 6
  | .capacity => 7
  | .entropy => 8

/-- ERRCAUSE (R220). -/
def CmdError.cause : CmdError → BitVec 4
  | .inputTooShort => 1
  | .inputMisaligned => 2
  | .inputPadding => 3
  | .cipherInitKey => 1
  | .cipherInitK0 => 2
  | .illegalOpcode => 1
  | .illegalReserved => 2
  | .badConfig => 1
  | .rangeSrc => 1
  | .rangeDst => 2
  | .overlap => 1
  | .capacity => 1
  | .entropy => 1

/-- A one-bit field. -/
def bit (x : Bool) : BitVec 1 := BitVec.ofBool x

/-- STATUS.BUSY (R31, R47). -/
def isBusy (s : State) : Bool := decide (s.phase = .run)

/-- STATUS as the host reads it (R30): bits 31:16 and 7:5 are reserved and read 0 (R21). -/
def statusWord (s : State) : Word :=
  0#16 ++ s.flags.errCause ++ s.flags.errCode ++ 0#3 ++ bit s.flags.xpath ++ bit s.flags.ovr ++ bit s.flags.err ++
    bit s.flags.done ++ bit (isBusy s)

/-- CTRL as the host reads it (R24): bits 31:4 read 0, SRST among them (R28). -/
def ctrlWord (c : Ctrl) : Word := 0#28 ++ bit c.irqEn ++ bit c.xorBytewise ++ c.variant

/-- The fields that a host write of CTRL with SRST = 0 stores (R24). -/
def ctrlOfWord (v : Word) : Ctrl := ⟨v.extractLsb' 0 2, v.getLsbD 2, v.getLsbD 3⟩

/-- A host write of STATUS: bit 1 clears DONE, bit 2 clears ERR with ERRCODE and ERRCAUSE, bit 3 clears OVR
(R30, R32, R33, R34, R36). -/
def ackFlags (f : Flags) (v : Word) : Flags :=
  { f with
    done := f.done && !v.getLsbD 1
    err := f.err && !v.getLsbD 2
    errCode := if v.getLsbD 2 then 0 else f.errCode
    errCause := if v.getLsbD 2 then 0 else f.errCause
    ovr := f.ovr && !v.getLsbD 3 }

/-- The interrupt output: `CTRL.IRQ_EN AND STATUS.DONE` (R27, R230). -/
def irq (s : State) : Bool := s.ctrl.irqEn && s.flags.done

/-- The flags after acceptance: DONE, ERR, ERRCODE and ERRCAUSE cleared, OVR and XPATH kept (R95). -/
def acceptFlags (f : Flags) : Flags := { f with done := false, err := false, errCode := 0, errCause := 0 }

/-- The flags after an error completion (R98). -/
def errorFlags (f : Flags) (e : CmdError) : Flags :=
  { f with done := true, err := true, errCode := e.code, errCause := e.cause }

/-- The flags after a successful completion; XPATH is written only by the command that names it (R97, R35). -/
def successFlags (f : Flags) (xpath : Option Bool) : Flags := { f with done := true, xpath := xpath.getD f.xpath }

end Sys2Proof.Machine
end

