-- ==== Sys2Proof/Syntax.lean ====
section
/-! DEFINITION. The commands of the opcode map (R81), one constructor for each row of spec/opcode_table.json. -/

namespace Sys2Proof

/-- The eight commands of R81. A command word has no operand fields (R80): every operand is read from the operand
registers at acceptance (R84), so no constructor carries an argument. -/
inductive Instr where
  | encrypt       -- 0x01, R180
  | decrypt       -- 0x02, R200
  | xorInto       -- 0x10, R150
  | xorWithInt    -- 0x11, R151
  | ctrEncode     -- 0x20, R130
  | ctrDecode     -- 0x21, R131
  | ctrIncrement  -- 0x22, R132
  | padDerive     -- 0x30, R112
  deriving DecidableEq, Repr

end Sys2Proof
end

