-- ==== Sys2Proof/WellFormed.lean ====
section
/-! DEFINITION. What makes an instruction, a build and a host transaction well formed (R8, R20, R60, R64, R80, R86). -/

namespace Sys2Proof

/-- Every command is well formed: a command word has no operand field that could be out of range (R80, R81). -/
def Instr.wellFormed (_ : Instr) : Bool := true

/-- A supported table entry has sizes from 1 to 255 (R8). -/
def Variant.wellFormed (v : Variant) : Bool :=
  decide (1 ≤ v.b) && decide (v.b ≤ 255) && decide (1 ≤ v.k) && decide (v.k ≤ 255)

/-- An `unsupported` entry needs no check (R7). -/
def wellFormedEntry : Option Variant → Bool
  | none => true
  | some v => v.wellFormed

/-- `WORD_BYTES` is a power of two, at least 2 (R8). -/
def isWordSize (n : Nat) : Bool := decide (2 ≤ n) && decide (n &&& (n - 1) = 0)

/-- The constraints on the parameters (R7, R8). `DECODE_BYTES` is positive (log 17). -/
def Build.wellFormed (c : Build) : Bool :=
  wellFormedEntry c.variant0 && wellFormedEntry c.variant1 && wellFormedEntry c.variant2 &&
    wellFormedEntry c.variant3 && isWordSize c.wordBytes && decide (c.memBase % c.wordBytes = 0) &&
    decide (1 ≤ c.decodeBytes) &&
    decide (1 ≤ c.memBytes) && decide (c.memBytes ≤ 4294967296)

/-- A register access that has a meaning: 32 bits, aligned, inside the 4096-byte window (R20, R64). -/
def wellFormedAccess (off size : Nat) : Bool :=
  decide (size = 4) && decide (off % 4 = 0) && decide (off < 4096)

namespace Machine

/-- A host transaction that the bus takes: a good register access, or an existing byte of a data memory of `memBytes`
bytes; a branch stays in its program of `count` transactions, where it may not leave it (R60, R64, R86). -/
def BusOp.wellFormed (memBytes count : Nat) : BusOp → Bool
  | .regWrite off size _ => wellFormedAccess off size
  | .regRead off size _ => wellFormedAccess off size
  | .memWrite addr _ => decide (addr < memBytes)
  | .memRead addr _ => decide (addr < memBytes)
  | .poll off _ _ target => wellFormedAccess off 4 && decide (target < count)
  | .powerOn => true

end Machine

end Sys2Proof
end

