-- ==== Sys2Proof/Decode.lean ====
section
/-! DEFINITION. The decoder of a command word (R80-R83), the encoder, and the layout of a word on the bus (R63). -/

namespace Sys2Proof

/-- What decoding a command word gives: a command, or the name of what is wrong with it. -/
inductive Decoded where
  | ok (i : Instr)
  /-- OPCODE is not in the opcode map (R82 step 1). -/
  | illegalOpcode
  /-- OPCODE is in the map and a reserved bit is not zero (R82 step 2). -/
  | reservedBits
  /-- Not exactly the four bytes of one word: every command is one 32-bit word (R80). -/
  | notOneWord
  deriving DecidableEq, Repr

/-- The opcode map (R81). Every other value is reserved (R83). -/
def decodeOpcode (op : BitVec 8) : Option Instr :=
  if op = 0x01#8 then some .encrypt
  else if op = 0x02#8 then some .decrypt
  else if op = 0x10#8 then some .xorInto
  else if op = 0x11#8 then some .xorWithInt
  else if op = 0x20#8 then some .ctrEncode
  else if op = 0x21#8 then some .ctrDecode
  else if op = 0x22#8 then some .ctrIncrement
  else if op = 0x30#8 then some .padDerive
  else none

/-- OPCODE, bits [7:0] of the command word (R80). -/
def opcodeField (w : Word) : BitVec 8 := w.extractLsb' 0 8

/-- RSVD, bits [31:8] of the command word (R80). -/
def reservedField (w : Word) : BitVec 24 := w.extractLsb' 8 24

/-- Decoding, in the order of R82. -/
def decode (w : Word) : Decoded :=
  match decodeOpcode (opcodeField w) with
  | none => .illegalOpcode
  | some i => if reservedField w = 0#24 then .ok i else .reservedBits

/-- A 32-bit register as bytes on the bus: lane 0 carries bits [7:0] (R63). -/
def wordOfLanes (l0 l1 l2 l3 : Byte) : Word := l3 ++ l2 ++ l1 ++ l0

/-- Lane `j` of a word (R63). -/
def laneOfWord (w : Word) (j : Nat) : Byte := w.extractLsb' (8 * j) 8

/-- Decoding of a command as the bytes of its bus lanes; total on any bytes. -/
def decodeBytes : List Byte → Decoded
  | [l0, l1, l2, l3] => decode (wordOfLanes l0 l1 l2 l3)
  | _ => .notOneWord

/-- The command word of a command (R81, third column). -/
def encode : Instr → Word
  | .encrypt => 0x00000001#32
  | .decrypt => 0x00000002#32
  | .xorInto => 0x00000010#32
  | .xorWithInt => 0x00000011#32
  | .ctrEncode => 0x00000020#32
  | .ctrDecode => 0x00000021#32
  | .ctrIncrement => 0x00000022#32
  | .padDerive => 0x00000030#32

/-- The command the decoder reads from bits `w` of a table row of `nbits` bits, laid out on the bus lanes (R63, R80).
A command is one word, so a wider row is none. -/
def decodeTableWord (nbits w : Nat) : Option Instr :=
  if nbits ≤ 32 ∧ w < 4294967296 then
    match decodeBytes [BitVec.ofNat 8 w, BitVec.ofNat 8 (w / 256), BitVec.ofNat 8 (w / 65536),
        BitVec.ofNat 8 (w / 16777216)] with
    | .ok i => some i
    | _ => none
  else none

end Sys2Proof
end

