-- ==== Sys2Proof/Machine/Operands.lean ====
section
/-! DEFINITION. Operand assembly (R84, R85), regions (R66, R67), the variant selection (R25), and the regions each
command range-checks (R70, R84). -/

namespace Sys2Proof.Machine

/-- Valid in a data memory of `memBytes` bytes; the sum does not wrap (R66). -/
abbrev Region.Valid (r : Region) (memBytes : Nat) : Prop := r.start + r.len ≤ memBytes

/-- Two regions overlap (R67). -/
abbrev Region.Overlaps (r q : Region) : Prop :=
  0 < r.len ∧ 0 < q.len ∧ r.start < q.start + q.len ∧ q.start < r.start + r.len

/-- The address is one of the region's. -/
abbrev Region.Has (r : Region) (a : Nat) : Prop := r.start ≤ a ∧ a < r.start + r.len

/-- The source region (SRC_ADDR, SRC_LEN), unsigned (R85). -/
def srcRegion (s : State) : Region := ⟨s.opnd.srcAddr.toNat, s.opnd.srcLen.toNat⟩

/-- The destination region (DST_ADDR, DST_LEN), unsigned (R85). -/
def dstRegion (s : State) : Region := ⟨s.opnd.dstAddr.toNat, s.opnd.dstLen.toNat⟩

/-- `ARG64 = ARG_HI * 2^32 + ARG_LO`, unsigned (R41, R85). -/
def arg64 (s : State) : Nat := s.opnd.argHi.toNat * 4294967296 + s.opnd.argLo.toNat

/-- `VARIANT_TABLE[v]` (R7). -/
def variantAt (c : Build) (v : BitVec 2) : Option Variant :=
  if v = 0#2 then c.variant0 else if v = 1#2 then c.variant1 else if v = 2#2 then c.variant2 else c.variant3

/-- `VARIANT_TABLE[CTRL.VARIANT]` (R25). -/
def selectedVariant (s : State) : Option Variant := variantAt s.build s.ctrl.variant

/-- `lastSize = max(b, k)` (R7, R163). -/
def lastSize (v : Variant) : Nat := max v.b v.k

/-- The source region a command's rule range-checks (R84, R222). -/
def commandSrc : Instr → State → Option Region
  | .encrypt, s => some (srcRegion s)
  | .decrypt, s => some (srcRegion s)
  | .xorInto, s => some (srcRegion s)
  | .xorWithInt, s => some (srcRegion s)
  | .ctrEncode, _ => none
  | .ctrDecode, s => some (srcRegion s)
  | .ctrIncrement, _ => none
  | .padDerive, _ => none

/-- The destination region a command's rule range-checks (R84, R222). -/
def commandDst : Instr → State → Option Region
  | .encrypt, s => some (dstRegion s)
  | .decrypt, s => some (dstRegion s)
  | .xorInto, s => some (dstRegion s)
  | .xorWithInt, s => some (dstRegion s)
  | .ctrEncode, s => some (dstRegion s)
  | .ctrDecode, _ => none
  | .ctrIncrement, s => some (dstRegion s)
  | .padDerive, _ => none

/-- The command that is running: the latched word decoded, while the phase is RUN. An illegal word names none (R82). -/
def runningCommand (s : State) : Option Instr :=
  match s.phase with
  | .idle => none
  | .run =>
    match decode s.latched with
    | .ok i => some i
    | _ => none

/-- The region the running command writes, if any (R70). -/
def runningDst (s : State) : Option Region := (runningCommand s).bind fun i => commandDst i s

/-- The region the running command reads as its source, if any (R70). -/
def runningSrc (s : State) : Option Region := (runningCommand s).bind fun i => commandSrc i s

/-- The address lies in a region, where there is one. -/
abbrev InRegion (r : Option Region) (a : Nat) : Prop := ∃ q ∈ r, q.Has a

end Sys2Proof.Machine
end

