-- ==== Sys2Proof/Machine/Ops.lean ====
section
/-! DEFINITION. The named operations over the data memory and the registers: memory access (R9, R60, R62), acceptance
(R95), the two completions (R97, R98; the error completion is this hardware's taking of an exception, R223, R224), the
soft reset with the abort (R28, R251) and the power-on reset (R250). -/

namespace Sys2Proof.Machine

/-! ### Data memory -/

/-- The canonical form: addresses strictly rising. -/
abbrev Memory.wf (m : Memory) : Prop := m.Pairwise fun x y => x.1 < y.1

/-- The byte at an address; `none` where no agent has written one (R62). Log 7. -/
def memRead : Memory → Nat → Option Byte
  | [], _ => none
  | (c, v) :: m, a => if c = a then some v else memRead m a

/-- Write one byte, keeping the canonical form. -/
def memWrite : Memory → Nat → Byte → Memory
  | [], a, v => [(a, v)]
  | (c, w) :: m, a, v =>
    if a < c then (a, v) :: (c, w) :: m
    else if a = c then (a, v) :: m
    else (c, w) :: memWrite m a v

/-- `MemRead(addr, n)` (R11): the bytes, or the first address that has no value (R62). Log 11. -/
def memReadBytes (m : Memory) : Nat → Nat → Except Nat (List Byte)
  | _, 0 => .ok []
  | a, n + 1 =>
    match memRead m a with
    | none => .error a
    | some v =>
      match memReadBytes m (a + 1) n with
      | .error e => .error e
      | .ok vs => .ok (v :: vs)

/-- `MemWrite(addr, n, v)` with `len(v) = n` (R11). -/
def memWriteBytes : Memory → Nat → List Byte → Memory
  | m, _, [] => m
  | m, a, v :: vs => memWriteBytes (memWrite m a v) (a + 1) vs

/-- `n` bytes from address `a` take free values, numbered from `fresh` on (R251). -/
def memScramble : Memory → Nat → Nat → Nat → Memory
  | m, _, _, 0 => m
  | m, a, fresh, n + 1 => memScramble (memWrite m a (Config.freeByte fresh)) (a + 1) (fresh + 1) n

/-! ### Acceptance and completion -/

/-- The writes of R95. -/
def accepted (w : Word) (s : State) : State :=
  { s with latched := w, flags := acceptFlags s.flags, phase := .run }

/-- Acceptance of a command word written to CMD while idle (R29, R95). The command's time is free (R100, R231), the
sequencer stands at its beginning (R53), and the host has its completion still to observe (R104). The model's choice for
the block index: log 12. -/
def acceptCommand (w : Word) (s : State) : State :=
  { accepted w s with
    unseen := runningDst (accepted w s) :: s.unseen
    dp := Datapath.zero
    delay := Config.delay s.fresh
    tie := Config.tie s.fresh
    fresh := s.fresh + 1 }

/-- The value of one command, `Exec_C(regs, mem, draws)` (R96): `ok` with the bytes to write from address `addr` and the
results it names, `err` with the error it raises, or the model's UNINIT_READ (R62). -/
inductive CmdResult where
  | ok (addr : Nat) (bytes : List Byte) (results : Option (Word × Word)) (xpath : Option Bool)
  | err (e : CmdError)
  | uninit (addr : Nat)
  deriving DecidableEq, Repr

/-- The successful completion, in one step (R97). The model's choice for the block index: log 12. -/
def completeOk (s : State) (addr : Nat) (bytes : List Byte) (results : Option (Word × Word)) (xpath : Option Bool) :
    State :=
  { s with
    mem := memWriteBytes s.mem addr bytes
    result0 := match results with
      | none => s.result0
      | some r => r.1
    result1 := match results with
      | none => s.result1
      | some r => r.2
    flags := successFlags s.flags xpath
    phase := .idle
    dp := Datapath.zero }

/-- The error completion, in one step: what `raise Error(CODE, CAUSE)` ends in (R98, R223, R224). The model's choice for
the block index: log 12. -/
def raiseError (s : State) (e : CmdError) : State :=
  { s with flags := errorFlags s.flags e, phase := .idle, dp := Datapath.zero }

/-- Complete a command with its value (R96-R98). -/
def finish (s : State) : CmdResult → Result
  | .ok addr bytes results xpath => .next (completeOk s addr bytes results xpath)
  | .err e => .next (raiseError s e)
  | .uninit a => .fault (.uninitRead a)

/-- The free-value counter moves on. -/
def spendFresh (n : Nat) (s : State) : State := { s with fresh := s.fresh + n }

/-- The RNG port has answered `n` requests. -/
def spendDraws (n : Nat) (s : State) : State := { s with draws := s.draws + n }

/-! ### Resets -/

/-- Every register and internal register takes its reset value (R55); the memory, the build, the host and the
free-value counter stay. An RNG answer the running command took is discarded, and a late one ignored (R251, R252): the
next draw is another. No completion is left to observe (log 26). -/
def resetRegisters (s : State) : State :=
  { s with
    ctrl := Ctrl.reset
    flags := Flags.reset
    opnd := Operands.reset
    result0 := 0
    result1 := 0
    fill := 0
    phase := .idle
    latched := 0
    dp := Datapath.zero
    delay := 0
    tie := false
    unseen := []
    draws := s.draws + 1 }

/-- How many bytes of a region exist in a data memory of `memBytes` bytes. -/
def existingBytes (r : Region) (memBytes : Nat) : Nat := min r.len (memBytes - r.start)

/-- Aborting the running command: every byte of its destination region that exists takes a free value (R251). -/
def abortCommand (s : State) : State :=
  match runningDst s with
  | none => s
  | some r =>
    { s with
      mem := memScramble s.mem r.start s.fresh (existingBytes r s.build.memBytes)
      fresh := s.fresh + existingBytes r s.build.memBytes }

/-- The soft reset (R28, R251). -/
def softReset (s : State) : State := resetRegisters (abortCommand s)

/-- The power-on reset (R250): the data memory holds no specified value (R62). -/
def powerOnReset (s : State) : State := { resetRegisters s with mem := [] }

end Sys2Proof.Machine
end

