-- ==== Sys2Proof/Machine/Bus.lean ====
section
/-! DEFINITION. The register window (R20-R46) and one turn of the host agent, with its duties (R64, R70, R86, R99, R104). -/

namespace Sys2Proof.Machine

/-- The 17 registers of the window (R20). -/
inductive RegName where
  | id
  | version
  | ctrl
  | cmd
  | status
  | srcAddr
  | srcLen
  | dstAddr
  | dstLen
  | argLo
  | argHi
  | result0
  | result1
  | varinfo
  | padbyte
  | k0byte
  | caps
  deriving DecidableEq, Repr

/-- The offset of a register (R20). -/
def RegName.offset : RegName → Nat
  | .id => 0x000
  | .version => 0x004
  | .ctrl => 0x008
  | .cmd => 0x00C
  | .status => 0x010
  | .srcAddr => 0x014
  | .srcLen => 0x018
  | .dstAddr => 0x01C
  | .dstLen => 0x020
  | .argLo => 0x024
  | .argHi => 0x028
  | .result0 => 0x02C
  | .result1 => 0x030
  | .varinfo => 0x034
  | .padbyte => 0x038
  | .k0byte => 0x03C
  | .caps => 0x040

/-- The register at an offset; none at the reserved offsets (R20, R21). -/
def registerAt (off : Nat) : Option RegName :=
  [RegName.id, .version, .ctrl, .cmd, .status, .srcAddr, .srcLen, .dstAddr, .dstLen, .argLo, .argHi, .result0,
    .result1, .varinfo, .padbyte, .k0byte, .caps].find? fun r => r.offset == off

/-- VARINFO of a table entry (R43). -/
def varinfoWord : Option Variant → Word
  | none => 0
  | some v => 0#8 ++ BitVec.ofNat 8 (lastSize v) ++ BitVec.ofNat 8 v.k ++ BitVec.ofNat 8 v.b

/-- CAPS (R46). -/
def capsWord (c : Build) : Word :=
  0#4 ++ bit c.variant3.isSome ++ bit c.variant2.isSome ++ bit c.variant1.isSome ++ bit c.variant0.isSome ++
    BitVec.ofNat 8 c.decodeBytes ++ 0#7 ++ bit c.unalignedOk ++ BitVec.ofNat 8 c.wordBytes

/-- What a register holds, as the host reads it. No read has a side effect (R21, R69). -/
def readRegister (s : State) : RegName → Word
  | .id => 0x414F4E54#32
  | .version => 0x00010000#32
  | .ctrl => ctrlWord s.ctrl
  | .cmd => 0
  | .status => statusWord s
  | .srcAddr => s.opnd.srcAddr
  | .srcLen => s.opnd.srcLen
  | .dstAddr => s.opnd.dstAddr
  | .dstLen => s.opnd.dstLen
  | .argLo => s.opnd.argLo
  | .argHi => s.opnd.argHi
  | .result0 => s.result0
  | .result1 => s.result1
  | .varinfo => varinfoWord (selectedVariant s)
  | .padbyte => 0#24 ++ s.fill
  | .k0byte => 0#24 ++ s.build.k0Byte
  | .caps => capsWord s.build

/-- An offset of the window read: a reserved offset reads 0 (R21). -/
def readOffset (s : State) (off : Nat) : Word :=
  match registerAt off with
  | none => 0
  | some r => readRegister s r

/-- A write dropped because the engine is busy (R34, R99). -/
def dropWrite (s : State) : State := { s with flags := { s.flags with ovr := true } }

/-- A write that takes effect only while idle (R99). -/
def whenIdle (s t : State) : State :=
  match s.phase with
  | .idle => t
  | .run => dropWrite s

/-- The operand registers replaced. -/
def setOperands (s : State) (o : Operands) : State := { s with opnd := o }

/-- A host write to a register (R21, R24, R28-R30, R37-R46, R99). -/
def writeRegister (s : State) (v : Word) : RegName → State
  | .ctrl => if v.getLsbD 31 then softReset s else whenIdle s { s with ctrl := ctrlOfWord v }
  | .cmd => whenIdle s (acceptCommand v s)
  | .status => { s with flags := ackFlags s.flags v }
  | .srcAddr => whenIdle s (setOperands s { s.opnd with srcAddr := v })
  | .srcLen => whenIdle s (setOperands s { s.opnd with srcLen := v })
  | .dstAddr => whenIdle s (setOperands s { s.opnd with dstAddr := v })
  | .dstLen => whenIdle s (setOperands s { s.opnd with dstLen := v })
  | .argLo => whenIdle s (setOperands s { s.opnd with argLo := v })
  | .argHi => whenIdle s (setOperands s { s.opnd with argHi := v })
  | .padbyte => whenIdle s { s with fill := v.extractLsb' 0 8 }
  | .id => s
  | .version => s
  | .result0 => s
  | .result1 => s
  | .varinfo => s
  | .k0byte => s
  | .caps => s

/-- An offset of the window written: a reserved offset ignores it (R21). -/
def writeOffset (s : State) (off : Nat) (v : Word) : State :=
  match registerAt off with
  | none => s
  | some r => writeRegister s v r

/-- The host notes what it has read (R86). -/
def noteReading (s : State) (var : Nat) (v : Word) : State :=
  { s with host := { s.host with readings := s.host.readings ++ [⟨var, v⟩] } }

/-- A read of this offset that returns STATUS.DONE = 1 or STATUS.BUSY = 0: the host has observed every completion before it
(R71 point 4, R104). -/
def observesCompletion (s : State) (off : Nat) : Bool := off == 0x010 && (s.flags.done || !isBusy s)

/-- What the host knows after it has read an offset. Log 26. -/
def observe (s : State) (off : Nat) : State :=
  { s with unseen := if observesCompletion s off then [] else s.unseen }

/-- Reading this offset reads the results of a completion that the host has not observed (R104). While busy a read of
RESULT0 or RESULT1 is the host's right (R99). Log 26. -/
abbrev UnseenResult (s : State) (off : Nat) : Prop :=
  s.phase = .idle ∧ s.unseen ≠ [] ∧ (off = 0x02C ∨ off = 0x030)

/-- This byte lies in the destination region of a completed command whose completion the host has not observed (R104).
Host reads while busy follow R70. Log 26. -/
abbrev UnseenByte (s : State) (addr : Nat) : Prop := s.phase = .idle ∧ ∃ r ∈ s.unseen, InRegion r addr

/-- The host goes back to a transaction of its program (R86 `poll`). -/
def branchHost (s : State) (target : Nat) : State := { s with host := { s.host with pos := target } }

/-- A host byte read: the byte's value, or a free value where the byte has none (R62) or lies in a region the running
command writes (R70). -/
def hostRead (s : State) (addr var : Nat) : State :=
  if InRegion (runningDst s) addr then
    spendFresh 1 (noteReading s var (0#24 ++ Config.freeByte s.fresh))
  else
    match memRead s.mem addr with
    | some v => noteReading s var (0#24 ++ v)
    | none => spendFresh 1 (noteReading s var (0#24 ++ Config.freeByte s.fresh))

/-- A register access goes through only if it is 32 bits wide, aligned and inside the window (R20, R64). -/
def checkedAccess (off size : Nat) (r : Result) : Result :=
  if size = 4 ∧ off % 4 = 0 then
    if off < 4096 then r else .refused (.outsideWindow off)
  else .refused (.badRegisterAccess off size)

/-- A host read of a register that goes on to `t`: a broken duty is a fault (R104). -/
def readAccess (s : State) (off : Nat) (t : State) : Result :=
  if UnseenResult s off then .fault (.unseenResult off) else .next t

/-- The effect of one host transaction, the host's position aside. -/
def performOp (s : State) : BusOp → Result
  | .regWrite off size v => checkedAccess off size (.next (writeOffset s off v))
  | .regRead off size var => checkedAccess off size (readAccess s off (noteReading (observe s off) var (readOffset s off)))
  | .memWrite addr v =>
    if s.build.memBytes ≤ addr then .fault (.noSuchByte addr)
    else if InRegion (runningSrc s) addr ∨ InRegion (runningDst s) addr then .fault (.hostRace addr)
    else .next { s with mem := memWrite s.mem addr v }
  | .memRead addr var =>
    if s.build.memBytes ≤ addr then .fault (.noSuchByte addr)
    else if UnseenByte s addr then .fault (.unseenByte addr)
    else .next (hostRead s addr var)
  | .poll off mask v target =>
    checkedAccess off 4
      (readAccess s off (if readOffset s off &&& mask = v then observe s off else branchHost (observe s off) target))
  | .powerOn => .next (powerOnReset s)

/-- The host's turn: its next transaction, if its program has one left (R71 point 1: in program order).
Log 16, log 23. -/
def hostTurn (s : State) : Result :=
  match s.host.ops[s.host.pos]? with
  | none => .next s
  | some op => performOp { s with host := { s.host with pos := s.host.pos + 1 } } op

/-- The host program has executed its last transaction and the engine is idle: the end of a run that recorded no fault
(R103); a fault or a refusal stops the machine, so that no state follows it (R227). -/
def runEnded (s : State) : Bool := decide (s.host.ops.length ≤ s.host.pos) && !isBusy s

/-- The platform address of a register (R20, R77). -/
def registerBusAddress (c : Build) (r : RegName) : Nat := c.regBase + r.offset

/-- The platform address of a data memory byte (R60, R77). -/
def memoryBusAddress (c : Build) (a : Nat) : Nat := c.memBase + a

end Sys2Proof.Machine
end

