-- ==== Sys2Proof/Machine/Bytes.lean ====
section
/-! DEFINITION. Buffers as lists of bytes (R9): big-endian value and encoding, XOR of equal lengths, blocks. -/

namespace Sys2Proof.Machine

/-- `zeros(n)` (R9). -/
def zeros (n : Nat) : List Byte := List.replicate n 0

/-- `rep(n, v)` (R9). -/
def rep (n : Nat) (v : Byte) : List Byte := List.replicate n v

/-- `a ⊕ c`, bytewise (R9); used on equal lengths only. -/
def xorBytes (a c : List Byte) : List Byte := List.zipWith (fun x y => x ^^^ y) a c

/-- `BE(a)`, with the value of the bytes already read in `acc`. -/
def beAcc (acc : Nat) : List Byte → Nat
  | [] => acc
  | x :: xs => beAcc (acc * 256 + x.toNat) xs

/-- `BE(a)`: the unsigned integer whose big-endian encoding is `a` (R9). -/
def beNat (a : List Byte) : Nat := beAcc 0 a

/-- `be_n(i)`: the n-byte big-endian encoding of `i mod 2^(8n)` (R9). -/
def beBytes : Nat → Nat → List Byte
  | 0, _ => []
  | n + 1, i => beBytes n (i / 256) ++ [BitVec.ofNat 8 i]

/-- The first `n` consecutive blocks of `b` bytes of a buffer: `S[(i-1)*b .. i*b)` for i = 1..n (R180, R200). -/
def chunks (b : Nat) : Nat → List Byte → List (List Byte)
  | 0, _ => []
  | n + 1, s => s.take b :: chunks b n (s.drop b)

end Sys2Proof.Machine
end

