-- ==== Sys2Proof/Machine/Counter.lean ====
section
/-! DEFINITION. The counter codec (R120-R122) and CTR_ENCODE, CTR_DECODE, CTR_INCREMENT (R130-R132). -/

namespace Sys2Proof.Machine

/-- `encode(i, n)` (R120). -/
def ctrEncode (i n : Nat) : List Byte := beBytes n i

/-- `decode(a)` with `DECODE_BYTES = width`: only the last `width` bytes count (R121). -/
def ctrDecode (width : Nat) (a : List Byte) : Nat := beNat (a.drop (a.length - width))

/-- The successor with carry, least significant byte first (the loop of R122 from the last byte down). -/
def incrementFromLast : List Byte → List Byte
  | [] => []
  | x :: xs => if x + 1 = 0 then (x + 1) :: incrementFromLast xs else (x + 1) :: xs

/-- `increment(a)` (R122). -/
def ctrIncrement (a : List Byte) : List Byte := (incrementFromLast a.reverse).reverse

/-- The value of CTR_ENCODE (R130). -/
def cmdCtrEncode (s : State) : CmdResult :=
  if ¬ (dstRegion s).Valid s.build.memBytes then .err .rangeDst
  else .ok (dstRegion s).start (ctrEncode (arg64 s) (dstRegion s).len) none none

/-- CTR_ENCODE (R130). -/
def execCtrEncode (s : State) : Result := finish s (cmdCtrEncode s)

/-- The value of CTR_DECODE (R131). The whole buffer is read (log 11). -/
def cmdCtrDecode (s : State) : CmdResult :=
  if ¬ (srcRegion s).Valid s.build.memBytes then .err .rangeSrc
  else
    match memReadBytes s.mem (srcRegion s).start (srcRegion s).len with
    | .error a => .uninit a
    | .ok a =>
      .ok 0 []
        (some (BitVec.ofNat 32 (ctrDecode s.build.decodeBytes a),
          BitVec.ofNat 32 (ctrDecode s.build.decodeBytes a / 4294967296)))
        none

/-- CTR_DECODE (R131). -/
def execCtrDecode (s : State) : Result := finish s (cmdCtrDecode s)

/-- The value of CTR_INCREMENT (R132). -/
def cmdCtrIncrement (s : State) : CmdResult :=
  if ¬ (dstRegion s).Valid s.build.memBytes then .err .rangeDst
  else
    match memReadBytes s.mem (dstRegion s).start (dstRegion s).len with
    | .error a => .uninit a
    | .ok a => .ok (dstRegion s).start (ctrIncrement a) none none

/-- CTR_INCREMENT (R132). -/
def execCtrIncrement (s : State) : Result := finish s (cmdCtrIncrement s)

end Sys2Proof.Machine
end

