-- ==== Sys2Proof/Machine/Xor.lean ====
section
/-! DEFINITION. The byte-XOR unit with both its paths (R140-R147) and XOR_INTO, XOR_WITH_INT (R150, R151). -/

namespace Sys2Proof.Machine

/-- `xorInto(dst, src)`: trailing-aligned, `len(dst)` bytes (R140). -/
def xorIntoBytes (dst src : List Byte) : List Byte :=
  let n := min dst.length src.length
  dst.take (dst.length - n) ++ xorBytes (dst.drop (dst.length - n)) (src.drop (src.length - n))

/-- The loop of R141, least significant byte first: it stops when `i`'s significant bits are exhausted. -/
def xorIntFromLast : List Byte → Nat → List Byte
  | [], _ => []
  | x :: xs, i => if i = 0 then x :: xs else (x ^^^ BitVec.ofNat 8 i) :: xorIntFromLast xs (i / 256)

/-- `xorWithInt(src, i)` (R141). -/
def xorWithIntBytes (src : List Byte) (i : Nat) : List Byte := (xorIntFromLast src.reverse i).reverse

/-- The byte path on two windows of equal length (R144). -/
def bytePath (dst src : List Byte) : List Byte := xorBytes dst src

/-- `q` words of `width` bytes, each XORed as one unsigned integer, then the rest by the byte path (R145). The lane order
is not specified and changes nothing; the loads here are big-endian. Log 24. -/
def wordSteps (width : Nat) : Nat → List Byte → List Byte → List Byte
  | 0, dst, src => bytePath dst src
  | q + 1, dst, src =>
    beBytes width (beNat (dst.take width) ^^^ beNat (src.take width)) ++
      wordSteps width q (dst.drop width) (src.drop width)

/-- The word path on two windows of equal length, words counted from the start of the window (R145). -/
def wordPath (width : Nat) (dst src : List Byte) : List Byte := wordSteps width (dst.length / width) dst src

/-- The XOR unit on two windows, by the path chosen. -/
def xorUnit (useWords : Bool) (width : Nat) (dst src : List Byte) : List Byte :=
  if useWords then wordPath width dst src else bytePath dst src

/-- The number of bytes XOR_INTO works on: `min(SRC_LEN, DST_LEN)` (R150). -/
def xorCount (s : State) : Nat := min s.opnd.srcLen.toNat s.opnd.dstLen.toNat

/-- The source window `(ss, n)` (R146, R150). -/
def xorSrcWindow (s : State) : Region := ⟨s.opnd.srcAddr.toNat + s.opnd.srcLen.toNat - xorCount s, xorCount s⟩

/-- The destination window `(ds, n)` (R146, R150). -/
def xorDstWindow (s : State) : Region := ⟨s.opnd.dstAddr.toNat + s.opnd.dstLen.toNat - xorCount s, xorCount s⟩

/-- The word path is used exactly when this holds (R146). -/
def wordEligible (s : State) : Bool :=
  !s.ctrl.xorBytewise && decide (s.build.wordBytes ≤ xorCount s) &&
    (s.build.unalignedOk ||
      (decide ((xorDstWindow s).start % s.build.wordBytes = 0) &&
        decide ((xorSrcWindow s).start % s.build.wordBytes = 0)))

/-- The value of XOR_INTO (R150). Only the two windows are read and only the destination window is written (log 11). -/
def cmdXorInto (s : State) : CmdResult :=
  if ¬ (srcRegion s).Valid s.build.memBytes then .err .rangeSrc
  else if ¬ (dstRegion s).Valid s.build.memBytes then .err .rangeDst
  else if (xorSrcWindow s).Overlaps (xorDstWindow s) ∧ (xorSrcWindow s).start ≠ (xorDstWindow s).start then .err .overlap
  else
    match memReadBytes s.mem (xorDstWindow s).start (xorCount s) with
    | .error a => .uninit a
    | .ok d =>
      match memReadBytes s.mem (xorSrcWindow s).start (xorCount s) with
      | .error a => .uninit a
      | .ok c =>
        .ok (xorDstWindow s).start (xorUnit (wordEligible s) s.build.wordBytes d c) none (some (wordEligible s))

/-- XOR_INTO (R150). -/
def execXorInto (s : State) : Result := finish s (cmdXorInto s)

/-- The value of XOR_WITH_INT (R151). Log 25. -/
def cmdXorWithInt (s : State) : CmdResult :=
  if ¬ (srcRegion s).Valid s.build.memBytes then .err .rangeSrc
  else if ¬ (dstRegion s).Valid s.build.memBytes then .err .rangeDst
  else if (srcRegion s).Overlaps (dstRegion s) ∧ (srcRegion s).start ≠ (dstRegion s).start then .err .overlap
  else if (dstRegion s).len < (srcRegion s).len then .err .capacity
  else
    match memReadBytes s.mem (srcRegion s).start (srcRegion s).len with
    | .error a => .uninit a
    | .ok c => .ok (dstRegion s).start (xorWithIntBytes c (arg64 s)) none none

/-- XOR_WITH_INT (R151). -/
def execXorWithInt (s : State) : Result := finish s (cmdXorWithInt s)

end Sys2Proof.Machine
end

