-- ==== Sys2Proof/Machine/Cipher.lean ====
section
/-! DEFINITION. The cipher and RNG ports (R160, R161, R166), the public mask key (R164), and the block loops that ENCRYPT
and DECRYPT share (R184). -/

namespace Sys2Proof.Machine

/-- The two ports, as the functions that answer (R96: a command is a function of registers, memory and draws). -/
structure Ports where
  /-- `E(v, K, x)` (R160). -/
  encipher : (b : Nat) → BitVec 2 → List Byte → List Byte → Vector Byte b
  /-- `CIPHER_ACCEPTS(v, K)` (R161). -/
  accepts : BitVec 2 → List Byte → Bool
  /-- `draw RNG(k)`; `none` is `fail` (R166). -/
  draw : Nat → (k : Nat) → Option (Vector Byte k)

/-- The ports attached to this engine: opaque (log 2, log 3). -/
def attachedPorts : Ports := ⟨Config.cipher, Config.cipherAccepts, Config.rngDraw⟩

/-- One cipher with its variant fixed: `E(v, ·, ·)` for blocks of `b` bytes (R160). -/
def blockCipher (p : Ports) (v : BitVec 2) (b : Nat) (key block : List Byte) : List Byte :=
  (p.encipher b v key block).toList

/-- `K0 = rep(k, K0_BYTE)` (R164). -/
def publicKey (c : Build) (v : Variant) : List Byte := rep v.k c.k0Byte

/-- `E(key, encode(j, b)) ⊕ x_j` for the blocks numbered from `i` on (R180 step 3, R200 step 5). -/
def maskBlocks (enc : List Byte → List Byte) (b : Nat) : Nat → List (List Byte) → List (List Byte)
  | _, [] => []
  | i, x :: xs => xorBytes (enc (ctrEncode i b)) x :: maskBlocks enc b (i + 1) xs

/-- The XOR of the hash-chain values `h_j = E(K0, x_j ⊕ encode(j, b))` of the blocks numbered from `i` on, into `acc`
(R180, R184, R200 step 3). -/
def hashChain (hash : List Byte → List Byte) (b : Nat) : Nat → List Byte → List (List Byte) → List Byte
  | _, acc, [] => acc
  | i, acc, x :: xs => hashChain hash b (i + 1) (xorBytes acc (hash (xorBytes x (ctrEncode i b)))) xs

end Sys2Proof.Machine
end

