-- ==== Sys2Proof/Machine/Decrypt.lean ====
section
/-! DEFINITION. DECRYPT (R200-R204). -/

namespace Sys2Proof.Machine

/-- The number c of b-byte segments of a buffer of `len` bytes (R200, R201). -/
def segmentCount (v : Variant) (len : Nat) : Nat := (len - lastSize v) / v.b

/-- The key accumulator: the last segment with H XORed into its last b bytes (R200 step 3, R202). -/
def keyAccumulator (hash : List Byte → List Byte) (v : Variant) (buffer : List Byte) : List Byte :=
  let c := segmentCount v buffer.length
  xorIntoBytes (buffer.drop (c * v.b)) (hashChain hash v.b 1 (zeros v.b) (chunks v.b c buffer))

/-- The recovered key: the last k bytes of the accumulator (R202). -/
def recoveredKey (hash : List Byte → List Byte) (v : Variant) (buffer : List Byte) : List Byte :=
  (keyAccumulator hash v buffer).drop (lastSize v - v.k)

/-- The recovered padding count: the whole decode value of the unmasked marker block (R200, R203). -/
def recoveredPadding (enc : List Byte → List Byte) (width : Nat) (v : Variant) (buffer : List Byte) : Nat :=
  let c := segmentCount v buffer.length
  ctrDecode width (xorBytes ((buffer.drop ((c - 1) * v.b)).take v.b) (enc (ctrEncode c v.b)))

/-- The plaintext for a recovered padding count: the unmasked blocks but for the last `pNum` bytes (R200 steps 5, 6). -/
def recoveredPlain (enc : List Byte → List Byte) (v : Variant) (pNum : Nat) (buffer : List Byte) : List Byte :=
  let s := segmentCount v buffer.length - 1
  (maskBlocks enc v.b 1 (chunks v.b s buffer)).flatten.take (s * v.b - pNum)

/-- The checks before the buffer is read, in order (R200, R222): the variant, or the first error. -/
def decryptChecks (s : State) : Except CmdError Variant :=
  match selectedVariant s with
  | none => .error .badConfig
  | some v =>
    if ¬ (srcRegion s).Valid s.build.memBytes then .error .rangeSrc
    else if ¬ (dstRegion s).Valid s.build.memBytes then .error .rangeDst
    else if (srcRegion s).Overlaps (dstRegion s) then .error .overlap
    else if (srcRegion s).len < v.b + lastSize v then .error .inputTooShort
    else if ((srcRegion s).len - lastSize v) % v.b ≠ 0 then .error .inputMisaligned
    else .ok v

/-- DECRYPT once its buffer is read (R200, R204): the marker block is unmasked and checked before any output. -/
def decryptRead (p : Ports) (s : State) (v : Variant) (buffer : List Byte) : CmdResult :=
  let hash := blockCipher p s.ctrl.variant v.b (publicKey s.build v)
  let key := recoveredKey hash v buffer
  let enc := blockCipher p s.ctrl.variant v.b key
  let blocks := segmentCount v buffer.length - 1
  let pNum := recoveredPadding enc s.build.decodeBytes v buffer
  if ¬ p.accepts s.ctrl.variant (publicKey s.build v) then .err .cipherInitK0
  else if ¬ p.accepts s.ctrl.variant key then .err .cipherInitKey
  else if ¬ (1 ≤ pNum ∧ pNum ≤ v.b ∧ 1 ≤ blocks) then .err .inputPadding
  else if (dstRegion s).len < blocks * v.b - pNum then .err .capacity
  else
    .ok (dstRegion s).start (recoveredPlain enc v pNum buffer)
      (some (BitVec.ofNat 32 (blocks * v.b - pNum), BitVec.ofNat 32 pNum)) none

/-- DECRYPT's value with given ports (R96, R200). PADBYTE is not read. -/
def cmdDecrypt (p : Ports) (s : State) : CmdResult :=
  match decryptChecks s with
  | .error e => .err e
  | .ok v =>
    match memReadBytes s.mem (srcRegion s).start (srcRegion s).len with
    | .error a => .uninit a
    | .ok buffer => decryptRead p s v buffer

/-- DECRYPT with given ports. -/
def execDecryptWith (p : Ports) (s : State) : Result := finish s (cmdDecrypt p s)

/-- DECRYPT (R200). -/
def execDecrypt (s : State) : Result := execDecryptWith attachedPorts s

end Sys2Proof.Machine
end

