-- ==== Sys2Proof/Machine/Padding.lean ====
section
/-! DEFINITION. The padding codec (R110) and PAD_DERIVE (R112). -/

namespace Sys2Proof.Machine

/-- `padDerive(L, b) = (pNum, s)` (R110). -/
def padDerive (len b : Nat) : Nat × Nat := (b - len % b, len / b + 1)

/-- The value of PAD_DERIVE (R112). -/
def cmdPadDerive (s : State) : CmdResult :=
  match selectedVariant s with
  | none => .err .badConfig
  | some v =>
    .ok 0 []
      (some (BitVec.ofNat 32 (padDerive s.opnd.srcLen.toNat v.b).1, BitVec.ofNat 32 (padDerive s.opnd.srcLen.toNat v.b).2))
      none

/-- PAD_DERIVE (R112). -/
def execPadDerive (s : State) : Result := finish s (cmdPadDerive s)

end Sys2Proof.Machine
end

