-- ==== Sys2Proof/Machine/Encrypt.lean ====
section
/-! DEFINITION. ENCRYPT (R180-R184). -/

namespace Sys2Proof.Machine

/-- `N = (s + 1) * b + lastSize`: the bytes ENCRYPT writes for a plaintext of `len` bytes (R180, R181). -/
def encryptSize (v : Variant) (len : Nat) : Nat := ((padDerive len v.b).2 + 1) * v.b + lastSize v

/-- `trailingAligned(key, lastSize)` (R182). -/
def trailingAligned (v : Variant) (key : List Byte) : List Byte := zeros (lastSize v - v.k) ++ key

/-- The segments m[1] .. m[s+1] (R180 steps 3 and 4). -/
def encryptSegments (enc : List Byte → List Byte) (v : Variant) (fill : Byte) (plain : List Byte) : List (List Byte) :=
  let pNum := (padDerive plain.length v.b).1
  let s := (padDerive plain.length v.b).2
  maskBlocks enc v.b 1 (chunks v.b s (plain ++ rep pNum fill)) ++
    [xorWithIntBytes (enc (ctrEncode (s + 1) v.b)) pNum]

/-- The flat segment buffer (R180 steps 3 to 6, R181): `enc` is E under the ephemeral key, `hash` is E under K0. -/
def encryptBuffer (enc hash : List Byte → List Byte) (v : Variant) (key : List Byte) (fill : Byte) (plain : List Byte) :
    List Byte :=
  let segments := encryptSegments enc v fill plain
  segments.flatten ++ xorIntoBytes (trailingAligned v key) (hashChain hash v.b 1 (zeros v.b) segments)

/-- The checks before the draw, in order (R180, R222): the variant, or the first error. -/
def encryptChecks (s : State) : Except CmdError Variant :=
  match selectedVariant s with
  | none => .error .badConfig
  | some v =>
    if ¬ (srcRegion s).Valid s.build.memBytes then .error .rangeSrc
    else if ¬ (dstRegion s).Valid s.build.memBytes then .error .rangeDst
    else if (srcRegion s).Overlaps (dstRegion s) then .error .overlap
    else if (dstRegion s).len < encryptSize v (srcRegion s).len then .error .capacity
    else .ok v

/-- ENCRYPT from the draw on (R180). -/
def encryptDrawn (p : Ports) (s : State) (v : Variant) (draw : Option (Vector Byte v.k)) : CmdResult :=
  match draw with
  | none => .err .entropy
  | some key =>
    if ¬ p.accepts s.ctrl.variant key.toList then .err .cipherInitKey
    else if ¬ p.accepts s.ctrl.variant (publicKey s.build v) then .err .cipherInitK0
    else
      match memReadBytes s.mem (srcRegion s).start (srcRegion s).len with
      | .error a => .uninit a
      | .ok plain =>
        .ok (dstRegion s).start
          (encryptBuffer (blockCipher p s.ctrl.variant v.b key.toList)
            (blockCipher p s.ctrl.variant v.b (publicKey s.build v)) v key.toList s.fill plain)
          (some (BitVec.ofNat 32 (encryptSize v (srcRegion s).len),
            BitVec.ofNat 32 ((padDerive (srcRegion s).len v.b).2 + 2)))
          none

/-- ENCRYPT with given ports (R96, R180). An ENCRYPT that fails a check before the draw takes no draw (R222). -/
def execEncryptWith (p : Ports) (s : State) : Result :=
  match encryptChecks s with
  | .error e => finish s (.err e)
  | .ok v => finish (spendDraws 1 s) (encryptDrawn p s v (p.draw s.draws v.k))

/-- ENCRYPT (R180). -/
def execEncrypt (s : State) : Result := execEncryptWith attachedPorts s

end Sys2Proof.Machine
end

