-- ==== Sys2Proof/Machine/Dispatch.lean ====
section
/-! DEFINITION. One arm for each command of the opcode map (R81, R96): the command's own effect, from the state at its
completion. -/

namespace Sys2Proof.Machine

def exec (i : Instr) (s : State) : Host.Outcome State Fault Refusal :=
  match i with
  | .encrypt => Sys2Proof.Machine.execEncrypt s
  | .decrypt => Sys2Proof.Machine.execDecrypt s
  | .xorInto => Sys2Proof.Machine.execXorInto s
  | .xorWithInt => Sys2Proof.Machine.execXorWithInt s
  | .ctrEncode => Sys2Proof.Machine.execCtrEncode s
  | .ctrDecode => Sys2Proof.Machine.execCtrDecode s
  | .ctrIncrement => Sys2Proof.Machine.execCtrIncrement s
  | .padDerive => Sys2Proof.Machine.execPadDerive s

end Sys2Proof.Machine
end

