-- ==== Sys2Proof/Machine/Sequencer.lean ====
section
/-! DEFINITION. What the internal registers hold while a command runs (R47, R49-R51), at each position of the sequencer in
it: position 0 is its beginning, and each later one has done one more piece of the command's pseudocode. How far it moves
in one turn is free, and no register shows any of it (R47, R96). Log 12. -/

namespace Sys2Proof.Machine

/-- The bytes of a buffer in an internal register (R49, R63). -/
def wideOf (bytes : List Byte) : Wide := BitVec.ofNat 2040 (beNat bytes)

/-- BLK: free, in its b bytes (R49); nothing before the first block. -/
def workingBlock (fresh b position : Nat) : Wide :=
  if position = 0 then 0 else BitVec.ofNat 2040 ((Config.hiddenBlock fresh position).toNat % 256 ^ b)

/-- ENCRYPT once its key is drawn, with the encryptors instantiated so far: PNUM and KEY are loaded (R180). -/
def encryptKeyed (s : State) (v : Variant) (key : List Byte) (encryptors : List Wide) : Datapath :=
  { Datapath.zero with
    key := wideOf key
    pnum := BitVec.ofNat 64 (padDerive (srcRegion s).len v.b).1
    encryptors := encryptors
    position := 1 }

/-- ENCRYPT with `i` segments masked and hashed (R180 steps 3 and 4). -/
def encryptLoop (p : Ports) (s : State) (v : Variant) (key plain : List Byte) (i : Nat) : Datapath :=
  let segments := encryptSegments (blockCipher p s.ctrl.variant v.b key) v s.fill plain
  { encryptKeyed s v key [wideOf key, wideOf (publicKey s.build v)] with
    hacc := wideOf (hashChain (blockCipher p s.ctrl.variant v.b (publicKey s.build v)) v.b 1 (zeros v.b) (segments.take i))
    ctr := wideOf (ctrEncode i v.b)
    blk := workingBlock s.fresh v.b i
    index := i
    position := i + 1 }

/-- ENCRYPT after the draw, `i` segments further where it gets that far: it stops where a key is rejected (R161) or an
unwritten byte is read (R62). -/
def encryptAfterDraw (p : Ports) (s : State) (v : Variant) (key : List Byte) (i : Nat) : Datapath :=
  if ¬ p.accepts s.ctrl.variant key then encryptKeyed s v key []
  else if ¬ p.accepts s.ctrl.variant (publicKey s.build v) then encryptKeyed s v key [wideOf key]
  else
    match memReadBytes s.mem (srcRegion s).start (srcRegion s).len with
    | .error _ => encryptKeyed s v key [wideOf key, wideOf (publicKey s.build v)]
    | .ok plain => encryptLoop p s v key plain (min i ((padDerive plain.length v.b).2 + 1))

/-- ENCRYPT at a position (R180): the checks, the draw, then one segment each. -/
def encryptAt (p : Ports) (s : State) : Nat → Datapath
  | 0 => Datapath.zero
  | n + 1 =>
    match encryptChecks s with
    | .error _ => Datapath.zero
    | .ok v =>
      match p.draw s.draws v.k with
      | none => Datapath.zero
      | some key => encryptAfterDraw p s v key.toList n

/-- DECRYPT with `i` segments hashed: KACC is the last segment with the running H XORed in (R200 step 3, R202). -/
def decryptChain (p : Ports) (s : State) (v : Variant) (buffer : List Byte) (i : Nat) : Datapath :=
  let h := hashChain (blockCipher p s.ctrl.variant v.b (publicKey s.build v)) v.b 1 (zeros v.b) (chunks v.b i buffer)
  { Datapath.zero with
    kacc := wideOf (xorIntoBytes (buffer.drop (segmentCount v buffer.length * v.b)) h)
    hacc := wideOf h
    ctr := wideOf (ctrEncode i v.b)
    blk := workingBlock s.fresh v.b i
    index := i
    encryptors := [wideOf (publicKey s.build v)]
    position := i + 1 }

/-- DECRYPT `n` positions after the key is recovered (R200 steps 4 and 5, R204): the marker block, then one block each. It
stops where the recovered key is rejected or a check of the marker block fails. -/
def decryptAfterKey (p : Ports) (s : State) (v : Variant) (buffer : List Byte) (n : Nat) : Datapath :=
  let key := recoveredKey (blockCipher p s.ctrl.variant v.b (publicKey s.build v)) v buffer
  let c := segmentCount v buffer.length
  let pNum := recoveredPadding (blockCipher p s.ctrl.variant v.b key) s.build.decodeBytes v buffer
  let keyed := { decryptChain p s v buffer c with key := wideOf key, position := c + 2 }
  let opened := { keyed with encryptors := [wideOf (publicKey s.build v), wideOf key] }
  let marker := { opened with pnum := BitVec.ofNat 64 pNum, position := c + 3 }
  let i := min (n - 1) (c - 1)
  if ¬ p.accepts s.ctrl.variant key then keyed
  else if n = 0 then opened
  else if i = 0 ∨ ¬ (1 ≤ pNum ∧ pNum ≤ v.b) ∨ (dstRegion s).len < (c - 1) * v.b - pNum then marker
  else
    { marker with
      ctr := wideOf (ctrEncode i v.b)
      blk := workingBlock s.fresh v.b (c + i)
      index := i
      position := c + 3 + i }

/-- DECRYPT at a position (R200): the checks and the read, the hash chain, then the unmasking. -/
def decryptAt (p : Ports) (s : State) : Nat → Datapath
  | 0 => Datapath.zero
  | n + 1 =>
    match decryptChecks s with
    | .error _ => Datapath.zero
    | .ok v =>
      match memReadBytes s.mem (srcRegion s).start (srcRegion s).len with
      | .error _ => Datapath.zero
      | .ok buffer =>
        if ¬ p.accepts s.ctrl.variant (publicKey s.build v) then Datapath.zero
        else if n ≤ segmentCount v buffer.length then decryptChain p s v buffer n
        else decryptAfterKey p s v buffer (n - segmentCount v buffer.length - 1)

/-- PAD_DERIVE at a position: PNUM is loaded (R112). -/
def padDeriveAt (s : State) : Nat → Datapath
  | 0 => Datapath.zero
  | _ + 1 =>
    match selectedVariant s with
    | none => Datapath.zero
    | some v =>
      { Datapath.zero with
        blk := workingBlock s.fresh v.b 1
        pnum := BitVec.ofNat 64 (padDerive s.opnd.srcLen.toNat v.b).1
        position := 1 }

/-- A command without keys, blocks or padding: BLK alone may hold something (R49). -/
def plainAt (s : State) (n : Nat) : Datapath :=
  { Datapath.zero with blk := workingBlock s.fresh 255 (min n 1), position := min n 1 }

/-- The internal registers at a position of a running command (R49). -/
def sequencerAt (p : Ports) (i : Instr) (s : State) (n : Nat) : Datapath :=
  match i with
  | .encrypt => encryptAt p s n
  | .decrypt => decryptAt p s n
  | .xorInto => plainAt s n
  | .xorWithInt => plainAt s n
  | .ctrEncode => plainAt s n
  | .ctrDecode => plainAt s n
  | .ctrIncrement => plainAt s n
  | .padDerive => padDeriveAt s n

/-- The sequencer moves on by a free amount in a turn of a running command; nothing else changes (R47, R96). An illegal word
runs nothing. -/
def advanceSequencer (s : State) : State :=
  match runningCommand s with
  | none => s
  | some i =>
    { s with dp := sequencerAt attachedPorts i s (s.dp.position + Config.hiddenAdvance s.fresh s.delay) }

end Sys2Proof.Machine
end

