-- ==== Sys2Proof/Machine/Step.lean ====
section
/-! DEFINITION. One step of the machine: a turn of the host, a completion of the engine, or both at once. -/

namespace Sys2Proof.Machine

/-- The engine's turn: it decodes the latched word and completes the command (R82, R96-R98). The last case needs a word
that is not one word and does not occur. Log 20. -/
def engineTurn (s : State) : Host.Outcome State Fault Refusal :=
  match decode s.latched with
  | .ok i => exec i s
  | .illegalOpcode => .next (raiseError s .illegalOpcode)
  | .reservedBits => .next (raiseError s .illegalReserved)
  | .notOneWord => .next (raiseError s .illegalOpcode)

/-- A completion in the same step as a host transaction (R231): the transaction is taken first, as busy; then the
command completes, unless a reset aborted it. -/
def tieTurn (s : State) : Host.Outcome State Fault Refusal :=
  match hostTurn { s with tie := false } with
  | .next t =>
    match t.phase with
    | .run => engineTurn t
    | .idle => .next t
  | .fault f => .fault f
  | .refused r => .refused r

/-- One step. While idle the host moves. While a command runs, the sequencer moves on and the host moves, as often as
the command's free `delay` says, and then the engine completes it (R71, R99, R100). -/
def step (s : State) : Host.Outcome State Fault Refusal :=
  match s.phase with
  | .idle => hostTurn s
  | .run =>
    match s.delay with
    | d + 1 => hostTurn { advanceSequencer s with delay := d }
    | 0 => if s.tie then tieTurn s else engineTurn s

/-- `s` with the command word `w` accepted (R95) and due to complete in the very next step (log 4). -/
def State.withFetchWord (s : State) (nbits w : Nat) : State :=
  { accepted (BitVec.ofNat 32 (w % 2 ^ nbits)) s with delay := 0, tie := false }

end Sys2Proof.Machine
end

