-- ==== Sys2Proof/Machine/HostAsm.lean ====
section
/-! DEFINITION. Host assembly (R86), its pseudo-instructions (R87) and the disassembly (R88). Log 18. -/

namespace Sys2Proof.Machine

/-- Where a `poll` goes back to: its own label, or a label of the program (R86). -/
inductive Target where
  | here
  | label (l : Nat)
  deriving DecidableEq, Repr

/-- The statements of R86 and the pseudo-instructions of R87. Labels and host variables are numbers. MODEL'S CHOICE (DESIGN
CHOICE): R87 bounds no operand of `setv` and `arg`; here `setv` takes a 2-bit `v` and one-bit `bw` and `ie`, the widths of
CTRL's fields (R24), `arg` and a mnemonic's integer 64 bits, and every other value of the bus 32 bits. Log 18. -/
inductive Stmt where
  | wr (r : RegName) (v : Word)
  | rd (r : RegName) (var : Nat)
  | wrm (addr : Nat) (bytes : List Byte)
  | rdm (addr count var : Nat)
  | poll (r : RegName) (mask value : Word) (target : Target)
  | cmd (i : Instr)
  | wait
  | ack
  | srst
  | setv (v : BitVec 2) (bytewise irqEn : Bool)
  | ops (sa sl da dl : Word)
  | arg (i : BitVec 64)
  /-- A mnemonic used as a statement, with its integer argument if given. -/
  | call (i : Instr) (sa sl da dl : Word) (x : Option (BitVec 64))
  deriving DecidableEq, Repr

/-- A statement with the label it may carry (R86). -/
structure Line where
  label : Option Nat
  stmt  : Stmt
  deriving DecidableEq, Repr

/-- `wr NAME, v` on the bus (R86). -/
def wrOp (r : RegName) (v : Word) : BusOp := .regWrite r.offset 4 v

/-- Byte writes at `addr`, `addr + 1`, ... (R86 `wrm`). -/
def wrmOps : Nat → List Byte → List BusOp
  | _, [] => []
  | addr, x :: xs => .memWrite addr x :: wrmOps (addr + 1) xs

/-- Byte reads of `count` bytes (R86 `rdm`). -/
def rdmOps (var : Nat) : Nat → Nat → List BusOp
  | _, 0 => []
  | addr, n + 1 => .memRead addr var :: rdmOps var (addr + 1) n

/-- `ops sa, sl, da, dl` (R87). -/
def opsOps (sa sl da dl : Word) : List BusOp := [wrOp .srcAddr sa, wrOp .srcLen sl, wrOp .dstAddr da, wrOp .dstLen dl]

/-- `arg i` (R87). -/
def argOps (i : BitVec 64) : List BusOp := [wrOp .argLo (i.extractLsb' 0 32), wrOp .argHi (i.extractLsb' 32 32)]

/-- `wait`, standing at transaction `pos` (R87). -/
def waitOp (pos : Nat) : BusOp := .poll RegName.status.offset 0x00000002#32 0x00000002#32 pos

/-- A mnemonic used as a statement but for its `wait` (R87, last row). -/
def callOps (i : Instr) (sa sl da dl : Word) (x : Option (BitVec 64)) : List BusOp :=
  opsOps sa sl da dl ++
    (match x with
      | none => []
      | some v => argOps v) ++
    [wrOp .cmd (encode i)]

/-- The transaction a target names: an own label, or one at or before the `poll` (R86). MODEL'S CHOICE (DESIGN CHOICE): where
several statements carry one label, it names the first of them, even where the `poll` carries it itself; R86 does not
say. Log 18. -/
def resolve (labels : List (Nat × Nat)) (pos : Nat) : Target → Option Nat
  | .here => some pos
  | .label l =>
    match labels.find? fun p => p.1 == l with
    | none => none
    | some p => if p.2 ≤ pos then some p.2 else none

/-- The bus transactions of a statement that stands at transaction `pos` (R86, R87). -/
def expand (labels : List (Nat × Nat)) (pos : Nat) : Stmt → Option (List BusOp)
  | .wr r v => some [wrOp r v]
  | .rd r var => some [.regRead r.offset 4 var]
  | .wrm addr bytes => some (wrmOps addr bytes)
  | .rdm addr count var => some (rdmOps var addr count)
  | .poll r mask value target => (resolve labels pos target).map fun t => [.poll r.offset mask value t]
  | .cmd i => some [wrOp .cmd (encode i)]
  | .wait => some [waitOp pos]
  | .ack => some [wrOp .status 0x0000000E#32]
  | .srst => some [wrOp .ctrl 0x80000000#32]
  | .setv v bytewise irqEn => some [wrOp .ctrl (ctrlWord ⟨v, bytewise, irqEn⟩)]
  | .ops sa sl da dl => some (opsOps sa sl da dl)
  | .arg i => some (argOps i)
  | .call i sa sl da dl x => some (callOps i sa sl da dl x ++ [waitOp (pos + (callOps i sa sl da dl x).length)])

/-- How many transactions a statement stands for. -/
def stmtLength : Stmt → Nat
  | .wrm _ bytes => bytes.length
  | .rdm _ count _ => count
  | .ops _ _ _ _ => 4
  | .arg _ => 2
  | .call i sa sl da dl x => (callOps i sa sl da dl x).length + 1
  | .wr _ _ => 1
  | .rd _ _ => 1
  | .poll _ _ _ _ => 1
  | .cmd _ => 1
  | .wait => 1
  | .ack => 1
  | .srst => 1
  | .setv _ _ _ => 1

/-- The labels of a program with the transactions they stand at. -/
def labelTable : Nat → List Line → List (Nat × Nat)
  | _, [] => []
  | pos, ln :: rest =>
    match ln.label with
    | none => labelTable (pos + stmtLength ln.stmt) rest
    | some l => (l, pos) :: labelTable (pos + stmtLength ln.stmt) rest

/-- The transactions of the lines from `pos` on. -/
def assembleFrom (labels : List (Nat × Nat)) : Nat → List Line → Option (List BusOp)
  | _, [] => some []
  | pos, ln :: rest =>
    match expand labels pos ln.stmt with
    | none => none
    | some ops => (assembleFrom labels (pos + stmtLength ln.stmt) rest).map fun tail => ops ++ tail

/-- The encoding of a program: its list of bus transactions, in program order (R86); `none` where a label is missing. -/
def assemble (program : List Line) : Option (List BusOp) := assembleFrom (labelTable 0 program) 0 program

/-! ### Disassembly -/

/-- A mnemonic of the opcode map (R81). -/
def mnemonic : Instr → String
  | .encrypt => "ENCRYPT"
  | .decrypt => "DECRYPT"
  | .xorInto => "XOR_INTO"
  | .xorWithInt => "XOR_WITH_INT"
  | .ctrEncode => "CTR_ENCODE"
  | .ctrDecode => "CTR_DECODE"
  | .ctrIncrement => "CTR_INCREMENT"
  | .padDerive => "PAD_DERIVE"

/-- A register's name (R20). -/
def registerText : RegName → String
  | .id => "ID"
  | .version => "VERSION"
  | .ctrl => "CTRL"
  | .cmd => "CMD"
  | .status => "STATUS"
  | .srcAddr => "SRC_ADDR"
  | .srcLen => "SRC_LEN"
  | .dstAddr => "DST_ADDR"
  | .dstLen => "DST_LEN"
  | .argLo => "ARG_LO"
  | .argHi => "ARG_HI"
  | .result0 => "RESULT0"
  | .result1 => "RESULT1"
  | .varinfo => "VARINFO"
  | .padbyte => "PADBYTE"
  | .k0byte => "K0BYTE"
  | .caps => "CAPS"

/-- One lower-case hexadecimal digit. -/
def hexDigit (d : Nat) : Char := if d < 10 then Char.ofNat (48 + d) else Char.ofNat (87 + d)

/-- The last `count` hexadecimal digits of a number, most significant first. -/
def hexDigits : Nat → Nat → List Char
  | 0, _ => []
  | count + 1, n => hexDigits count (n / 16) ++ [hexDigit (n % 16)]

/-- `0x%08x`, which R88 gives for an illegal command word. MODEL'S CHOICE (DESIGN CHOICE): the numbers of a printed
transaction, for which R86 admits hexadecimal and decimal and R88 names neither, have this form too. Log 18. -/
def hexText (w : Word) : String := "0x" ++ String.ofList (hexDigits 8 w.toNat)

/-- A command word prints as its mnemonic, or as illegal (R88). -/
def disassemble (w : Word) : String :=
  match decode w with
  | .ok i => mnemonic i
  | _ => ".illegal " ++ hexText w

/-- A register by name. MODEL'S CHOICE (DESIGN CHOICE): a reserved offset, for which R86 and R88 have no name, prints as its
number, `0x` and eight digits. Log 18. -/
def offsetText (off : Nat) : String :=
  match registerAt off with
  | none => hexText (BitVec.ofNat 32 off)
  | some r => registerText r

/-- The text of a register read into a variable, which prints as its number (R86). MODEL'S CHOICE (DESIGN CHOICE): that
number's form, and `_` for no variable. Log 18. -/
def readText (off : Nat) (target : String) : String := "rd " ++ offsetText off ++ " -> " ++ target

/-- A register access prints as the `wr` or `rd` statement of R86 (R88); the read of a `poll` is one as well, into no
variable, and byte accesses print as R86's statements for them. MODEL'S CHOICE (DESIGN CHOICE): an access
that R64 or R20 refuses, for which R86 has no statement, prints as `wr` or `rd` too, its size dropped and its offset by
`offsetText`; every number, the value of a `wr` among them, prints as `hexText` does, `0x` and eight lower-case
hexadecimal digits of its low 32 bits, but the byte of a `wrm` as `0x` and two, and the count of an `rdm` as `1`; names are
in capitals, with the spaces and signs of R86's statements. A power cycle is no bus transaction. Log 18. -/
def transactionText : BusOp → Option String
  | .regWrite off _ v => some ("wr " ++ offsetText off ++ ", " ++ hexText v)
  | .regRead off _ var => some (readText off (hexText (BitVec.ofNat 32 var)))
  | .memWrite addr v => some ("wrm " ++ hexText (BitVec.ofNat 32 addr) ++ ", 0x" ++ String.ofList (hexDigits 2 v.toNat))
  | .memRead addr var =>
    some ("rdm " ++ hexText (BitVec.ofNat 32 addr) ++ ", 1 -> " ++ hexText (BitVec.ofNat 32 var))
  | .poll off _ _ _ => some (readText off "_")
  | .powerOn => none

end Sys2Proof.Machine
end

