-- ==== Sys2Proof/Safety.lean ====
section
/-! DEFINITION. What a sound state of the machine is (the invariant that reset meets and every step keeps), and the words
the claims are stated in. -/

namespace Sys2Proof

open Sys2Proof.Machine

/-- The memory holds its canonical form, and only bytes that exist (R60). -/
def MemoryOk (s : State) : Prop := Memory.wf s.mem ∧ ∀ c ∈ s.mem, c.1 < s.build.memBytes

/-- ERRCODE and ERRCAUSE are a pair of R220's table: NONE while ERR is 0, an error's pair while it is 1 (R36, R220). -/
def ErrorPairOk (f : Flags) : Prop :=
  (f.err = false → f.errCode = 0 ∧ f.errCause = 0) ∧
    (f.err = true → ∃ e : CmdError, f.errCode = e.code ∧ f.errCause = e.cause)

/-- While a command runs, DONE and ERR are 0: acceptance cleared them and only a completion sets them (R95, R99). -/
def BusyFlagsOk (s : State) : Prop := s.phase = .run → s.flags.done = false ∧ s.flags.err = false

/-- The internal registers of R49 are zero and no keyed cipher state is left (R53); the block index is not among them. -/
def Zeroised (d : Datapath) : Prop :=
  d.key = 0 ∧ d.kacc = 0 ∧ d.hacc = 0 ∧ d.ctr = 0 ∧ d.blk = 0 ∧ d.pnum = 0 ∧ d.encryptors = []

/-- No value of an internal register survives a command: while idle they are all zero (R53). -/
def ZeroisedOk (s : State) : Prop := s.phase = .idle → Zeroised s.dp

/-- The invariant of the machine. -/
def EngineInv (s : State) : Prop := MemoryOk s ∧ ErrorPairOk s.flags ∧ BusyFlagsOk s ∧ ZeroisedOk s

/-! ### The words of the claims -/

/-- The byte at `c` is none of the `n` bytes from `a` on. -/
def Outside (a n c : Nat) : Prop := c < a ∨ a + n ≤ c

/-- The bytes `bs` stand in memory from address `a` on (R9). -/
def HoldsBytes (m : Memory) (a : Nat) (bs : List Byte) : Prop :=
  ∀ (j : Nat) (h : j < bs.length), memRead m (a + j) = some bs[j]

/-- Every byte outside the `n` bytes from `a` on reads in `t` as it did in `s`. -/
def MemorySameOutside (s t : State) (a n : Nat) : Prop := ∀ c, Outside a n c → memRead t.mem c = memRead s.mem c

/-- `t` is `s` after the error completion with this code and cause: nothing but STATUS changes and the internal registers
are zeroised (R98, R223, R224). -/
def EndsInError (s t : State) (code cause : BitVec 4) : Prop :=
  Zeroised t.dp ∧
    t = { s with
      flags := { s.flags with done := true, err := true, errCode := code, errCause := cause }
      phase := .idle
      dp := t.dp }

/-- `t` is `s` after a successful completion but for memory, RESULT0, RESULT1, XPATH and the free-value counter: DONE is
set, the phase is IDLE, the internal registers are zero, and everything else is as it was (R97). -/
def CompletesLike (s t : State) : Prop :=
  t.flags.done = true ∧ t.flags.err = s.flags.err ∧ t.flags.ovr = s.flags.ovr ∧ t.flags.errCode = s.flags.errCode ∧
    t.flags.errCause = s.flags.errCause ∧ t.phase = .idle ∧ Zeroised t.dp ∧ t.build = s.build ∧
    t.ctrl = s.ctrl ∧ t.opnd = s.opnd ∧ t.fill = s.fill ∧ t.latched = s.latched ∧ t.delay = s.delay ∧ t.tie = s.tie ∧
    t.host = s.host ∧ t.unseen = s.unseen

/-- RESULT0, RESULT1 and XPATH are as they were (R42, R35). -/
def KeepsResults (s t : State) : Prop :=
  t.result0 = s.result0 ∧ t.result1 = s.result1 ∧ t.flags.xpath = s.flags.xpath

/-- No free value is spent and no RNG answer is taken (R96, R166). -/
def KeepsDraws (s t : State) : Prop := t.fresh = s.fresh ∧ t.draws = s.draws

/-- What the reset table says of the registers (R55); memory, host and the model's counter aside. -/
def RegistersAreReset (t : State) : Prop :=
  readOffset t 0x000 = 0x414F4E54#32 ∧ readOffset t 0x004 = 0x00010000#32 ∧ readOffset t 0x008 = 0 ∧
    readOffset t 0x00C = 0 ∧ readOffset t 0x010 = 0 ∧ readOffset t 0x014 = 0 ∧ readOffset t 0x018 = 0 ∧
    readOffset t 0x01C = 0 ∧ readOffset t 0x020 = 0 ∧ readOffset t 0x024 = 0 ∧ readOffset t 0x028 = 0 ∧
    readOffset t 0x02C = 0 ∧ readOffset t 0x030 = 0 ∧ readOffset t 0x034 = varinfoWord t.build.variant0 ∧
    readOffset t 0x038 = 0 ∧ readOffset t 0x03C = 0#24 ++ t.build.k0Byte ∧ readOffset t 0x040 = capsWord t.build ∧
    t.phase = .idle ∧ Zeroised t.dp ∧ irq t = false

/-- A next state changed by `f`; a stop left as it is. -/
def mapNext (f : State → State) : Result → Result
  | .next t => .next (f t)
  | .fault e => .fault e
  | .refused r => .refused r

/-- `n` steps, stopping at the first fault or refusal. -/
def runSteps : Nat → State → Result
  | 0, s => .next s
  | n + 1, s =>
    match step s with
    | .next t => runSteps n t
    | .fault e => .fault e
    | .refused r => .refused r

/-- The opcode values of the map (R81). -/
def opcodeValues : List Nat := [0x01, 0x02, 0x10, 0x11, 0x20, 0x21, 0x22, 0x30]

/-- The error pairs a command can report (R220, R222): ILLEGAL_CMD is the decoder's and is in none. -/
def errorPairs : Instr → List (BitVec 4 × BitVec 4)
  | .padDerive => [(4, 1)]
  | .ctrEncode => [(5, 2)]
  | .ctrDecode => [(5, 1)]
  | .ctrIncrement => [(5, 2)]
  | .xorInto => [(5, 1), (5, 2), (6, 1)]
  | .xorWithInt => [(5, 1), (5, 2), (6, 1), (7, 1)]
  | .encrypt => [(4, 1), (5, 1), (5, 2), (6, 1), (7, 1), (8, 1), (2, 1), (2, 2)]
  | .decrypt => [(4, 1), (5, 1), (5, 2), (6, 1), (1, 1), (1, 2), (2, 2), (2, 1), (1, 3), (7, 1)]

/-- The bytes a successful command stores: the address it stores from and how many (R96, R130, R132, R150, R151, R180,
R200). -/
def storedBytes (i : Instr) (s : State) (t : State) : Nat × Nat :=
  match i with
  | .encrypt => ((dstRegion s).start, t.result0.toNat)
  | .decrypt => ((dstRegion s).start, t.result0.toNat)
  | .xorInto => ((xorDstWindow s).start, xorCount s)
  | .xorWithInt => ((dstRegion s).start, (srcRegion s).len)
  | .ctrEncode => ((dstRegion s).start, (dstRegion s).len)
  | .ctrDecode => (0, 0)
  | .ctrIncrement => ((dstRegion s).start, (dstRegion s).len)
  | .padDerive => (0, 0)

end Sys2Proof
end

