-- ==== Sys2Proof/Certificates/Slice0/Obligations.lean ====
section
/-! DEFINITION. The statements for the provers, in the spec's order: encoding, cycle, registers, reset, the commands'
functions, the commands, errors, frames, invariant. -/

open Sys2Proof Sys2Proof.Machine

/-! ### Encoding and the command cycle -/

/-- R63, R80-R82: the decoder gives a command exactly on that command's word, over all 2^32 words, and reads the word the
same from its bus lanes. -/
def Obligations.DecodeEncodeAgree : Prop :=
  (∀ (w : Word) (i : Instr), decode w = .ok i ↔ w = encode i) ∧
    ∀ w : Word, decodeBytes [laneOfWord w 0, laneOfWord w 1, laneOfWord w 2, laneOfWord w 3] = decode w

/-- R82, R83: every other word is refused by name, the opcode first. -/
def Obligations.IllegalWordsByName : Prop :=
  ∀ w : Word,
    (decode w = .illegalOpcode ↔ w.toNat % 256 ∉ opcodeValues) ∧
      (decode w = .reservedBits ↔ w.toNat % 256 ∈ opcodeValues ∧ w.toNat / 256 ≠ 0) ∧ decode w ≠ .notOneWord

/-- R81: command words written out bit by bit from the table. -/
def Obligations.SampleCommandWords : Prop :=
  decode 0b00000000000000000000000000000001#32 = .ok .encrypt ∧
    decode 0b00000000000000000000000000010000#32 = .ok .xorInto ∧
    decode 0b00000000000000000000000000100010#32 = .ok .ctrIncrement ∧
    decode 0b00000000000000000000000000110000#32 = .ok .padDerive ∧
    decode 0b00000000000000000000000000000000#32 = .illegalOpcode ∧
    decode 0b10000000000000000000000000110000#32 = .reservedBits

/-- R95-R97: a running command whose time is up is executed by the step. -/
def Obligations.StepRunsTheDecodedCommand : Prop :=
  ∀ (s : State) (i : Instr), s.phase = .run → s.delay = 0 → s.tie = false → decode s.latched = .ok i →
    step s = exec i s

/-- R71, R99, R231: while idle, and while a command still has time, the step is the host's next transaction; where the
completion falls in the same step, the transaction comes first. While a command runs its sequencer moves on in the same
step by a free amount, which touches the internal registers alone (log 12). -/
def Obligations.StepTakesTheHostsTurn : Prop :=
  (∀ s : State, s.phase = .idle → step s = hostTurn s) ∧
    (∀ (s : State) (d : Nat), s.phase = .run → s.delay = d + 1 →
      ∃ x : Datapath, step s = hostTurn { s with delay := d, dp := x } ∧
        (∀ i : Instr, decode s.latched = .ok i →
          x = sequencerAt attachedPorts i s (s.dp.position + Config.hiddenAdvance s.fresh s.delay)) ∧
        ((∀ i : Instr, decode s.latched ≠ .ok i) → x = s.dp)) ∧
    (∀ s u : State, s.phase = .run → s.delay = 0 → s.tie = true → hostTurn { s with tie := false } = .next u →
      (u.phase = .run → step s = engineTurn u) ∧ (u.phase = .idle → step s = .next u)) ∧
    (∀ (s : State) (op : BusOp), s.host.ops[s.host.pos]? = some op →
      hostTurn s = performOp { s with host := { s.host with pos := s.host.pos + 1 } } op) ∧
    ∀ s : State, s.host.ops[s.host.pos]? = none → hostTurn s = .next s

/-- R82, R81, R83, R95: any word is accepted, and decoded in the order of the rule; an illegal one still completes, with
its error; one word selects each command. That a completion is the step with `delay` 0 and `tie` false, and that the
latched word is decoded there, is the model's choice (log 5, log 6, log 20, DESIGN CHOICE). -/
def Obligations.CommandWordsRunOrError : Prop :=
  (∀ (s : State) (w : Word), s.phase = .idle →
    ∃ t, performOp s (.regWrite 0x00C 4 w) = .next t ∧ t.phase = .run ∧ t.latched = w) ∧
    (∀ s : State, s.phase = .run → s.delay = 0 → s.tie = false →
      (s.latched.toNat % 256 ∉ opcodeValues → ∃ t, step s = .next t ∧ EndsInError s t 3 1) ∧
        (s.latched.toNat % 256 ∈ opcodeValues → s.latched.toNat / 256 ≠ 0 →
          ∃ t, step s = .next t ∧ EndsInError s t 3 2) ∧
        ∀ i : Instr, s.latched = encode i → step s = exec i s) ∧
    ∀ (w : Word) (i : Instr), decode w = .ok i ↔ w = encode i

/-- R29, R95: CMD reads 0; a write of it while idle is accepted, with the writes of R95, and while busy it is dropped. -/
def Obligations.CmdRegister : Prop :=
  (∀ s : State, readOffset s 0x00C = 0) ∧
    (∀ (s : State) (w : Word), s.phase = .run →
      performOp s (.regWrite 0x00C 4 w) = .next { s with flags := { s.flags with ovr := true } }) ∧
    ∀ (s : State) (w : Word), s.phase = .idle →
      ∃ t, performOp s (.regWrite 0x00C 4 w) = .next t ∧ t.latched = w ∧ t.phase = .run ∧
        t.flags = { s.flags with done := false, err := false, errCode := 0, errCause := 0 } ∧ irq t = false ∧
        t.build = s.build ∧ t.ctrl = s.ctrl ∧ t.opnd = s.opnd ∧ t.fill = s.fill ∧ t.result0 = s.result0 ∧
        t.result1 = s.result1 ∧ t.mem = s.mem ∧ t.host = s.host

/-- R95, R99, R71: whatever the host does while a command runs, the command's inputs stay what they were at acceptance,
unless a reset ends the command. -/
def Obligations.RunningCommandKeepsItsInputs : Prop :=
  ∀ (s t : State) (op : BusOp), s.phase = .run → performOp s op = .next t → t.phase = .run →
    t.build = s.build ∧ t.ctrl = s.ctrl ∧ t.opnd = s.opnd ∧ t.fill = s.fill ∧ t.latched = s.latched ∧
      t.result0 = s.result0 ∧ t.result1 = s.result1 ∧ t.dp = s.dp ∧ t.draws = s.draws ∧ t.flags.xpath = s.flags.xpath ∧
      ∀ a, InRegion (runningSrc s) a ∨ InRegion (runningDst s) a → memRead t.mem a = memRead s.mem a

/-- R34: what sets OVR, what clears it, and what it does not do. The last clause is the only way to clear it by a host
transaction: a write of STATUS with bit 3, or a reset. -/
def Obligations.OverrunFlag : Prop :=
  (∀ (s : State) (off : Nat) (v : Word), s.phase = .run →
    off ∈ [0x00C, 0x014, 0x018, 0x01C, 0x020, 0x024, 0x028, 0x038] ∨ (off = 0x008 ∧ v.getLsbD 31 = false) →
      performOp s (.regWrite off 4 v) = .next { s with flags := { s.flags with ovr := true } }) ∧
    (∀ (i : Instr) (s t : State), exec i s = .next t → t.flags.ovr = s.flags.ovr) ∧
    (∀ (s : State) (w : Word), (acceptCommand w s).flags.ovr = s.flags.ovr) ∧
    (∀ s : State, irq { s with flags := { s.flags with ovr := true } } = irq s) ∧
    ∀ (s t : State) (op : BusOp), performOp s op = .next t → s.flags.ovr = true → t.flags.ovr = false →
      (∃ v, op = .regWrite 0x010 4 v ∧ v.getLsbD 3 = true) ∨ (∃ v, op = .regWrite 0x008 4 v ∧ v.getLsbD 31 = true) ∨
        op = .powerOn

/-- R100: every running command completes, or the run stops, after finitely many steps, whatever the host does. The bound
is the model's own free `delay` (log 5). -/
def Obligations.RunningCommandCompletes : Prop :=
  ∀ s : State, s.phase = .run →
    ∃ n, n ≤ s.delay + 1 ∧
      ((∃ t : State, runSteps n s = .next t ∧ t.phase = .idle) ∨ (∃ f : Fault, runSteps n s = .fault f) ∨
        ∃ r : Refusal, runSteps n s = .refused r)

/-- R231 (with R251): a completion in the same step as a host write. That it falls there is the model's free bit `tie`, and
the transaction is taken first (log 6). In the soft reset's clause a destination byte that lies in the source region too
takes a free value as well: R251's two sentences disagree for it, and that the destination's wins is the model's choice
(log 10). -/
def Obligations.SimultaneousEvents : Prop :=
  ∀ (s t : State) (v : Word), s.phase = .run → s.delay = 0 → s.tie = true → step s = .next t →
    (s.host.ops[s.host.pos]? = some (.regWrite 0x010 4 v) → t.flags.done = true ∧ t.phase = .idle) ∧
      (s.host.ops[s.host.pos]? = some (.regWrite 0x008 4 v) → v.getLsbD 31 = true →
        RegistersAreReset t ∧ (∀ a, ¬ InRegion (runningDst s) a → memRead t.mem a = memRead s.mem a) ∧
          ∀ (r : Region) (j : Nat), runningDst s = some r → j < r.len → r.start + j < s.build.memBytes →
            memRead t.mem (r.start + j) = some (Config.freeByte (s.fresh + j))) ∧
      (s.host.ops[s.host.pos]? = some (.regWrite 0x00C 4 v) →
        t.flags.ovr = true ∧ t.flags.done = true ∧ t.phase = .idle ∧ t.latched = s.latched)

/-! ### Registers -/

/-- R30: what a read of STATUS shows and what a write of it does, busy or not. -/
def Obligations.StatusRegister : Prop :=
  (∀ s : State,
    ((readOffset s 0x010).getLsbD 0 = true ↔ s.phase = .run) ∧ (readOffset s 0x010).getLsbD 1 = s.flags.done ∧
      (readOffset s 0x010).getLsbD 2 = s.flags.err ∧ (readOffset s 0x010).getLsbD 3 = s.flags.ovr ∧
      (readOffset s 0x010).getLsbD 4 = s.flags.xpath ∧ (readOffset s 0x010).extractLsb' 5 3 = 0#3 ∧
      (readOffset s 0x010).extractLsb' 8 4 = s.flags.errCode ∧
      (readOffset s 0x010).extractLsb' 12 4 = s.flags.errCause ∧ (readOffset s 0x010).extractLsb' 16 16 = 0#16) ∧
    (∀ (s : State) (v : Word),
      ∃ f : Flags, performOp s (.regWrite 0x010 4 v) = .next { s with flags := f } ∧
        f.done = (s.flags.done && !v.getLsbD 1) ∧ f.err = (s.flags.err && !v.getLsbD 2) ∧
        f.ovr = (s.flags.ovr && !v.getLsbD 3) ∧ f.xpath = s.flags.xpath ∧
        (v.getLsbD 2 = true → f.errCode = 0 ∧ f.errCause = 0) ∧
        (v.getLsbD 2 = false → f.errCode = s.flags.errCode ∧ f.errCause = s.flags.errCause)) ∧
    readOffset State.reset 0x010 = 0

/-- R24, R25, R28: CTRL's fields, written while idle, read back; the reserved bits and SRST read 0; while busy a write
changes no field; SRST is a soft reset. -/
def Obligations.CtrlRegister : Prop :=
  (∀ s : State,
    (readOffset s 0x008).extractLsb' 0 2 = s.ctrl.variant ∧ (readOffset s 0x008).getLsbD 2 = s.ctrl.xorBytewise ∧
      (readOffset s 0x008).getLsbD 3 = s.ctrl.irqEn ∧ (readOffset s 0x008).extractLsb' 4 28 = 0#28) ∧
    (∀ (s : State) (v : Word), s.phase = .idle → v.getLsbD 31 = false →
      performOp s (.regWrite 0x008 4 v) =
        .next { s with ctrl := ⟨v.extractLsb' 0 2, v.getLsbD 2, v.getLsbD 3⟩ }) ∧
    (∀ (s : State) (v : Word), s.phase = .run → v.getLsbD 31 = false →
      ∃ t, performOp s (.regWrite 0x008 4 v) = .next t ∧ t.ctrl = s.ctrl) ∧
    (∀ (s : State) (v : Word), v.getLsbD 31 = true →
      performOp s (.regWrite 0x008 4 v) = .next (softReset s) ∧ (softReset s).ctrl = Ctrl.reset) ∧
    readOffset State.reset 0x008 = 0

/-- R37-R42, R44, R45: in every state each operand, result and PADBYTE register reads its field, and K0BYTE the build's byte
(the public key is that byte k times); an operand register or PADBYTE written while idle reads back what was written (PADBYTE its FILL), and
every other register reads as before. -/
def Obligations.OperandRegistersReadBack : Prop :=
  (∀ s : State,
    readOffset s 0x014 = s.opnd.srcAddr ∧ readOffset s 0x018 = s.opnd.srcLen ∧ readOffset s 0x01C = s.opnd.dstAddr ∧
      readOffset s 0x020 = s.opnd.dstLen ∧ readOffset s 0x024 = s.opnd.argLo ∧ readOffset s 0x028 = s.opnd.argHi ∧
      readOffset s 0x02C = s.result0 ∧ readOffset s 0x030 = s.result1 ∧
      (readOffset s 0x038).extractLsb' 0 8 = s.fill ∧ (readOffset s 0x038).extractLsb' 8 24 = 0#24 ∧
      (readOffset s 0x03C).extractLsb' 0 8 = s.build.k0Byte ∧ (readOffset s 0x03C).extractLsb' 8 24 = 0#24 ∧
      ∀ v : Variant, publicKey s.build v = List.replicate v.k s.build.k0Byte) ∧
    ∀ (s : State) (off : Nat) (v : Word), s.phase = .idle →
      off ∈ [0x014, 0x018, 0x01C, 0x020, 0x024, 0x028, 0x038] →
        ∃ t, performOp s (.regWrite off 4 v) = .next t ∧
          readOffset t off = (if off = 0x038 then v &&& 0xFF#32 else v) ∧
          (∀ o, o ≠ off → readOffset t o = readOffset s o) ∧ t.mem = s.mem ∧ t.host = s.host ∧ t.phase = .idle ∧
          t.dp = s.dp ∧ t.build = s.build

/-- R21 (with R69, R71, R86, R104): reserved offsets read 0 and ignore writes, read-only registers ignore writes (CMD reads
0, R29), and a register read, by `rd` or by `poll`, changes nothing but what the host has read, where it branches and,
for STATUS, what it has observed. A read of RESULT0 or RESULT1 after a completion that the host has not observed breaks
R104's duty and is a fault; that such a read while busy is none is R99, and the record `unseen` is the model's (log 26). -/
def Obligations.ReservedAndReadOnly : Prop :=
  (∀ (s : State) (off : Nat), off % 4 = 0 → 0x044 ≤ off → off ≤ 0xFFC → readOffset s off = 0) ∧
    (∀ (s : State) (off : Nat) (v : Word), off % 4 = 0 → off ≤ 0xFFC →
      0x044 ≤ off ∨ off ∈ [0x000, 0x004, 0x02C, 0x030, 0x034, 0x03C, 0x040] →
        performOp s (.regWrite off 4 v) = .next s) ∧
    (∀ s : State, readOffset s 0x00C = 0) ∧
    (∀ (s : State) (off var target : Nat) (mask v : Word), off % 4 = 0 → off ≤ 0xFFC →
      s.phase = .run ∨ s.unseen = [] ∨ off ∉ [0x02C, 0x030] →
        let seen : State :=
          { s with unseen := if off = 0x010 ∧ (s.flags.done = true ∨ s.phase = .idle) then [] else s.unseen }
        performOp s (.regRead off 4 var) =
            .next { seen with host := { s.host with readings := s.host.readings ++ [⟨var, readOffset s off⟩] } } ∧
          performOp s (.poll off mask v target) =
            .next (if readOffset s off &&& mask = v then seen else { seen with host := { s.host with pos := target } })) ∧
    ∀ (s : State) (off var target : Nat) (mask v : Word), s.phase = .idle → s.unseen ≠ [] → off ∈ [0x02C, 0x030] →
      performOp s (.regRead off 4 var) = .fault (.unseenResult off) ∧
        performOp s (.poll off mask v target) = .fault (.unseenResult off)

/-- R22, R23: the identification registers hold their constants in every state, and no host write changes them. -/
def Obligations.IdentityRegisters : Prop :=
  ∀ s : State, readOffset s 0x000 = 0x414F4E54#32 ∧ (readOffset s 0x004).extractLsb' 16 16 = 0x0001#16 ∧
    (readOffset s 0x004).extractLsb' 0 16 = 0x0000#16 ∧
    ∀ v : Word, performOp s (.regWrite 0x000 4 v) = .next s ∧ performOp s (.regWrite 0x004 4 v) = .next s

/-- R43: VARINFO shows the selected variant; 0 where it is unsupported; its value for the default table. -/
def Obligations.VarinfoRegister : Prop :=
  (∀ (s : State) (v : Variant), selectedVariant s = some v → v.b ≤ 255 → v.k ≤ 255 →
    ((readOffset s 0x034).extractLsb' 0 8).toNat = v.b ∧ ((readOffset s 0x034).extractLsb' 8 8).toNat = v.k ∧
      ((readOffset s 0x034).extractLsb' 16 8).toNat = max v.b v.k ∧ (readOffset s 0x034).extractLsb' 24 8 = 0#8) ∧
    (∀ s : State, selectedVariant s = none → readOffset s 0x034 = 0) ∧
    ∀ s : State, s.build = Config.build → s.ctrl.variant = 0#2 → readOffset s 0x034 = 0x00101010#32

/-- R46: CAPS shows the build parameters; its value for the default ones. -/
def Obligations.CapsRegister : Prop :=
  (∀ s : State, s.build.wordBytes ≤ 255 → s.build.decodeBytes ≤ 255 →
    ((readOffset s 0x040).extractLsb' 0 8).toNat = s.build.wordBytes ∧
      (readOffset s 0x040).getLsbD 8 = s.build.unalignedOk ∧ (readOffset s 0x040).extractLsb' 9 7 = 0#7 ∧
      ((readOffset s 0x040).extractLsb' 16 8).toNat = s.build.decodeBytes ∧
      (∀ x : BitVec 2, (readOffset s 0x040).getLsbD (24 + x.toNat) = (variantAt s.build x).isSome) ∧
      (readOffset s 0x040).extractLsb' 28 4 = 0#4) ∧
    ∀ s : State, s.build = Config.build → readOffset s 0x040 = 0x07080008#32

/-- R27 (and R230): irq is IRQ_EN AND DONE; a completion, successful or not, raises it if enabled; acceptance and a W1C of
DONE lower it. -/
def Obligations.IrqFollowsDone : Prop :=
  (∀ s : State, irq s = true ↔ s.ctrl.irqEn = true ∧ s.flags.done = true) ∧
    (∀ (i : Instr) (s t : State), exec i s = .next t → irq t = s.ctrl.irqEn) ∧
    (∀ (s : State) (w : Word), irq (acceptCommand w s) = false) ∧
    ∀ (s t : State) (v : Word), performOp s (.regWrite 0x010 4 v) = .next t → v.getLsbD 1 = true → irq t = false

/-! ### Reset -/

/-- R55 (with R250, R251): the registers after either reset, and the data memory. Clauses on latched_cmd and the model's
own counters are not part of it. That no byte has a value after power-on is what R62 tells a model. -/
def Obligations.ResetTable : Prop :=
  RegistersAreReset State.reset ∧ (∀ a, memRead State.reset.mem a = none) ∧
    (∀ s : State, ∃ t, performOp s .powerOn = .next t ∧ RegistersAreReset t ∧ (∀ a, memRead t.mem a = none) ∧
      t.build = s.build) ∧
    ∀ (s : State) (v : Word), v.getLsbD 31 = true →
      ∃ t, performOp s (.regWrite 0x008 4 v) = .next t ∧ RegistersAreReset t ∧ t.build = s.build ∧
        ∀ a, ¬ InRegion (runningDst s) a → memRead t.mem a = memRead s.mem a

/-- R251: a write of CTRL with bit 31 resets every register in one step; while idle it changes only registers; where it
aborts a command, each byte of its destination region that exists takes a free value of its own, and every other byte
stays. For a destination byte that lies in the source region too R251's two sentences disagree; that the destination's
wins, and that only the bytes that exist take a value, is the model's choice (log 10). -/
def Obligations.SoftResetAbortsTheCommand : Prop :=
  (∀ (s : State) (v : Word), v.getLsbD 31 = true →
    performOp s (.regWrite 0x008 4 v) = .next (softReset s) ∧ RegistersAreReset (softReset s)) ∧
    (∀ s : State, s.phase = .idle → (softReset s).mem = s.mem) ∧
    (∀ (s : State) (a : Nat), ¬ InRegion (runningDst s) a → memRead (softReset s).mem a = memRead s.mem a) ∧
    ∀ (s : State) (r : Region) (j : Nat), runningDst s = some r → j < r.len → r.start + j < s.build.memBytes →
      memRead (softReset s).mem (r.start + j) = some (Config.freeByte (s.fresh + j)) ∧ s.fresh + j < (softReset s).fresh

/-- R53: every completion and every reset zeroises the internal registers and discards the keyed cipher state. -/
def Obligations.CompletionAndResetZeroise : Prop :=
  (∀ (i : Instr) (s t : State), exec i s = .next t → Zeroised t.dp) ∧
    (∀ s t : State, engineTurn s = .next t → Zeroised t.dp) ∧
    ∀ s : State, Zeroised (softReset s).dp ∧ Zeroised (powerOnReset s).dp

/-! ### The functions -/

/-- R111: the consequences of the padding rule. -/
def Obligations.PaddingLaws : Prop :=
  ∀ len b : Nat, 1 ≤ b →
    1 ≤ (padDerive len b).1 ∧ (padDerive len b).1 ≤ b ∧ 1 ≤ (padDerive len b).2 ∧
      (padDerive len b).2 * b = len + (padDerive len b).1 ∧ len < (padDerive len b).2 * b ∧
      (b ∣ len → (padDerive len b).1 = b ∧ (padDerive len b).2 = len / b + 1)

/-- R120: byte `j` of `encode(i, n)`, most significant first, and the length. -/
def Obligations.EncodeGivesTheBigEndianBytes : Prop :=
  ∀ i n : Nat, (ctrEncode i n).length = n ∧
    ∀ (j : Nat) (h : j < (ctrEncode i n).length), ((ctrEncode i n)[j]).toNat = i / 256 ^ (n - 1 - j) % 256

/-- R121: the value of `decode`, byte by byte from the last: only the last `width` bytes count. -/
def Obligations.DecodeGivesTheLowBytes : Prop :=
  ∀ (width : Nat) (a : List Byte),
    ctrDecode width a = (List.range (min a.length width)).foldr
        (fun j acc => (a.reverse.getD j 0).toNat * 256 ^ j + acc) 0 ∧
      ctrDecode width a < 2 ^ (8 * width) ∧ ctrDecode width [] = 0

/-- R122: the successor: the trailing bytes 0xFF become 0x00 and the byte before them is increased; all 0xFF wrap. -/
def Obligations.IncrementCarries : Prop :=
  (∀ (p : List Byte) (x : Byte) (n : Nat), x ≠ 0xFF#8 →
    ctrIncrement (p ++ [x] ++ List.replicate n 0xFF#8) = p ++ [x + 1] ++ List.replicate n 0x00#8) ∧
    ∀ n : Nat, ctrIncrement (List.replicate n 0xFF#8) = List.replicate n 0x00#8

/-- R123: the laws of the counter codec. -/
def Obligations.CounterCodecLaws : Prop :=
  (∀ i n : Nat, 1 ≤ n → ctrIncrement (ctrEncode i n) = ctrEncode (i + 1) n) ∧
    (∀ m n : Nat, ctrIncrement^[m] (zeros n) = ctrEncode m n) ∧
    ∀ i n width : Nat, ctrDecode width (ctrEncode i n) = i % 2 ^ (8 * min n width)

/-- R140: the bytes of `xorInto`. -/
def Obligations.XorIntoIsTrailingAligned : Prop :=
  ∀ dst src : List Byte,
    (xorIntoBytes dst src).length = dst.length ∧ (dst.length = src.length → xorIntoBytes dst src = xorBytes dst src) ∧
      (∀ (j : Nat) (h : j < dst.length), j < dst.length - min dst.length src.length →
        (xorIntoBytes dst src)[j]? = some dst[j]) ∧
      ∀ (j : Nat) (hd : dst.length - min dst.length src.length + j < dst.length)
        (hs : src.length - min dst.length src.length + j < src.length),
        (xorIntoBytes dst src)[dst.length - min dst.length src.length + j]? =
          some (dst[dst.length - min dst.length src.length + j] ^^^ src[src.length - min dst.length src.length + j])

/-- R142: `xorWithInt` is the XOR with `encode`. -/
def Obligations.XorWithIntIsXorOfEncode : Prop :=
  (∀ (src : List Byte) (i : Nat), xorWithIntBytes src i = xorBytes src (ctrEncode i src.length)) ∧
    (∀ src : List Byte, xorWithIntBytes src 0 = src) ∧
    ∀ (p : List Byte) (x : Byte) (i : Nat), i < 256 →
      xorWithIntBytes (p ++ [x]) i = p ++ [x ^^^ BitVec.ofNat 8 i]

/-- R143: the laws of the XOR functions. -/
def Obligations.XorLaws : Prop :=
  (∀ d s : List Byte, xorIntoBytes (xorIntoBytes d s) s = d) ∧
    (∀ d s : List Byte, (xorIntoBytes d s).take (d.length - min d.length s.length) =
      d.take (d.length - min d.length s.length)) ∧
    (∀ d : List Byte, xorIntoBytes d [] = d) ∧
    ∀ (s : List Byte) (i : Nat), xorWithIntBytes (xorWithIntBytes s i) i = s

/-- R147 (with R144, R145): on windows of equal length the word path and the byte path give the same bytes, for every word
size, and so the unit computes `xorInto`. -/
def Obligations.XorPathsAgree : Prop :=
  ∀ (useWords : Bool) (width : Nat) (dst src : List Byte), dst.length = src.length →
    wordPath width dst src = bytePath dst src ∧ xorUnit useWords width dst src = xorIntoBytes dst src

/-- R181, R182, R184: the flat buffer of ENCRYPT, for any functions `enc` (E under the key) and `hash` (E under K0) that
give blocks: its length, each masked block, the marker block, and the last segment as the trailing-aligned key XOR the
hash-chain values; where k > b its first k - b bytes are the key's (R180). -/
def Obligations.EncryptLayout : Prop :=
  ∀ (enc hash : List Byte → List Byte) (v : Variant) (key plain : List Byte) (fill : Byte),
    1 ≤ v.b → (∀ x, (enc x).length = v.b) → (∀ x, (hash x).length = v.b) → key.length = v.k →
      let out := encryptBuffer enc hash v key fill plain
      let pNum := v.b - plain.length % v.b
      let blocks := plain.length / v.b + 1
      let block := fun i : Nat => (out.drop ((i - 1) * v.b)).take v.b
      out.length = (blocks + 1) * v.b + max v.b v.k ∧
        (∀ i, 1 ≤ i → i ≤ blocks →
          block i = xorBytes (enc (ctrEncode i v.b))
            (((plain ++ List.replicate pNum fill).drop ((i - 1) * v.b)).take v.b)) ∧
        block (blocks + 1) = xorBytes (enc (ctrEncode (blocks + 1) v.b)) (ctrEncode pNum v.b) ∧
        out.drop ((blocks + 1) * v.b) =
          xorIntoBytes (List.replicate (max v.b v.k - v.k) 0 ++ key)
            ((List.range (blocks + 1)).foldl
              (fun acc i => xorBytes acc (hash (xorBytes (block (i + 1)) (ctrEncode (i + 1) v.b))))
              (List.replicate v.b 0)) ∧
        (out.drop ((blocks + 1) * v.b)).take (v.k - v.b) = key.take (v.k - v.b)

/-! ### The commands -/

/-- R112: PAD_DERIVE. -/
def Obligations.PadDeriveCommand : Prop :=
  encode .padDerive = 0x00000030#32 ∧
  (∀ (s : State) (v : Variant), selectedVariant s = some v →
    ∃ t, exec .padDerive s = .next t ∧ CompletesLike s t ∧
      t.result0 = BitVec.ofNat 32 (v.b - s.opnd.srcLen.toNat % v.b) ∧
      t.result1 = BitVec.ofNat 32 (s.opnd.srcLen.toNat / v.b + 1) ∧ t.flags.xpath = s.flags.xpath ∧ t.mem = s.mem ∧
      KeepsDraws s t) ∧
    ∀ s : State, selectedVariant s = none → ∃ t, exec .padDerive s = .next t ∧ EndsInError s t 4 1

/-- R130 (with R120): CTR_ENCODE. -/
def Obligations.CtrEncodeCommand : Prop :=
  encode .ctrEncode = 0x00000020#32 ∧
  (∀ s : State, (dstRegion s).Valid s.build.memBytes →
    ∃ t, exec .ctrEncode s = .next t ∧ CompletesLike s t ∧ KeepsResults s t ∧ KeepsDraws s t ∧
      (∀ j, j < (dstRegion s).len →
        memRead t.mem ((dstRegion s).start + j) =
          some (BitVec.ofNat 8 (arg64 s / 256 ^ ((dstRegion s).len - 1 - j)))) ∧
      MemorySameOutside s t (dstRegion s).start (dstRegion s).len) ∧
    ∀ s : State, ¬ (dstRegion s).Valid s.build.memBytes → ∃ t, exec .ctrEncode s = .next t ∧ EndsInError s t 5 2

/-- R131 (with R121): CTR_DECODE. -/
def Obligations.CtrDecodeCommand : Prop :=
  encode .ctrDecode = 0x00000021#32 ∧
  (∀ (s : State) (a : List Byte), (srcRegion s).Valid s.build.memBytes → a.length = (srcRegion s).len →
    HoldsBytes s.mem (srcRegion s).start a →
      ∃ t, exec .ctrDecode s = .next t ∧ CompletesLike s t ∧ t.flags.xpath = s.flags.xpath ∧ t.mem = s.mem ∧
        KeepsDraws s t ∧ t.result0.toNat = ctrDecode s.build.decodeBytes a % 2 ^ 32 ∧
        t.result1.toNat = ctrDecode s.build.decodeBytes a / 2 ^ 32 % 2 ^ 32) ∧
    ∀ s : State, ¬ (srcRegion s).Valid s.build.memBytes → ∃ t, exec .ctrDecode s = .next t ∧ EndsInError s t 5 1

/-- R132 (with R122): CTR_INCREMENT. -/
def Obligations.CtrIncrementCommand : Prop :=
  encode .ctrIncrement = 0x00000022#32 ∧
  (∀ (s : State) (a : List Byte), (dstRegion s).Valid s.build.memBytes → a.length = (dstRegion s).len →
    HoldsBytes s.mem (dstRegion s).start a →
      ∃ t, exec .ctrIncrement s = .next t ∧ CompletesLike s t ∧ KeepsResults s t ∧ KeepsDraws s t ∧
        HoldsBytes t.mem (dstRegion s).start (ctrIncrement a) ∧
        MemorySameOutside s t (dstRegion s).start (dstRegion s).len) ∧
    ∀ s : State, ¬ (dstRegion s).Valid s.build.memBytes → ∃ t, exec .ctrIncrement s = .next t ∧ EndsInError s t 5 2

/-- R150, R146: XOR_INTO, with the path bit. `d` and `c` are the bytes of the destination and the source window. That it
completes with only these bytes written is the model's reading (log 11, DEDUCED): R150's pseudocode loads both buffers
whole, while its corner case says that the bytes outside the windows are neither read nor written. -/
def Obligations.XorIntoCommand : Prop :=
  encode .xorInto = 0x00000010#32 ∧
  (∀ (s : State) (d c : List Byte), (srcRegion s).Valid s.build.memBytes → (dstRegion s).Valid s.build.memBytes →
    ¬ ((xorSrcWindow s).Overlaps (xorDstWindow s) ∧ (xorSrcWindow s).start ≠ (xorDstWindow s).start) →
    d.length = xorCount s → c.length = xorCount s → HoldsBytes s.mem (xorDstWindow s).start d →
    HoldsBytes s.mem (xorSrcWindow s).start c →
      ∃ t, exec .xorInto s = .next t ∧ CompletesLike s t ∧ t.result0 = s.result0 ∧ t.result1 = s.result1 ∧
        KeepsDraws s t ∧ HoldsBytes t.mem (xorDstWindow s).start (xorIntoBytes d c) ∧
        MemorySameOutside s t (xorDstWindow s).start (xorCount s) ∧
        (t.flags.xpath = true ↔
          s.ctrl.xorBytewise = false ∧ s.build.wordBytes ≤ xorCount s ∧
            (s.build.unalignedOk = true ∨
              ((xorDstWindow s).start % s.build.wordBytes = 0 ∧ (xorSrcWindow s).start % s.build.wordBytes = 0)))) ∧
    (∀ s : State, ¬ (srcRegion s).Valid s.build.memBytes → ∃ t, exec .xorInto s = .next t ∧ EndsInError s t 5 1) ∧
    (∀ s : State, (srcRegion s).Valid s.build.memBytes → ¬ (dstRegion s).Valid s.build.memBytes →
      ∃ t, exec .xorInto s = .next t ∧ EndsInError s t 5 2) ∧
    ∀ s : State, (srcRegion s).Valid s.build.memBytes → (dstRegion s).Valid s.build.memBytes →
      (xorSrcWindow s).Overlaps (xorDstWindow s) → (xorSrcWindow s).start ≠ (xorDstWindow s).start →
        ∃ t, exec .xorInto s = .next t ∧ EndsInError s t 6 1

/-- R151: XOR_WITH_INT. That it completes when SRC_ADDR = DST_ADDR whatever DST_LEN is, is the model's reading of R151's
pseudocode beside R67's 'same start and same length' (log 25, DEDUCED). -/
def Obligations.XorWithIntCommand : Prop :=
  encode .xorWithInt = 0x00000011#32 ∧
  (∀ (s : State) (c : List Byte), (srcRegion s).Valid s.build.memBytes → (dstRegion s).Valid s.build.memBytes →
    ¬ ((srcRegion s).Overlaps (dstRegion s) ∧ (srcRegion s).start ≠ (dstRegion s).start) →
    (srcRegion s).len ≤ (dstRegion s).len → c.length = (srcRegion s).len → HoldsBytes s.mem (srcRegion s).start c →
      ∃ t, exec .xorWithInt s = .next t ∧ CompletesLike s t ∧ KeepsResults s t ∧ KeepsDraws s t ∧
        HoldsBytes t.mem (dstRegion s).start (xorWithIntBytes c (arg64 s)) ∧
        MemorySameOutside s t (dstRegion s).start (srcRegion s).len) ∧
    (∀ s : State, ¬ (srcRegion s).Valid s.build.memBytes → ∃ t, exec .xorWithInt s = .next t ∧ EndsInError s t 5 1) ∧
    (∀ s : State, (srcRegion s).Valid s.build.memBytes → ¬ (dstRegion s).Valid s.build.memBytes →
      ∃ t, exec .xorWithInt s = .next t ∧ EndsInError s t 5 2) ∧
    (∀ s : State, (srcRegion s).Valid s.build.memBytes → (dstRegion s).Valid s.build.memBytes →
      (srcRegion s).Overlaps (dstRegion s) → (srcRegion s).start ≠ (dstRegion s).start →
        ∃ t, exec .xorWithInt s = .next t ∧ EndsInError s t 6 1) ∧
    ∀ s : State, (srcRegion s).Valid s.build.memBytes → (dstRegion s).Valid s.build.memBytes →
      ¬ ((srcRegion s).Overlaps (dstRegion s) ∧ (srcRegion s).start ≠ (dstRegion s).start) →
      (dstRegion s).len < (srcRegion s).len → ∃ t, exec .xorWithInt s = .next t ∧ EndsInError s t 7 1

/-- R180: ENCRYPT from the draw on, for every answer of the RNG and the cipher port, which are free: with a key that the
cipher accepts, and K0 accepted, the buffer of `Obligations.EncryptLayout` is written and the results name its length and
segments; otherwise the errors of the rule, in order. -/
def Obligations.EncryptCommand : Prop :=
  ∀ (s : State) (v : Variant) (plain : List Byte), selectedVariant s = some v →
    (srcRegion s).Valid s.build.memBytes → (dstRegion s).Valid s.build.memBytes →
    ¬ (srcRegion s).Overlaps (dstRegion s) →
    (plain.length / v.b + 2) * v.b + max v.b v.k ≤ (dstRegion s).len → plain.length = (srcRegion s).len →
    HoldsBytes s.mem (srcRegion s).start plain →
      ∃ t, exec .encrypt s = .next t ∧
        match Config.rngDraw s.draws v.k with
        | none => EndsInError (spendDraws 1 s) t 8 1
        | some key =>
          if Config.cipherAccepts s.ctrl.variant key.toList = false then EndsInError (spendDraws 1 s) t 2 1
          else if Config.cipherAccepts s.ctrl.variant (List.replicate v.k s.build.k0Byte) = false then
            EndsInError (spendDraws 1 s) t 2 2
          else
            CompletesLike s t ∧ t.flags.xpath = s.flags.xpath ∧ t.fresh = s.fresh ∧ t.draws = s.draws + 1 ∧
              t.result0.toNat = (plain.length / v.b + 2) * v.b + max v.b v.k ∧
              t.result1 = BitVec.ofNat 32 (plain.length / v.b + 3) ∧
              HoldsBytes t.mem (dstRegion s).start
                (encryptBuffer (fun x => (Config.cipher v.b s.ctrl.variant key.toList x).toList)
                  (fun x => (Config.cipher v.b s.ctrl.variant (List.replicate v.k s.build.k0Byte) x).toList) v key.toList
                  s.fill plain) ∧
              MemorySameOutside s t (dstRegion s).start ((plain.length / v.b + 2) * v.b + max v.b v.k)

/-- R180, R222: an ENCRYPT that fails a check before the draw ends with that check's error, in the rule's order, and takes
no draw. -/
def Obligations.EncryptChecksBeforeTheDraw : Prop :=
  ∀ s : State,
    (selectedVariant s = none → ∃ t, exec .encrypt s = .next t ∧ EndsInError s t 4 1) ∧
      ∀ v : Variant, selectedVariant s = some v →
        (¬ (srcRegion s).Valid s.build.memBytes → ∃ t, exec .encrypt s = .next t ∧ EndsInError s t 5 1) ∧
          ((srcRegion s).Valid s.build.memBytes → ¬ (dstRegion s).Valid s.build.memBytes →
            ∃ t, exec .encrypt s = .next t ∧ EndsInError s t 5 2) ∧
          ((srcRegion s).Valid s.build.memBytes → (dstRegion s).Valid s.build.memBytes →
            (srcRegion s).Overlaps (dstRegion s) → ∃ t, exec .encrypt s = .next t ∧ EndsInError s t 6 1) ∧
          ((srcRegion s).Valid s.build.memBytes → (dstRegion s).Valid s.build.memBytes →
            ¬ (srcRegion s).Overlaps (dstRegion s) →
            (dstRegion s).len < ((srcRegion s).len / v.b + 2) * v.b + max v.b v.k →
              ∃ t, exec .encrypt s = .next t ∧ EndsInError s t 7 1)

/-- R200, R202, R203, R206: DECRYPT of any buffer of a right length, whoever wrote it, for every answer of the cipher port,
which is free. H, the recovered key, the padding count and each plaintext byte are the rules' own expressions: `seg i` is
segment i, `kacc` the last segment with H XORed in, `j / b + 1` the block of plaintext byte j. `s.fill` appears nowhere:
PADBYTE is not read. -/
def Obligations.DecryptCommand : Prop :=
  ∀ (s : State) (v : Variant) (buffer : List Byte), selectedVariant s = some v →
    (srcRegion s).Valid s.build.memBytes → (dstRegion s).Valid s.build.memBytes →
    ¬ (srcRegion s).Overlaps (dstRegion s) → v.b + max v.b v.k ≤ buffer.length →
    (buffer.length - max v.b v.k) % v.b = 0 → buffer.length = (srcRegion s).len →
    HoldsBytes s.mem (srcRegion s).start buffer →
      let c := (buffer.length - max v.b v.k) / v.b
      let seg := fun i : Nat => (buffer.drop ((i - 1) * v.b)).take v.b
      let k0 := List.replicate v.k s.build.k0Byte
      let h := (List.range c).foldl
        (fun acc i => xorBytes acc
          (Config.cipher v.b s.ctrl.variant k0 (xorBytes (seg (i + 1)) (ctrEncode (i + 1) v.b))).toList)
        (List.replicate v.b 0)
      let kacc := xorIntoBytes (buffer.drop (c * v.b)) h
      let key := kacc.drop (max v.b v.k - v.k)
      let mask := fun i : Nat => (Config.cipher v.b s.ctrl.variant key (ctrEncode i v.b)).toList
      let pNum := ctrDecode s.build.decodeBytes (xorBytes (seg c) (mask c))
      let len := (c - 1) * v.b - pNum
      ∃ t, exec .decrypt s = .next t ∧
        if Config.cipherAccepts s.ctrl.variant k0 = false then EndsInError s t 2 2
        else if Config.cipherAccepts s.ctrl.variant key = false then EndsInError s t 2 1
        else if pNum < 1 ∨ v.b < pNum ∨ c < 2 then EndsInError s t 1 3
        else if (dstRegion s).len < len then EndsInError s t 7 1
        else
          CompletesLike s t ∧ t.flags.xpath = s.flags.xpath ∧ KeepsDraws s t ∧ t.result0.toNat = len ∧
            t.result1 = BitVec.ofNat 32 pNum ∧
            (∀ j, j < len →
              memRead t.mem ((dstRegion s).start + j) = (xorBytes (seg (j / v.b + 1)) (mask (j / v.b + 1)))[j % v.b]?) ∧
            MemorySameOutside s t (dstRegion s).start len

/-- R200, R201, R222: a DECRYPT that fails a check before its read ends with that check's error, in the rule's order. -/
def Obligations.DecryptChecksBeforeTheRead : Prop :=
  ∀ s : State,
    (selectedVariant s = none → ∃ t, exec .decrypt s = .next t ∧ EndsInError s t 4 1) ∧
      ∀ v : Variant, selectedVariant s = some v →
        (¬ (srcRegion s).Valid s.build.memBytes → ∃ t, exec .decrypt s = .next t ∧ EndsInError s t 5 1) ∧
          ((srcRegion s).Valid s.build.memBytes →
            (¬ (dstRegion s).Valid s.build.memBytes → ∃ t, exec .decrypt s = .next t ∧ EndsInError s t 5 2) ∧
              ((dstRegion s).Valid s.build.memBytes →
                ((srcRegion s).Overlaps (dstRegion s) → ∃ t, exec .decrypt s = .next t ∧ EndsInError s t 6 1) ∧
                  (¬ (srcRegion s).Overlaps (dstRegion s) →
                    ((srcRegion s).len < v.b + max v.b v.k →
                      ∃ t, exec .decrypt s = .next t ∧ EndsInError s t 1 1) ∧
                      (v.b + max v.b v.k ≤ (srcRegion s).len → ((srcRegion s).len - max v.b v.k) % v.b ≠ 0 →
                        ∃ t, exec .decrypt s = .next t ∧ EndsInError s t 1 2))))

/-- R203, R200: a buffer of exactly two segments never decrypts, whatever the cipher answers. -/
def Obligations.TwoSegmentsNeverDecrypt : Prop :=
  ∀ (s : State) (v : Variant) (buffer : List Byte), selectedVariant s = some v → 1 ≤ v.b →
    (srcRegion s).Valid s.build.memBytes → (dstRegion s).Valid s.build.memBytes →
    ¬ (srcRegion s).Overlaps (dstRegion s) → buffer.length = v.b + max v.b v.k →
    buffer.length = (srcRegion s).len → HoldsBytes s.mem (srcRegion s).start buffer →
      ∃ t, exec .decrypt s = .next t ∧ (EndsInError s t 2 2 ∨ EndsInError s t 2 1 ∨ EndsInError s t 1 3)

/-- R205: the round trip, for every pair of ports, build, variant, plaintext, filler and accepted key: ENCRYPT completes
with a state `t`, and so does a DECRYPT by any engine `u` with the same build and variant that holds the N bytes ENCRYPT
wrote. The engine's own ports are one such pair. -/
def Obligations.EncryptThenDecryptGivesThePlaintext : Prop :=
  (∀ s : State, exec .encrypt s = execEncryptWith attachedPorts s ∧ exec .decrypt s = execDecryptWith attachedPorts s) ∧
    ∀ (p : Ports) (s : State) (v : Variant) (key : Vector Byte v.k) (plain : List Byte),
      s.build.wellFormed = true → selectedVariant s = some v → (srcRegion s).Valid s.build.memBytes →
      (dstRegion s).Valid s.build.memBytes → ¬ (srcRegion s).Overlaps (dstRegion s) →
      (plain.length / v.b + 2) * v.b + max v.b v.k ≤ (dstRegion s).len → plain.length = (srcRegion s).len →
      HoldsBytes s.mem (srcRegion s).start plain → p.draw s.draws v.k = some key →
      p.accepts s.ctrl.variant key.toList = true →
      p.accepts s.ctrl.variant (List.replicate v.k s.build.k0Byte) = true →
        ∃ t, execEncryptWith p s = .next t ∧ CompletesLike s t ∧
          t.result0.toNat = (plain.length / v.b + 2) * v.b + max v.b v.k ∧
          ∀ u : State, u.build = s.build → u.ctrl.variant = s.ctrl.variant → u.opnd.srcAddr = s.opnd.dstAddr →
            u.opnd.srcLen = t.result0 → (∀ a, (srcRegion u).Has a → memRead u.mem a = memRead t.mem a) →
            (dstRegion u).Valid u.build.memBytes → ¬ (srcRegion u).Overlaps (dstRegion u) →
            plain.length ≤ (dstRegion u).len →
              ∃ w, execDecryptWith p u = .next w ∧ CompletesLike u w ∧ HoldsBytes w.mem (dstRegion u).start plain ∧
                w.result0.toNat = plain.length ∧ w.result1.toNat = v.b - plain.length % v.b

/-! ### Errors, stops and frames -/

/-- R62, R227: a command never refuses, and the one thing that stops it is a byte it reads that no agent has written. -/
def Obligations.CommandsStopOnlyOnUnwrittenBytes : Prop :=
  ∀ (i : Instr) (s : State),
    (∃ t, exec i s = .next t) ∨
      ∃ a, exec i s = .fault (.uninitRead a) ∧ memRead s.mem a = none ∧
        (InRegion (commandSrc i s) a ∨ InRegion (commandDst i s) a)

/-- R62: the counter commands stop on any unwritten byte of their buffer. -/
def Obligations.CounterCommandsStopOnUnwrittenBytes : Prop :=
  (∀ (s : State) (a : Nat), (srcRegion s).Valid s.build.memBytes → (srcRegion s).Has a → memRead s.mem a = none →
    ∃ e, exec .ctrDecode s = .fault (.uninitRead e)) ∧
    ∀ (s : State) (a : Nat), (dstRegion s).Valid s.build.memBytes → (dstRegion s).Has a → memRead s.mem a = none →
      ∃ e, exec .ctrIncrement s = .fault (.uninitRead e)

/-- R70 and R62: the host's accesses to the data memory while a command runs. A byte that is being written (R70) or that no
agent has written (R62) reads as any value; its form, a free byte taken from the model's own counter `fresh`, is the
model's choice (log 8, DESIGN CHOICE). That HOST_RACE ends the run is the model's choice too (log 9, DESIGN CHOICE): R70
has a model record the fault and gives the command's outputs no meaning. -/
def Obligations.HostMemoryAccessWhileBusy : Prop :=
  (∀ (s : State) (a var : Nat) (x : Byte), s.phase = .run → a < s.build.memBytes → ¬ InRegion (runningDst s) a →
    memRead s.mem a = some x → performOp s (.memRead a var) = .next (noteReading s var (0#24 ++ x))) ∧
    (∀ (s : State) (a var : Nat), s.phase = .run → a < s.build.memBytes →
      InRegion (runningDst s) a ∨ memRead s.mem a = none →
        performOp s (.memRead a var) =
          .next { noteReading s var (0#24 ++ Config.freeByte s.fresh) with fresh := s.fresh + 1 }) ∧
    (∀ (s : State) (a : Nat) (x : Byte), s.phase = .run → a < s.build.memBytes →
      InRegion (runningSrc s) a ∨ InRegion (runningDst s) a → performOp s (.memWrite a x) = .fault (.hostRace a)) ∧
    ∀ (s : State) (a : Nat) (x : Byte), s.phase = .run → a < s.build.memBytes → ¬ InRegion (runningSrc s) a →
      ¬ InRegion (runningDst s) a →
        ∃ t, performOp s (.memWrite a x) = .next t ∧ memRead t.mem a = some x ∧ MemorySameOutside s t a 1 ∧
          t = { s with mem := t.mem }

/-- R62, R104: the host's accesses to the data memory while no command runs: a write of an existing byte is performed and
changes that byte alone, a read gives the byte, or a free value where nothing has been written. A read inside the
destination region of a command whose completion the host has not observed breaks R104's duty and is a fault. Which
commands those are is the model's record `unseen` (log 26): an acceptance adds the command's region, a reset leaves none,
and a read of STATUS that shows DONE or no BUSY leaves none (Obligations.ReservedAndReadOnly). -/
def Obligations.HostMemoryAccessWhileIdle : Prop :=
  (∀ (s : State) (a : Nat) (x : Byte), s.phase = .idle → a < s.build.memBytes →
    ∃ t, performOp s (.memWrite a x) = .next t ∧ memRead t.mem a = some x ∧ MemorySameOutside s t a 1 ∧
      t = { s with mem := t.mem }) ∧
    (∀ (s : State) (a var : Nat) (x : Byte), s.phase = .idle → a < s.build.memBytes → (∀ r ∈ s.unseen, ¬ InRegion r a) →
      memRead s.mem a = some x → performOp s (.memRead a var) = .next (noteReading s var (0#24 ++ x))) ∧
    (∀ (s : State) (a var : Nat), s.phase = .idle → a < s.build.memBytes → (∀ r ∈ s.unseen, ¬ InRegion r a) →
      memRead s.mem a = none →
        performOp s (.memRead a var) =
          .next { noteReading s var (0#24 ++ Config.freeByte s.fresh) with fresh := s.fresh + 1 }) ∧
    (∀ (s : State) (a var : Nat) (r : Option Region), s.phase = .idle → a < s.build.memBytes → r ∈ s.unseen →
      InRegion r a → performOp s (.memRead a var) = .fault (.unseenByte a)) ∧
    (∀ (s : State) (w : Word), s.phase = .idle →
      ∃ t, performOp s (.regWrite 0x00C 4 w) = .next t ∧ t.unseen = runningDst t :: s.unseen) ∧
    ∀ s : State, (softReset s).unseen = [] ∧ (powerOnReset s).unseen = [] ∧ State.reset.unseen = []

/-- R64: a register access that is not an aligned 32-bit access is refused; the read of a `poll` is 32 bits wide. -/
def Obligations.BadRegisterAccessesAreRefused : Prop :=
  (∀ (s : State) (off size var : Nat) (v : Word), ¬ (size = 4 ∧ off % 4 = 0) →
    performOp s (.regWrite off size v) = .refused (.badRegisterAccess off size) ∧
      performOp s (.regRead off size var) = .refused (.badRegisterAccess off size)) ∧
    ∀ (s : State) (off target : Nat) (mask v : Word), off % 4 ≠ 0 →
      performOp s (.poll off mask v target) = .refused (.badRegisterAccess off 4)

/-- R220, R221, R222: which error pairs each command can report. -/
def Obligations.ErrorPairsOfEachCommand : Prop :=
  ∀ (i : Instr) (s t : State), exec i s = .next t → s.flags.err = false → t.flags.err = true →
    (t.flags.errCode, t.flags.errCause) ∈ errorPairs i

/-- R98, R101, R223, R224: a command that ends in an error changes nothing but STATUS and the internal registers, and for
ENCRYPT the count of RNG answers, the model's own field (log 3, DESIGN CHOICE). -/
def Obligations.ErrorsArePrecise : Prop :=
  ∀ (i : Instr) (s t : State), exec i s = .next t → s.flags.err = false → t.flags.err = true →
    ∃ code cause n, EndsInError (spendDraws n s) t code cause ∧ n ≤ 1 ∧ (i ≠ .encrypt → n = 0)

/-- R48, R97, R42, R35: the register frame of every command, whether it succeeds or ends in an error. -/
def Obligations.RegisterFrameOfEveryCommand : Prop :=
  ∀ (i : Instr) (s t : State), exec i s = .next t →
    t.build = s.build ∧ t.ctrl = s.ctrl ∧ t.opnd = s.opnd ∧ t.fill = s.fill ∧ t.latched = s.latched ∧
      t.host = s.host ∧ t.delay = s.delay ∧ t.tie = s.tie ∧ t.flags.ovr = s.flags.ovr ∧ t.flags.done = true ∧
      t.phase = .idle ∧ (i ≠ .xorInto → t.flags.xpath = s.flags.xpath) ∧ t.unseen = s.unseen ∧ t.fresh = s.fresh ∧
      (i ≠ .encrypt → t.draws = s.draws) ∧
      (i ∈ [.xorInto, .xorWithInt, .ctrEncode, .ctrIncrement] → t.result0 = s.result0 ∧ t.result1 = s.result1)

/-- R96, R101: the memory frame: PAD_DERIVE and CTR_DECODE change no byte, and a command that stores changes only the
bytes it stores, which lie in its destination region; one that ends in an error changes none. -/
def Obligations.MemoryFrameOfEveryCommand : Prop :=
  (∀ (i : Instr) (s t : State), i ∈ [.padDerive, .ctrDecode] → exec i s = .next t → t.mem = s.mem) ∧
    (∀ (i : Instr) (s t : State), exec i s = .next t → s.flags.err = false → t.flags.err = false →
      MemorySameOutside s t (storedBytes i s t).1 (storedBytes i s t).2) ∧
    (∀ (i : Instr) (s t : State), exec i s = .next t → s.flags.err = false → t.flags.err = true → t.mem = s.mem) ∧
    ∀ (i : Instr) (s t : State), exec i s = .next t →
      ∀ a, ¬ InRegion (commandDst i s) a → memRead t.mem a = memRead s.mem a

/-- R84: the registers a command ignores do not matter: changed beforehand, they change nothing else. Both runs have the
same counter `draws`, so for ENCRYPT the RNG answer is held equal: that is the comparison's premise, not the hardware's
promise (log 3). -/
def Obligations.IgnoredRegistersDoNotMatter : Prop :=
  (∀ (i : Instr) (s : State) (x : BitVec 2), i ∉ [.encrypt, .decrypt, .padDerive] →
    exec i { s with ctrl := { s.ctrl with variant := x } } =
      mapNext (fun t => { t with ctrl := { t.ctrl with variant := x } }) (exec i s)) ∧
    (∀ (i : Instr) (s : State) (x : Byte), i ≠ .encrypt →
      exec i { s with fill := x } = mapNext (fun t => { t with fill := x }) (exec i s)) ∧
    (∀ (i : Instr) (s : State) (x : Bool), i ≠ .xorInto →
      exec i { s with ctrl := { s.ctrl with xorBytewise := x } } =
        mapNext (fun t => { t with ctrl := { t.ctrl with xorBytewise := x } }) (exec i s)) ∧
    (∀ (i : Instr) (s : State) (x y : Word), i ∉ [.ctrEncode, .xorWithInt] →
      exec i { s with opnd := { s.opnd with argLo := x, argHi := y } } =
        mapNext (fun t => { t with opnd := { t.opnd with argLo := x, argHi := y } }) (exec i s)) ∧
    (∀ (i : Instr) (s : State) (x : Word), i ∈ [.padDerive, .ctrEncode, .ctrIncrement] →
      exec i { s with opnd := { s.opnd with srcAddr := x } } =
        mapNext (fun t => { t with opnd := { t.opnd with srcAddr := x } }) (exec i s)) ∧
    (∀ (i : Instr) (s : State) (x : Word), i ∈ [.ctrEncode, .ctrIncrement] →
      exec i { s with opnd := { s.opnd with srcLen := x } } =
        mapNext (fun t => { t with opnd := { t.opnd with srcLen := x } }) (exec i s)) ∧
    ∀ (i : Instr) (s : State) (x y : Word), i ∈ [.padDerive, .ctrDecode] →
      exec i { s with opnd := { s.opnd with dstAddr := x, dstLen := y } } =
        mapNext (fun t => { t with opnd := { t.opnd with dstAddr := x, dstLen := y } }) (exec i s)

/-- R49, R47: the internal registers cannot be seen: no register read, no command, no host transaction and no step depends
on them, except that they are carried along. Both runs have the same counters `draws` and `fresh`, so the RNG answer of
an ENCRYPT (log 3) and the free bytes of host reads and aborts (log 8, log 10) are held equal: that is the comparison's
premise, not the hardware's promise. -/
def Obligations.InternalRegistersAreInvisible : Prop :=
  (∀ (s : State) (x : Datapath) (off : Nat), readOffset { s with dp := x } off = readOffset s off) ∧
    (∀ (i : Instr) (s : State) (x : Datapath), exec i { s with dp := x } = exec i s) ∧
    (∀ (s t : State) (x : Datapath) (op : BusOp), performOp s op = .next t →
      ∃ y, performOp { s with dp := x } op = .next { t with dp := y }) ∧
    ∀ (s t : State) (x : Datapath), step s = .next t → ∃ y, step { s with dp := x } = .next { t with dp := y }

/-- R49 (with R47, R51, R112, R180, R200, R202): what the internal registers hold while ENCRYPT, DECRYPT and PAD_DERIVE run,
for any ports. At position 0 nothing is loaded. ENCRYPT at position i + 1 has finished i segments; DECRYPT at position
i + 1 with i up to c has hashed i segments, and at later ones holds its key. The order is that of the pseudocode, which
the spec calls unobservable, and how far the sequencer comes in a turn is free: the model's choices (log 12). -/
def Obligations.InternalRegistersHoldTheirContents : Prop :=
  ∀ (p : Ports) (s : State) (v : Variant), selectedVariant s = some v → 1 ≤ v.b →
    (∀ i : Instr, sequencerAt p i s 0 = Datapath.zero) ∧
    (∀ n, 1 ≤ n → (sequencerAt p .padDerive s n).pnum = BitVec.ofNat 64 (v.b - s.opnd.srcLen.toNat % v.b)) ∧
    ((srcRegion s).Valid s.build.memBytes → (dstRegion s).Valid s.build.memBytes →
      ¬ (srcRegion s).Overlaps (dstRegion s) →
      p.accepts s.ctrl.variant (List.replicate v.k s.build.k0Byte) = true →
      (∀ (key : Vector Byte v.k) (plain : List Byte) (i : Nat),
        (plain.length / v.b + 2) * v.b + max v.b v.k ≤ (dstRegion s).len → plain.length = (srcRegion s).len →
        HoldsBytes s.mem (srcRegion s).start plain → p.draw s.draws v.k = some key →
        p.accepts s.ctrl.variant key.toList = true → i ≤ plain.length / v.b + 2 →
          let enc := fun x => (p.encipher v.b s.ctrl.variant key.toList x).toList
          let hash := fun x => (p.encipher v.b s.ctrl.variant (List.replicate v.k s.build.k0Byte) x).toList
          let out := encryptBuffer enc hash v key.toList s.fill plain
          let d := sequencerAt p .encrypt s (i + 1)
          d.key = BitVec.ofNat 2040 (beNat key.toList) ∧ d.index = i ∧
            d.pnum = BitVec.ofNat 64 (v.b - plain.length % v.b) ∧
            d.ctr = BitVec.ofNat 2040 (beNat (ctrEncode i v.b)) ∧
            d.hacc = BitVec.ofNat 2040 (beNat ((List.range i).foldl
              (fun acc j => xorBytes acc (hash (xorBytes ((out.drop (j * v.b)).take v.b) (ctrEncode (j + 1) v.b))))
              (List.replicate v.b 0)))) ∧
      ∀ (buffer : List Byte) (c : Nat), 1 ≤ c → buffer.length = c * v.b + max v.b v.k →
        buffer.length = (srcRegion s).len → HoldsBytes s.mem (srcRegion s).start buffer →
          let hash := fun x => (p.encipher v.b s.ctrl.variant (List.replicate v.k s.build.k0Byte) x).toList
          let h := fun i : Nat => (List.range i).foldl
            (fun acc j => xorBytes acc (hash (xorBytes ((buffer.drop (j * v.b)).take v.b) (ctrEncode (j + 1) v.b))))
            (List.replicate v.b 0)
          let kacc := fun i : Nat => xorIntoBytes (buffer.drop (c * v.b)) (h i)
          (∀ i, i ≤ c →
            let d := sequencerAt p .decrypt s (i + 1)
            d.hacc = BitVec.ofNat 2040 (beNat (h i)) ∧ d.kacc = BitVec.ofNat 2040 (beNat (kacc i)) ∧
              d.ctr = BitVec.ofNat 2040 (beNat (ctrEncode i v.b)) ∧ d.index = i) ∧
            ∀ n, c + 2 ≤ n →
              let d := sequencerAt p .decrypt s n
              let key := (kacc c).drop (max v.b v.k - v.k)
              d.key = BitVec.ofNat 2040 (beNat key) ∧
                d.kacc = BitVec.ofNat 2040 (beNat (kacc c)) ∧ d.hacc = BitVec.ofNat 2040 (beNat (h c)) ∧
                d.ctr = BitVec.ofNat 2040 (beNat (ctrEncode d.index v.b)) ∧
                (p.accepts s.ctrl.variant key = true → c + 3 ≤ n →
                  d.pnum = BitVec.ofNat 64 (ctrDecode s.build.decodeBytes
                    (xorBytes ((buffer.drop ((c - 1) * v.b)).take v.b)
                      (p.encipher v.b s.ctrl.variant key (ctrEncode c v.b)).toList))))

/-! ### Host notation -/

/-- R87: pseudo-instructions and the transactions they stand for, for operands of the notation's widths (the model's choice,
log 18). -/
def Obligations.PseudoInstructionsExpand : Prop :=
  ∀ (labels : List (Nat × Nat)) (pos : Nat),
    (∀ i : Instr, expand labels pos (.cmd i) = some [.regWrite 0x00C 4 (encode i)]) ∧
      expand labels pos .wait = some [.poll 0x010 0x00000002#32 0x00000002#32 pos] ∧
      expand labels pos .ack = some [.regWrite 0x010 4 0x0000000E#32] ∧
      expand labels pos .srst = some [.regWrite 0x008 4 0x80000000#32] ∧
      (∀ (v : BitVec 2) (x y : Bool),
        expand labels pos (.setv v x y) =
          some [.regWrite 0x008 4 (v.setWidth 32 ||| (BitVec.ofBool x).setWidth 32 <<< 2 |||
            (BitVec.ofBool y).setWidth 32 <<< 3)]) ∧
      (∀ i : BitVec 64, expand labels pos (.arg i) =
        some [.regWrite 0x024 4 (BitVec.ofNat 32 (i.toNat % 2 ^ 32)),
          .regWrite 0x028 4 (BitVec.ofNat 32 (i.toNat / 2 ^ 32))]) ∧
      (∀ sa sl da dl : Word, expand labels pos (.ops sa sl da dl) =
        some [.regWrite 0x014 4 sa, .regWrite 0x018 4 sl, .regWrite 0x01C 4 da, .regWrite 0x020 4 dl]) ∧
      (∀ (i : Instr) (sa sl da dl : Word) (x : BitVec 64), expand labels pos (.call i sa sl da dl (some x)) =
        some [.regWrite 0x014 4 sa, .regWrite 0x018 4 sl, .regWrite 0x01C 4 da, .regWrite 0x020 4 dl,
          .regWrite 0x024 4 (BitVec.ofNat 32 (x.toNat % 2 ^ 32)),
          .regWrite 0x028 4 (BitVec.ofNat 32 (x.toNat / 2 ^ 32)),
          .regWrite 0x00C 4 (encode i), .poll 0x010 0x00000002#32 0x00000002#32 (pos + 7)]) ∧
      ∀ (i : Instr) (sa sl da dl : Word), expand labels pos (.call i sa sl da dl none) =
        some [.regWrite 0x014 4 sa, .regWrite 0x018 4 sl, .regWrite 0x01C 4 da, .regWrite 0x020 4 dl,
          .regWrite 0x00C 4 (encode i), .poll 0x010 0x00000002#32 0x00000002#32 (pos + 5)]

/-! ### The invariant -/

/-- R55: the invariant holds at reset. -/
def Obligations.ResetMeetsTheInvariant : Prop := EngineInv State.reset

/-- R36, R53, R60, R95, R99, R220: every step, from any state that meets the invariant, keeps it: the memory's form and
bounds, the error pair in the table and 0 without an error, DONE and ERR 0 while busy, no value left in the internal
registers while idle. -/
def Obligations.EveryStepKeepsTheInvariant : Prop :=
  ∀ s t : State, EngineInv s → step s = .next t → EngineInv t

/-- R252, R7: no step changes the build and platform parameters. -/
def Obligations.NoStepChangesTheBuild : Prop :=
  ∀ s t : State, step s = .next t → t.build = s.build
end

