-- ==== Sys2Proof/Laws/Bytes.lean ====
section
/-! SUPPORT. Lengths: how many bytes each buffer function gives. -/

namespace Sys2Proof.Machine

@[simp] theorem length_zeros (n : Nat) : (zeros n).length = n := List.length_replicate

@[simp] theorem length_rep (n : Nat) (v : Byte) : (rep n v).length = n := List.length_replicate

@[simp] theorem length_xorBytes (a c : List Byte) : (xorBytes a c).length = min a.length c.length :=
  List.length_zipWith

@[simp] theorem length_beBytes (n i : Nat) : (beBytes n i).length = n := by
  induction n generalizing i with
  | zero => rfl
  | succ n ih => simp [beBytes, ih]

@[simp] theorem length_ctrEncode (i n : Nat) : (ctrEncode i n).length = n := length_beBytes n i

@[simp] theorem length_incrementFromLast (a : List Byte) : (incrementFromLast a).length = a.length := by
  induction a with
  | nil => rfl
  | cons x xs ih => rw [incrementFromLast]; split <;> simp [ih]

@[simp] theorem length_ctrIncrement (a : List Byte) : (ctrIncrement a).length = a.length := by
  simp [ctrIncrement]

@[simp] theorem length_xorIntoBytes (dst src : List Byte) : (xorIntoBytes dst src).length = dst.length := by
  simp only [xorIntoBytes, List.length_append, List.length_take, length_xorBytes, List.length_drop]
  omega

@[simp] theorem length_xorIntFromLast (a : List Byte) (i : Nat) : (xorIntFromLast a i).length = a.length := by
  induction a generalizing i with
  | nil => rfl
  | cons x xs ih => rw [xorIntFromLast]; split <;> simp [ih]

@[simp] theorem length_xorWithIntBytes (a : List Byte) (i : Nat) : (xorWithIntBytes a i).length = a.length := by
  simp [xorWithIntBytes]

theorem length_wordSteps (width q : Nat) {dst src : List Byte} (h : dst.length = src.length)
    (hq : q * width ≤ dst.length) : (wordSteps width q dst src).length = dst.length := by
  induction q generalizing dst src with
  | zero => simp [wordSteps, bytePath, h]
  | succ q ih =>
    rw [Nat.add_mul, Nat.one_mul] at hq
    have := ih (dst := dst.drop width) (src := src.drop width) (by simp [h]) (by simp; omega)
    simp only [wordSteps, List.length_append, length_beBytes, this, List.length_drop]
    omega

/-- The XOR unit gives as many bytes as its windows have, by either path. -/
theorem length_xorUnit (useWords : Bool) (width : Nat) {dst src : List Byte} (h : dst.length = src.length) :
    (xorUnit useWords width dst src).length = dst.length := by
  rw [xorUnit]
  split
  · exact length_wordSteps width _ h (Nat.div_mul_le_self _ _)
  · simp [bytePath, h]

@[simp] theorem length_blockCipher (p : Ports) (v : BitVec 2) (b : Nat) (key block : List Byte) :
    (blockCipher p v b key block).length = b := by
  simp [blockCipher]

@[simp] theorem length_publicKey (c : Build) (v : Variant) : (publicKey c v).length = v.k := by
  simp [publicKey]

@[simp] theorem length_chunks (b n : Nat) (s : List Byte) : (chunks b n s).length = n := by
  induction n generalizing s with
  | zero => rfl
  | succ n ih => simp [chunks, ih]

/-- Every block is whole where the buffer is long enough. -/
theorem length_of_mem_chunks {b n : Nat} {s x : List Byte} (h : n * b ≤ s.length) (hx : x ∈ chunks b n s) :
    x.length = b := by
  induction n generalizing s with
  | zero => simp [chunks] at hx
  | succ n ih =>
    rw [Nat.add_mul, Nat.one_mul] at h
    rcases List.mem_cons.mp hx with rfl | hx
    · simp; omega
    · exact ih (by simp; omega) hx

@[simp] theorem length_maskBlocks (enc : List Byte → List Byte) (b i : Nat) (xs : List (List Byte)) :
    (maskBlocks enc b i xs).length = xs.length := by
  induction xs generalizing i with
  | nil => rfl
  | cons x xs ih => simp [maskBlocks, ih]

/-- Masking whole blocks gives whole blocks. -/
theorem length_of_mem_maskBlocks {enc : List Byte → List Byte} {b i : Nat} {xs : List (List Byte)} {y : List Byte}
    (henc : ∀ x, (enc x).length = b) (hxs : ∀ x ∈ xs, x.length = b) (hy : y ∈ maskBlocks enc b i xs) :
    y.length = b := by
  induction xs generalizing i with
  | nil => simp [maskBlocks] at hy
  | cons x xs ih =>
    rcases List.mem_cons.mp hy with rfl | hy
    · simp [henc, hxs x (by simp)]
    · exact ih (fun z hz => hxs z (by simp [hz])) hy

/-- Blocks of equal length, joined. -/
theorem length_flatten_of_all {b : Nat} {xs : List (List Byte)} (h : ∀ x ∈ xs, x.length = b) :
    xs.flatten.length = xs.length * b := by
  induction xs with
  | nil => simp
  | cons x xs ih =>
    rw [List.flatten_cons, List.length_append, ih fun z hz => h z (by simp [hz]), h x (by simp), List.length_cons,
      Nat.add_mul, Nat.one_mul, Nat.add_comm]

theorem length_hashChain {hash : List Byte → List Byte} {b i : Nat} {acc : List Byte} {xs : List (List Byte)}
    (hhash : ∀ x, (hash x).length = b) (hacc : acc.length = b) : (hashChain hash b i acc xs).length = b := by
  induction xs generalizing i acc with
  | nil => exact hacc
  | cons x xs ih => exact ih (by simp [hacc, hhash])

/-- The padded plaintext fills its blocks (R111). -/
theorem padded_fits (len b : Nat) : (padDerive len b).2 * b ≤ len + (padDerive len b).1 := by
  rcases Nat.eq_zero_or_pos b with rfl | hb
  · simp
  · have h1 := Nat.div_add_mod len b
    have h2 := Nat.mod_lt len hb
    simp only [padDerive, Nat.add_mul, Nat.one_mul]
    have : len / b * b = b * (len / b) := Nat.mul_comm _ _
    omega

@[simp] theorem length_encryptSegments (enc : List Byte → List Byte) (v : Variant) (fill : Byte) (plain : List Byte) :
    (encryptSegments enc v fill plain).length = (padDerive plain.length v.b).2 + 1 := by
  simp [encryptSegments]

/-- Every segment but the last is a block (R181). -/
theorem length_of_mem_encryptSegments {enc : List Byte → List Byte} {v : Variant} {fill : Byte} {plain y : List Byte}
    (henc : ∀ x, (enc x).length = v.b) (hy : y ∈ encryptSegments enc v fill plain) : y.length = v.b := by
  simp only [encryptSegments, List.mem_append, List.mem_singleton] at hy
  rcases hy with hy | rfl
  · refine length_of_mem_maskBlocks henc (fun x hx => length_of_mem_chunks ?_ hx) hy
    simpa using padded_fits plain.length v.b
  · simp [henc]

/-- The flat buffer has `N` bytes (R180, R181). -/
theorem length_encryptBuffer {enc hash : List Byte → List Byte} {v : Variant} {key plain : List Byte} (fill : Byte)
    (henc : ∀ x, (enc x).length = v.b) (hkey : key.length = v.k) :
    (encryptBuffer enc hash v key fill plain).length = encryptSize v plain.length := by
  have h := length_flatten_of_all fun x (hx : x ∈ encryptSegments enc v fill plain) =>
    length_of_mem_encryptSegments henc hx
  have hk : v.k ≤ lastSize v := le_max_right _ _
  simp only [encryptBuffer, List.length_append, h, length_encryptSegments, length_xorIntoBytes, trailingAligned,
    length_zeros, hkey, encryptSize]
  omega

/-- The recovered plaintext has `L'` bytes (R200). -/
theorem length_recoveredPlain {enc : List Byte → List Byte} {v : Variant} (pNum : Nat) {buffer : List Byte}
    (henc : ∀ x, (enc x).length = v.b) :
    (recoveredPlain enc v pNum buffer).length = (segmentCount v buffer.length - 1) * v.b - pNum := by
  have hc : (segmentCount v buffer.length - 1) * v.b ≤ buffer.length :=
    le_trans (Nat.mul_le_mul_right _ (Nat.sub_le _ _))
      (le_trans (Nat.div_mul_le_self _ _) (Nat.sub_le _ _))
  have h := length_flatten_of_all fun x (hx : x ∈ maskBlocks enc v.b 1 (chunks v.b (segmentCount v buffer.length - 1) buffer)) =>
    length_of_mem_maskBlocks henc (fun y hy => length_of_mem_chunks hc hy) hx
  simp only [recoveredPlain, List.length_take, h, length_maskBlocks, length_chunks]
  omega

end Sys2Proof.Machine
end

