-- ==== Sys2Proof/Laws/Memory.lean ====
section
/-! SUPPORT. The laws of the data memory: read after write, every operation keeps the canonical form and the addresses
that exist, and what a run of bytes reads as after a write. -/

namespace Sys2Proof.Machine

theorem memRead_memWrite_same (m : Memory) (a : Nat) (v : Byte) : memRead (memWrite m a v) a = some v := by
  induction m with
  | nil => simp [memWrite, memRead]
  | cons c m ih =>
    obtain ⟨c, w⟩ := c
    rw [memWrite]
    split
    · simp [memRead]
    · split
      · simp [memRead]
      · next h => simp [memRead, Ne.symm h, ih]

theorem memRead_memWrite_other (m : Memory) {a c : Nat} (v : Byte) (h : c ≠ a) :
    memRead (memWrite m a v) c = memRead m c := by
  induction m with
  | nil => simp [memWrite, memRead, Ne.symm h]
  | cons d m ih =>
    obtain ⟨d, w⟩ := d
    rw [memWrite]
    split
    · simp [memRead, Ne.symm h]
    · split
      · next e => subst e; simp [memRead, Ne.symm h]
      · simp [memRead, ih]

theorem memRead_memWrite (m : Memory) (a c : Nat) (v : Byte) :
    memRead (memWrite m a v) c = if c = a then some v else memRead m c := by
  split
  · next h => subst h; exact memRead_memWrite_same m c v
  · next h => exact memRead_memWrite_other m v h

theorem mem_memWrite {m : Memory} {a : Nat} {v : Byte} {c : Host.Cell} (h : c ∈ memWrite m a v) :
    c = (a, v) ∨ c ∈ m := by
  induction m with
  | nil => simpa [memWrite] using h
  | cons d m ih =>
    obtain ⟨d, w⟩ := d
    rw [memWrite] at h
    split at h
    · simpa using h
    · split at h
      · rcases List.mem_cons.mp h with h | h
        · exact .inl h
        · exact .inr (List.mem_cons_of_mem _ h)
      · rcases List.mem_cons.mp h with h | h
        · exact .inr (by simp [h])
        · exact (ih h).imp id (List.mem_cons_of_mem _)

theorem memWrite_wf {m : Memory} (h : Memory.wf m) (a : Nat) (v : Byte) : Memory.wf (memWrite m a v) := by
  induction m with
  | nil => simp [memWrite]
  | cons d m ih =>
    obtain ⟨d, w⟩ := d
    obtain ⟨hd, hm⟩ := List.pairwise_cons.mp h
    rw [memWrite]
    split
    · next lt =>
      refine List.pairwise_cons.mpr ⟨fun x hx => ?_, h⟩
      rcases List.mem_cons.mp hx with rfl | hx
      · exact lt
      · exact lt.trans (hd x hx)
    · split
      · next e => subst e; exact List.pairwise_cons.mpr ⟨hd, hm⟩
      · next nlt ne =>
        refine List.pairwise_cons.mpr ⟨fun x hx => ?_, ih hm⟩
        rcases mem_memWrite hx with rfl | hx
        · show d < a
          omega
        · exact hd x hx

theorem memWriteBytes_wf {m : Memory} (h : Memory.wf m) (a : Nat) (vs : List Byte) :
    Memory.wf (memWriteBytes m a vs) := by
  induction vs generalizing m a with
  | nil => exact h
  | cons v vs ih => exact ih (memWrite_wf h a v) (a + 1)

theorem memScramble_wf {m : Memory} (h : Memory.wf m) (a fresh n : Nat) : Memory.wf (memScramble m a fresh n) := by
  induction n generalizing m a fresh with
  | zero => exact h
  | succ n ih => exact ih (memWrite_wf h a _) (a + 1) (fresh + 1)

/-- Writing below `bound` keeps every listed address below it. -/
theorem memWrite_below {m : Memory} {bound a : Nat} (h : ∀ c ∈ m, c.1 < bound) (ha : a < bound) (v : Byte) :
    ∀ c ∈ memWrite m a v, c.1 < bound := fun c hc => by
  rcases mem_memWrite hc with rfl | hc
  · exact ha
  · exact h c hc

theorem memWriteBytes_below {m : Memory} {bound a : Nat} (h : ∀ c ∈ m, c.1 < bound) {vs : List Byte}
    (ha : a + vs.length ≤ bound) : ∀ c ∈ memWriteBytes m a vs, c.1 < bound := by
  induction vs generalizing m a with
  | nil => exact h
  | cons v vs ih =>
    simp only [List.length_cons] at ha
    exact ih (memWrite_below h (by omega) v) (by omega)

theorem memScramble_below {m : Memory} {bound a fresh n : Nat} (h : ∀ c ∈ m, c.1 < bound) (ha : a + n ≤ bound) :
    ∀ c ∈ memScramble m a fresh n, c.1 < bound := by
  induction n generalizing m a fresh with
  | zero => exact h
  | succ n ih => exact ih (memWrite_below h (by omega) _) (by omega)

theorem memRead_memWriteBytes_outside (m : Memory) {a c : Nat} {vs : List Byte} (h : c < a ∨ a + vs.length ≤ c) :
    memRead (memWriteBytes m a vs) c = memRead m c := by
  induction vs generalizing m a with
  | nil => rfl
  | cons v vs ih =>
    simp only [List.length_cons] at h
    rw [memWriteBytes, ih _ (by omega), memRead_memWrite_other _ _ (by omega)]

theorem memRead_memWriteBytes_inside (m : Memory) (a : Nat) {vs : List Byte} {j : Nat} (h : j < vs.length) :
    memRead (memWriteBytes m a vs) (a + j) = some vs[j] := by
  induction vs generalizing m a j with
  | nil => simp at h
  | cons v vs ih =>
    cases j with
    | zero => rw [memWriteBytes, memRead_memWriteBytes_outside _ (by omega)]; exact memRead_memWrite_same m a v
    | succ j =>
      have := ih (memWrite m a v) (a + 1) (j := j) (by simpa using h)
      rw [memWriteBytes]
      simpa [Nat.add_comm, Nat.add_left_comm] using this

theorem memRead_memScramble_outside (m : Memory) {a c fresh n : Nat} (h : c < a ∨ a + n ≤ c) :
    memRead (memScramble m a fresh n) c = memRead m c := by
  induction n generalizing m a fresh with
  | zero => rfl
  | succ n ih => rw [memScramble, ih _ (by omega), memRead_memWrite_other _ _ (by omega)]

theorem memRead_memScramble_inside (m : Memory) (a fresh : Nat) {n j : Nat} (h : j < n) :
    memRead (memScramble m a fresh n) (a + j) = some (Config.freeByte (fresh + j)) := by
  induction n generalizing m a fresh j with
  | zero => omega
  | succ n ih =>
    cases j with
    | zero => rw [memScramble, memRead_memScramble_outside _ (by omega)]; exact memRead_memWrite_same m a _
    | succ j =>
      have := ih (memWrite m a (Config.freeByte fresh)) (a + 1) (fresh + 1) (j := j) (by omega)
      rw [memScramble]
      simpa [Nat.add_comm, Nat.add_left_comm] using this

/-- `MemRead` answers exactly the bytes that stand there (R11). -/
theorem memReadBytes_ok_iff (m : Memory) (a n : Nat) (vs : List Byte) :
    memReadBytes m a n = .ok vs ↔
      vs.length = n ∧ ∀ (j : Nat) (h : j < vs.length), memRead m (a + j) = some vs[j] := by
  induction n generalizing a vs with
  | zero =>
    rw [memReadBytes]
    constructor
    · intro h; cases h; simp
    · rintro ⟨h, -⟩; rw [List.length_eq_zero_iff.mp h]
  | succ n ih =>
    rw [memReadBytes]
    constructor
    · intro h
      split at h
      · cases h
      · next v hv =>
        split at h
        · cases h
        · next ws hws =>
          cases h
          obtain ⟨hl, hr⟩ := (ih (a + 1) ws).mp hws
          refine ⟨by simp [hl], fun j hj => ?_⟩
          cases j with
          | zero => simpa using hv
          | succ j =>
            have := hr j (by simpa using hj)
            simpa [Nat.add_comm, Nat.add_left_comm] using this
    · rintro ⟨hl, hr⟩
      cases vs with
      | nil => simp at hl
      | cons v vs =>
        have h0 := hr 0 (by simp)
        have hrest := (ih (a + 1) vs).mpr ⟨by simpa using hl, fun j hj => by
          have := hr (j + 1) (by simpa using hj)
          simpa [Nat.add_comm, Nat.add_left_comm] using this⟩
        simp only [Nat.add_zero, List.getElem_cons_zero] at h0
        rw [h0, hrest]

/-- `MemRead` stops at an address of its region that has no value (R62). -/
theorem memReadBytes_error {m : Memory} {a n e : Nat} (h : memReadBytes m a n = .error e) :
    a ≤ e ∧ e < a + n ∧ memRead m e = none := by
  induction n generalizing a with
  | zero => cases h
  | succ n ih =>
    rw [memReadBytes] at h
    split at h
    · next hv => cases h; exact ⟨le_refl _, by omega, hv⟩
    · split at h
      · next e' he =>
        cases h
        obtain ⟨h1, h2, h3⟩ := ih he
        exact ⟨by omega, by omega, h3⟩
      · cases h

end Sys2Proof.Machine
end

