-- ==== Sys2Proof/Laws/State.lean ====
section
/-! SUPPORT. One lemma for each field of State and each update of it, true by unfolding the update once; and what each
field of an update of the flags is. -/

namespace Sys2Proof.Machine

section completeOk
variable (s : State) (a : Nat) (bs : List Byte) (r : Option (Word × Word)) (x : Option Bool)
@[simp] theorem completeOk_build : (completeOk s a bs r x).build = s.build := rfl
@[simp] theorem completeOk_ctrl : (completeOk s a bs r x).ctrl = s.ctrl := rfl
@[simp] theorem completeOk_flags : (completeOk s a bs r x).flags = successFlags s.flags x := rfl
@[simp] theorem completeOk_opnd : (completeOk s a bs r x).opnd = s.opnd := rfl
@[simp] theorem completeOk_fill : (completeOk s a bs r x).fill = s.fill := rfl
@[simp] theorem completeOk_phase : (completeOk s a bs r x).phase = .idle := rfl
@[simp] theorem completeOk_latched : (completeOk s a bs r x).latched = s.latched := rfl
@[simp] theorem completeOk_dp : (completeOk s a bs r x).dp = Datapath.zero := rfl
@[simp] theorem completeOk_mem : (completeOk s a bs r x).mem = memWriteBytes s.mem a bs := rfl
@[simp] theorem completeOk_delay : (completeOk s a bs r x).delay = s.delay := rfl
@[simp] theorem completeOk_tie : (completeOk s a bs r x).tie = s.tie := rfl
@[simp] theorem completeOk_host : (completeOk s a bs r x).host = s.host := rfl
@[simp] theorem completeOk_unseen : (completeOk s a bs r x).unseen = s.unseen := rfl
@[simp] theorem completeOk_fresh : (completeOk s a bs r x).fresh = s.fresh := rfl
@[simp] theorem completeOk_draws : (completeOk s a bs r x).draws = s.draws := rfl
@[simp] theorem completeOk_result0_none : (completeOk s a bs none x).result0 = s.result0 := rfl
@[simp] theorem completeOk_result0_some (p : Word × Word) : (completeOk s a bs (some p) x).result0 = p.1 := rfl
@[simp] theorem completeOk_result1_none : (completeOk s a bs none x).result1 = s.result1 := rfl
@[simp] theorem completeOk_result1_some (p : Word × Word) : (completeOk s a bs (some p) x).result1 = p.2 := rfl
end completeOk

section raiseError
variable (s : State) (e : CmdError)
@[simp] theorem raiseError_build : (raiseError s e).build = s.build := rfl
@[simp] theorem raiseError_ctrl : (raiseError s e).ctrl = s.ctrl := rfl
@[simp] theorem raiseError_flags : (raiseError s e).flags = errorFlags s.flags e := rfl
@[simp] theorem raiseError_opnd : (raiseError s e).opnd = s.opnd := rfl
@[simp] theorem raiseError_result0 : (raiseError s e).result0 = s.result0 := rfl
@[simp] theorem raiseError_result1 : (raiseError s e).result1 = s.result1 := rfl
@[simp] theorem raiseError_fill : (raiseError s e).fill = s.fill := rfl
@[simp] theorem raiseError_phase : (raiseError s e).phase = .idle := rfl
@[simp] theorem raiseError_latched : (raiseError s e).latched = s.latched := rfl
@[simp] theorem raiseError_dp : (raiseError s e).dp = Datapath.zero := rfl
@[simp] theorem raiseError_mem : (raiseError s e).mem = s.mem := rfl
@[simp] theorem raiseError_delay : (raiseError s e).delay = s.delay := rfl
@[simp] theorem raiseError_tie : (raiseError s e).tie = s.tie := rfl
@[simp] theorem raiseError_host : (raiseError s e).host = s.host := rfl
@[simp] theorem raiseError_unseen : (raiseError s e).unseen = s.unseen := rfl
@[simp] theorem raiseError_fresh : (raiseError s e).fresh = s.fresh := rfl
@[simp] theorem raiseError_draws : (raiseError s e).draws = s.draws := rfl
end raiseError

section accepted
variable (w : Word) (s : State)
@[simp] theorem accepted_build : (accepted w s).build = s.build := rfl
@[simp] theorem accepted_ctrl : (accepted w s).ctrl = s.ctrl := rfl
@[simp] theorem accepted_flags : (accepted w s).flags = acceptFlags s.flags := rfl
@[simp] theorem accepted_opnd : (accepted w s).opnd = s.opnd := rfl
@[simp] theorem accepted_result0 : (accepted w s).result0 = s.result0 := rfl
@[simp] theorem accepted_result1 : (accepted w s).result1 = s.result1 := rfl
@[simp] theorem accepted_fill : (accepted w s).fill = s.fill := rfl
@[simp] theorem accepted_phase : (accepted w s).phase = .run := rfl
@[simp] theorem accepted_latched : (accepted w s).latched = w := rfl
@[simp] theorem accepted_dp : (accepted w s).dp = s.dp := rfl
@[simp] theorem accepted_mem : (accepted w s).mem = s.mem := rfl
@[simp] theorem accepted_delay : (accepted w s).delay = s.delay := rfl
@[simp] theorem accepted_tie : (accepted w s).tie = s.tie := rfl
@[simp] theorem accepted_host : (accepted w s).host = s.host := rfl
@[simp] theorem accepted_unseen : (accepted w s).unseen = s.unseen := rfl
@[simp] theorem accepted_fresh : (accepted w s).fresh = s.fresh := rfl
@[simp] theorem accepted_draws : (accepted w s).draws = s.draws := rfl
end accepted

section acceptCommand
variable (w : Word) (s : State)
@[simp] theorem acceptCommand_build : (acceptCommand w s).build = s.build := rfl
@[simp] theorem acceptCommand_ctrl : (acceptCommand w s).ctrl = s.ctrl := rfl
@[simp] theorem acceptCommand_flags : (acceptCommand w s).flags = acceptFlags s.flags := rfl
@[simp] theorem acceptCommand_opnd : (acceptCommand w s).opnd = s.opnd := rfl
@[simp] theorem acceptCommand_result0 : (acceptCommand w s).result0 = s.result0 := rfl
@[simp] theorem acceptCommand_result1 : (acceptCommand w s).result1 = s.result1 := rfl
@[simp] theorem acceptCommand_fill : (acceptCommand w s).fill = s.fill := rfl
@[simp] theorem acceptCommand_phase : (acceptCommand w s).phase = .run := rfl
@[simp] theorem acceptCommand_latched : (acceptCommand w s).latched = w := rfl
@[simp] theorem acceptCommand_dp : (acceptCommand w s).dp = Datapath.zero := rfl
@[simp] theorem acceptCommand_mem : (acceptCommand w s).mem = s.mem := rfl
@[simp] theorem acceptCommand_delay : (acceptCommand w s).delay = Config.delay s.fresh := rfl
@[simp] theorem acceptCommand_tie : (acceptCommand w s).tie = Config.tie s.fresh := rfl
@[simp] theorem acceptCommand_host : (acceptCommand w s).host = s.host := rfl
@[simp] theorem acceptCommand_unseen : (acceptCommand w s).unseen = runningDst (accepted w s) :: s.unseen := rfl
@[simp] theorem acceptCommand_fresh : (acceptCommand w s).fresh = s.fresh + 1 := rfl
@[simp] theorem acceptCommand_draws : (acceptCommand w s).draws = s.draws := rfl
end acceptCommand

section spendFresh
variable (n : Nat) (s : State)
@[simp] theorem spendFresh_build : (spendFresh n s).build = s.build := rfl
@[simp] theorem spendFresh_ctrl : (spendFresh n s).ctrl = s.ctrl := rfl
@[simp] theorem spendFresh_flags : (spendFresh n s).flags = s.flags := rfl
@[simp] theorem spendFresh_opnd : (spendFresh n s).opnd = s.opnd := rfl
@[simp] theorem spendFresh_result0 : (spendFresh n s).result0 = s.result0 := rfl
@[simp] theorem spendFresh_result1 : (spendFresh n s).result1 = s.result1 := rfl
@[simp] theorem spendFresh_fill : (spendFresh n s).fill = s.fill := rfl
@[simp] theorem spendFresh_phase : (spendFresh n s).phase = s.phase := rfl
@[simp] theorem spendFresh_latched : (spendFresh n s).latched = s.latched := rfl
@[simp] theorem spendFresh_dp : (spendFresh n s).dp = s.dp := rfl
@[simp] theorem spendFresh_mem : (spendFresh n s).mem = s.mem := rfl
@[simp] theorem spendFresh_delay : (spendFresh n s).delay = s.delay := rfl
@[simp] theorem spendFresh_tie : (spendFresh n s).tie = s.tie := rfl
@[simp] theorem spendFresh_host : (spendFresh n s).host = s.host := rfl
@[simp] theorem spendFresh_unseen : (spendFresh n s).unseen = s.unseen := rfl
@[simp] theorem spendFresh_fresh : (spendFresh n s).fresh = s.fresh + n := rfl
@[simp] theorem spendFresh_draws : (spendFresh n s).draws = s.draws := rfl
end spendFresh

section spendDraws
variable (n : Nat) (s : State)
@[simp] theorem spendDraws_build : (spendDraws n s).build = s.build := rfl
@[simp] theorem spendDraws_ctrl : (spendDraws n s).ctrl = s.ctrl := rfl
@[simp] theorem spendDraws_flags : (spendDraws n s).flags = s.flags := rfl
@[simp] theorem spendDraws_opnd : (spendDraws n s).opnd = s.opnd := rfl
@[simp] theorem spendDraws_result0 : (spendDraws n s).result0 = s.result0 := rfl
@[simp] theorem spendDraws_result1 : (spendDraws n s).result1 = s.result1 := rfl
@[simp] theorem spendDraws_fill : (spendDraws n s).fill = s.fill := rfl
@[simp] theorem spendDraws_phase : (spendDraws n s).phase = s.phase := rfl
@[simp] theorem spendDraws_latched : (spendDraws n s).latched = s.latched := rfl
@[simp] theorem spendDraws_dp : (spendDraws n s).dp = s.dp := rfl
@[simp] theorem spendDraws_mem : (spendDraws n s).mem = s.mem := rfl
@[simp] theorem spendDraws_delay : (spendDraws n s).delay = s.delay := rfl
@[simp] theorem spendDraws_tie : (spendDraws n s).tie = s.tie := rfl
@[simp] theorem spendDraws_host : (spendDraws n s).host = s.host := rfl
@[simp] theorem spendDraws_unseen : (spendDraws n s).unseen = s.unseen := rfl
@[simp] theorem spendDraws_fresh : (spendDraws n s).fresh = s.fresh := rfl
@[simp] theorem spendDraws_draws : (spendDraws n s).draws = s.draws + n := rfl
end spendDraws

section resetRegisters
variable (s : State)
@[simp] theorem resetRegisters_build : (resetRegisters s).build = s.build := rfl
@[simp] theorem resetRegisters_ctrl : (resetRegisters s).ctrl = Ctrl.reset := rfl
@[simp] theorem resetRegisters_flags : (resetRegisters s).flags = Flags.reset := rfl
@[simp] theorem resetRegisters_opnd : (resetRegisters s).opnd = Operands.reset := rfl
@[simp] theorem resetRegisters_result0 : (resetRegisters s).result0 = 0 := rfl
@[simp] theorem resetRegisters_result1 : (resetRegisters s).result1 = 0 := rfl
@[simp] theorem resetRegisters_fill : (resetRegisters s).fill = 0 := rfl
@[simp] theorem resetRegisters_phase : (resetRegisters s).phase = .idle := rfl
@[simp] theorem resetRegisters_latched : (resetRegisters s).latched = 0 := rfl
@[simp] theorem resetRegisters_dp : (resetRegisters s).dp = Datapath.zero := rfl
@[simp] theorem resetRegisters_mem : (resetRegisters s).mem = s.mem := rfl
@[simp] theorem resetRegisters_delay : (resetRegisters s).delay = 0 := rfl
@[simp] theorem resetRegisters_tie : (resetRegisters s).tie = false := rfl
@[simp] theorem resetRegisters_host : (resetRegisters s).host = s.host := rfl
@[simp] theorem resetRegisters_unseen : (resetRegisters s).unseen = [] := rfl
@[simp] theorem resetRegisters_fresh : (resetRegisters s).fresh = s.fresh := rfl
@[simp] theorem resetRegisters_draws : (resetRegisters s).draws = s.draws + 1 := rfl
end resetRegisters

section powerOnReset
variable (s : State)
@[simp] theorem powerOnReset_build : (powerOnReset s).build = s.build := rfl
@[simp] theorem powerOnReset_ctrl : (powerOnReset s).ctrl = Ctrl.reset := rfl
@[simp] theorem powerOnReset_flags : (powerOnReset s).flags = Flags.reset := rfl
@[simp] theorem powerOnReset_opnd : (powerOnReset s).opnd = Operands.reset := rfl
@[simp] theorem powerOnReset_result0 : (powerOnReset s).result0 = 0 := rfl
@[simp] theorem powerOnReset_result1 : (powerOnReset s).result1 = 0 := rfl
@[simp] theorem powerOnReset_fill : (powerOnReset s).fill = 0 := rfl
@[simp] theorem powerOnReset_phase : (powerOnReset s).phase = .idle := rfl
@[simp] theorem powerOnReset_latched : (powerOnReset s).latched = 0 := rfl
@[simp] theorem powerOnReset_dp : (powerOnReset s).dp = Datapath.zero := rfl
@[simp] theorem powerOnReset_mem : (powerOnReset s).mem = [] := rfl
@[simp] theorem powerOnReset_delay : (powerOnReset s).delay = 0 := rfl
@[simp] theorem powerOnReset_tie : (powerOnReset s).tie = false := rfl
@[simp] theorem powerOnReset_host : (powerOnReset s).host = s.host := rfl
@[simp] theorem powerOnReset_unseen : (powerOnReset s).unseen = [] := rfl
@[simp] theorem powerOnReset_fresh : (powerOnReset s).fresh = s.fresh := rfl
@[simp] theorem powerOnReset_draws : (powerOnReset s).draws = s.draws + 1 := rfl
end powerOnReset

section dropWrite
variable (s : State)
@[simp] theorem dropWrite_build : (dropWrite s).build = s.build := rfl
@[simp] theorem dropWrite_ctrl : (dropWrite s).ctrl = s.ctrl := rfl
@[simp] theorem dropWrite_flags : (dropWrite s).flags = { s.flags with ovr := true } := rfl
@[simp] theorem dropWrite_opnd : (dropWrite s).opnd = s.opnd := rfl
@[simp] theorem dropWrite_result0 : (dropWrite s).result0 = s.result0 := rfl
@[simp] theorem dropWrite_result1 : (dropWrite s).result1 = s.result1 := rfl
@[simp] theorem dropWrite_fill : (dropWrite s).fill = s.fill := rfl
@[simp] theorem dropWrite_phase : (dropWrite s).phase = s.phase := rfl
@[simp] theorem dropWrite_latched : (dropWrite s).latched = s.latched := rfl
@[simp] theorem dropWrite_dp : (dropWrite s).dp = s.dp := rfl
@[simp] theorem dropWrite_mem : (dropWrite s).mem = s.mem := rfl
@[simp] theorem dropWrite_delay : (dropWrite s).delay = s.delay := rfl
@[simp] theorem dropWrite_tie : (dropWrite s).tie = s.tie := rfl
@[simp] theorem dropWrite_host : (dropWrite s).host = s.host := rfl
@[simp] theorem dropWrite_unseen : (dropWrite s).unseen = s.unseen := rfl
@[simp] theorem dropWrite_fresh : (dropWrite s).fresh = s.fresh := rfl
@[simp] theorem dropWrite_draws : (dropWrite s).draws = s.draws := rfl
end dropWrite

section setOperands
variable (s : State) (o : Operands)
@[simp] theorem setOperands_build : (setOperands s o).build = s.build := rfl
@[simp] theorem setOperands_ctrl : (setOperands s o).ctrl = s.ctrl := rfl
@[simp] theorem setOperands_flags : (setOperands s o).flags = s.flags := rfl
@[simp] theorem setOperands_opnd : (setOperands s o).opnd = o := rfl
@[simp] theorem setOperands_result0 : (setOperands s o).result0 = s.result0 := rfl
@[simp] theorem setOperands_result1 : (setOperands s o).result1 = s.result1 := rfl
@[simp] theorem setOperands_fill : (setOperands s o).fill = s.fill := rfl
@[simp] theorem setOperands_phase : (setOperands s o).phase = s.phase := rfl
@[simp] theorem setOperands_latched : (setOperands s o).latched = s.latched := rfl
@[simp] theorem setOperands_dp : (setOperands s o).dp = s.dp := rfl
@[simp] theorem setOperands_mem : (setOperands s o).mem = s.mem := rfl
@[simp] theorem setOperands_delay : (setOperands s o).delay = s.delay := rfl
@[simp] theorem setOperands_tie : (setOperands s o).tie = s.tie := rfl
@[simp] theorem setOperands_host : (setOperands s o).host = s.host := rfl
@[simp] theorem setOperands_unseen : (setOperands s o).unseen = s.unseen := rfl
@[simp] theorem setOperands_fresh : (setOperands s o).fresh = s.fresh := rfl
@[simp] theorem setOperands_draws : (setOperands s o).draws = s.draws := rfl
end setOperands

section noteReading
variable (s : State) (var : Nat) (v : Word)
@[simp] theorem noteReading_build : (noteReading s var v).build = s.build := rfl
@[simp] theorem noteReading_ctrl : (noteReading s var v).ctrl = s.ctrl := rfl
@[simp] theorem noteReading_flags : (noteReading s var v).flags = s.flags := rfl
@[simp] theorem noteReading_opnd : (noteReading s var v).opnd = s.opnd := rfl
@[simp] theorem noteReading_result0 : (noteReading s var v).result0 = s.result0 := rfl
@[simp] theorem noteReading_result1 : (noteReading s var v).result1 = s.result1 := rfl
@[simp] theorem noteReading_fill : (noteReading s var v).fill = s.fill := rfl
@[simp] theorem noteReading_phase : (noteReading s var v).phase = s.phase := rfl
@[simp] theorem noteReading_latched : (noteReading s var v).latched = s.latched := rfl
@[simp] theorem noteReading_dp : (noteReading s var v).dp = s.dp := rfl
@[simp] theorem noteReading_mem : (noteReading s var v).mem = s.mem := rfl
@[simp] theorem noteReading_delay : (noteReading s var v).delay = s.delay := rfl
@[simp] theorem noteReading_tie : (noteReading s var v).tie = s.tie := rfl
@[simp] theorem noteReading_host : (noteReading s var v).host = { s.host with readings := s.host.readings ++ [⟨var, v⟩] } := rfl
@[simp] theorem noteReading_unseen : (noteReading s var v).unseen = s.unseen := rfl
@[simp] theorem noteReading_fresh : (noteReading s var v).fresh = s.fresh := rfl
@[simp] theorem noteReading_draws : (noteReading s var v).draws = s.draws := rfl
end noteReading

section observe
variable (s : State) (off : Nat)
@[simp] theorem observe_build : (observe s off).build = s.build := rfl
@[simp] theorem observe_ctrl : (observe s off).ctrl = s.ctrl := rfl
@[simp] theorem observe_flags : (observe s off).flags = s.flags := rfl
@[simp] theorem observe_opnd : (observe s off).opnd = s.opnd := rfl
@[simp] theorem observe_result0 : (observe s off).result0 = s.result0 := rfl
@[simp] theorem observe_result1 : (observe s off).result1 = s.result1 := rfl
@[simp] theorem observe_fill : (observe s off).fill = s.fill := rfl
@[simp] theorem observe_phase : (observe s off).phase = s.phase := rfl
@[simp] theorem observe_latched : (observe s off).latched = s.latched := rfl
@[simp] theorem observe_dp : (observe s off).dp = s.dp := rfl
@[simp] theorem observe_mem : (observe s off).mem = s.mem := rfl
@[simp] theorem observe_delay : (observe s off).delay = s.delay := rfl
@[simp] theorem observe_tie : (observe s off).tie = s.tie := rfl
@[simp] theorem observe_host : (observe s off).host = s.host := rfl
@[simp] theorem observe_unseen : (observe s off).unseen = if observesCompletion s off then [] else s.unseen := rfl
@[simp] theorem observe_fresh : (observe s off).fresh = s.fresh := rfl
@[simp] theorem observe_draws : (observe s off).draws = s.draws := rfl
end observe

section branchHost
variable (s : State) (target : Nat)
@[simp] theorem branchHost_build : (branchHost s target).build = s.build := rfl
@[simp] theorem branchHost_ctrl : (branchHost s target).ctrl = s.ctrl := rfl
@[simp] theorem branchHost_flags : (branchHost s target).flags = s.flags := rfl
@[simp] theorem branchHost_opnd : (branchHost s target).opnd = s.opnd := rfl
@[simp] theorem branchHost_result0 : (branchHost s target).result0 = s.result0 := rfl
@[simp] theorem branchHost_result1 : (branchHost s target).result1 = s.result1 := rfl
@[simp] theorem branchHost_fill : (branchHost s target).fill = s.fill := rfl
@[simp] theorem branchHost_phase : (branchHost s target).phase = s.phase := rfl
@[simp] theorem branchHost_latched : (branchHost s target).latched = s.latched := rfl
@[simp] theorem branchHost_dp : (branchHost s target).dp = s.dp := rfl
@[simp] theorem branchHost_mem : (branchHost s target).mem = s.mem := rfl
@[simp] theorem branchHost_delay : (branchHost s target).delay = s.delay := rfl
@[simp] theorem branchHost_tie : (branchHost s target).tie = s.tie := rfl
@[simp] theorem branchHost_host : (branchHost s target).host = { s.host with pos := target } := rfl
@[simp] theorem branchHost_unseen : (branchHost s target).unseen = s.unseen := rfl
@[simp] theorem branchHost_fresh : (branchHost s target).fresh = s.fresh := rfl
@[simp] theorem branchHost_draws : (branchHost s target).draws = s.draws := rfl
end branchHost

section successFlags
variable (f : Flags) (x : Option Bool)
@[simp] theorem successFlags_done : (successFlags f x).done = true := rfl
@[simp] theorem successFlags_err : (successFlags f x).err = f.err := rfl
@[simp] theorem successFlags_ovr : (successFlags f x).ovr = f.ovr := rfl
@[simp] theorem successFlags_xpath : (successFlags f x).xpath = x.getD f.xpath := rfl
@[simp] theorem successFlags_errCode : (successFlags f x).errCode = f.errCode := rfl
@[simp] theorem successFlags_errCause : (successFlags f x).errCause = f.errCause := rfl
end successFlags

section errorFlags
variable (f : Flags) (e : CmdError)
@[simp] theorem errorFlags_done : (errorFlags f e).done = true := rfl
@[simp] theorem errorFlags_err : (errorFlags f e).err = true := rfl
@[simp] theorem errorFlags_ovr : (errorFlags f e).ovr = f.ovr := rfl
@[simp] theorem errorFlags_xpath : (errorFlags f e).xpath = f.xpath := rfl
@[simp] theorem errorFlags_errCode : (errorFlags f e).errCode = e.code := rfl
@[simp] theorem errorFlags_errCause : (errorFlags f e).errCause = e.cause := rfl
end errorFlags

section acceptFlags
variable (f : Flags)
@[simp] theorem acceptFlags_done : (acceptFlags f).done = false := rfl
@[simp] theorem acceptFlags_err : (acceptFlags f).err = false := rfl
@[simp] theorem acceptFlags_ovr : (acceptFlags f).ovr = f.ovr := rfl
@[simp] theorem acceptFlags_xpath : (acceptFlags f).xpath = f.xpath := rfl
@[simp] theorem acceptFlags_errCode : (acceptFlags f).errCode = 0 := rfl
@[simp] theorem acceptFlags_errCause : (acceptFlags f).errCause = 0 := rfl
end acceptFlags

section ackFlags
variable (f : Flags) (v : Word)
@[simp] theorem ackFlags_done : (ackFlags f v).done = (f.done && !v.getLsbD 1) := rfl
@[simp] theorem ackFlags_err : (ackFlags f v).err = (f.err && !v.getLsbD 2) := rfl
@[simp] theorem ackFlags_ovr : (ackFlags f v).ovr = (f.ovr && !v.getLsbD 3) := rfl
@[simp] theorem ackFlags_xpath : (ackFlags f v).xpath = f.xpath := rfl
@[simp] theorem ackFlags_errCode : (ackFlags f v).errCode = if v.getLsbD 2 then 0 else f.errCode := rfl
@[simp] theorem ackFlags_errCause : (ackFlags f v).errCause = if v.getLsbD 2 then 0 else f.errCause := rfl
end ackFlags

end Sys2Proof.Machine
end

