-- ==== Sys2Proof/Laws/Claims.lean ====
section
/-! SUPPORT. What the two completions give in the words of the claims (Safety): memory read, memory written, and the rest
of the state. -/

namespace Sys2Proof.Machine

/-- What completion and reset leave in the internal registers (R53). -/
theorem zeroised_zero : Zeroised Datapath.zero := ⟨rfl, rfl, rfl, rfl, rfl, rfl, rfl⟩

/-- The bytes stand in memory exactly when a read of that many bytes gives them. -/
theorem holdsBytes_iff (m : Memory) (a : Nat) (bs : List Byte) :
    HoldsBytes m a bs ↔ memReadBytes m a bs.length = .ok bs := by
  rw [memReadBytes_ok_iff]
  exact ⟨fun h => ⟨rfl, h⟩, fun h => h.2⟩

/-- What was written stands there. -/
theorem holdsBytes_memWriteBytes (m : Memory) (a : Nat) (bs : List Byte) : HoldsBytes (memWriteBytes m a bs) a bs :=
  fun _ h => memRead_memWriteBytes_inside m a h

/-- A successful completion writes its bytes and no others (R97). -/
theorem completeOk_sameOutside (s : State) (a : Nat) (bs : List Byte) (res : Option (Word × Word)) (x : Option Bool) :
    MemorySameOutside s (completeOk s a bs res x) a bs.length :=
  fun _ h => memRead_memWriteBytes_outside s.mem h

/-- A successful completion but for memory, results and XPATH (R97). -/
theorem completeOk_completesLike (s : State) (a : Nat) (bs : List Byte) (res : Option (Word × Word)) (x : Option Bool) :
    CompletesLike s (completeOk s a bs res x) := by
  simp [CompletesLike, zeroised_zero]

/-- An error completion (R98). -/
theorem raiseError_endsInError (s : State) (e : CmdError) : EndsInError s (raiseError s e) e.code e.cause :=
  ⟨zeroised_zero, rfl⟩

end Sys2Proof.Machine
end

