-- ==== Sys2Proof/Laws/Commands.lean ====
section
/-! SUPPORT. Once, everything a command can do: it completes with a value (R96-R98), its writes lie in its destination
region, and its value is an error, a success or an unwritten byte. -/

namespace Sys2Proof.Machine

/-- What completing a command can answer (R97, R98). -/
theorem finish_next {s t : State} {r : CmdResult} (h : finish s r = .next t) :
    (∃ e, r = .err e ∧ t = raiseError s e) ∨
      ∃ a bs res x, r = .ok a bs res x ∧ t = completeOk s a bs res x := by
  cases r with
  | ok a bs res x => cases h; exact .inr ⟨a, bs, res, x, rfl, rfl⟩
  | err e => cases h; exact .inl ⟨e, rfl, rfl⟩
  | uninit a => cases h

/-- A completion never refuses, and its only fault is an unwritten byte. -/
theorem finish_stop (s : State) (r : CmdResult) :
    (∃ t, finish s r = .next t) ∨ ∃ a, r = .uninit a ∧ finish s r = .fault (.uninitRead a) := by
  cases r with
  | ok a bs res x => exact .inl ⟨_, rfl⟩
  | err e => exact .inl ⟨_, rfl⟩
  | uninit a => exact .inr ⟨a, rfl, rfl⟩

/-- The value a command completes with, for the ports attached (R96). -/
def commandValue (s : State) : Instr → CmdResult
  | .encrypt =>
    match encryptChecks s with
    | .error e => .err e
    | .ok v => encryptDrawn attachedPorts s v (attachedPorts.draw s.draws v.k)
  | .decrypt => cmdDecrypt attachedPorts s
  | .xorInto => cmdXorInto s
  | .xorWithInt => cmdXorWithInt s
  | .ctrEncode => cmdCtrEncode s
  | .ctrDecode => cmdCtrDecode s
  | .ctrIncrement => cmdCtrIncrement s
  | .padDerive => cmdPadDerive s

/-- The draws a command takes: one, for an ENCRYPT that passes the checks before it (R166, R222). -/
def commandDraws (s : State) : Instr → Nat
  | .encrypt =>
    match encryptChecks s with
    | .error _ => 0
    | .ok _ => 1
  | .decrypt => 0
  | .xorInto => 0
  | .xorWithInt => 0
  | .ctrEncode => 0
  | .ctrDecode => 0
  | .ctrIncrement => 0
  | .padDerive => 0

/-- Every command is its value, completed (R96). -/
theorem exec_eq_finish (i : Instr) (s : State) :
    exec i s = finish (spendDraws (commandDraws s i) s) (commandValue s i) := by
  cases i with
  | encrypt =>
    simp only [exec, execEncrypt, execEncryptWith, commandDraws, commandValue]
    cases encryptChecks s <;> rfl
  | decrypt => rfl
  | xorInto => rfl
  | xorWithInt => rfl
  | ctrEncode => rfl
  | ctrDecode => rfl
  | ctrIncrement => rfl
  | padDerive => rfl

/-- If a command answers a next state, it is an error completion or a successful one. -/
theorem exec_next {i : Instr} {s t : State} (h : exec i s = .next t) :
    (∃ e, commandValue s i = .err e ∧ t = raiseError (spendDraws (commandDraws s i) s) e) ∨
      ∃ a bs res x, commandValue s i = .ok a bs res x ∧
        t = completeOk (spendDraws (commandDraws s i) s) a bs res x :=
  finish_next ((exec_eq_finish i s).symm.trans h)

/-- What ENCRYPT's checks before the draw establish (R180). -/
theorem encryptChecks_ok {s : State} {v : Variant} (h : encryptChecks s = .ok v) :
    selectedVariant s = some v ∧ (srcRegion s).Valid s.build.memBytes ∧ (dstRegion s).Valid s.build.memBytes ∧
      ¬ (srcRegion s).Overlaps (dstRegion s) ∧ encryptSize v (srcRegion s).len ≤ (dstRegion s).len := by
  rw [encryptChecks] at h
  split at h
  · cases h
  · next w hw =>
    split at h
    · cases h
    · next h1 =>
      split at h
      · cases h
      · next h2 =>
        split at h
        · cases h
        · next h3 =>
          split at h
          · cases h
          · next h4 => cases h; exact ⟨hw, not_not.mp h1, not_not.mp h2, h3, not_lt.mp h4⟩

/-- What DECRYPT's checks before its read establish (R200). -/
theorem decryptChecks_ok {s : State} {v : Variant} (h : decryptChecks s = .ok v) :
    selectedVariant s = some v ∧ (srcRegion s).Valid s.build.memBytes ∧ (dstRegion s).Valid s.build.memBytes ∧
      ¬ (srcRegion s).Overlaps (dstRegion s) ∧ v.b + lastSize v ≤ (srcRegion s).len ∧
      ((srcRegion s).len - lastSize v) % v.b = 0 := by
  rw [decryptChecks] at h
  split at h
  · cases h
  · next w hw =>
    split at h
    · cases h
    · next h1 =>
      split at h
      · cases h
      · next h2 =>
        split at h
        · cases h
        · next h3 =>
          split at h
          · cases h
          · next h4 =>
            split at h
            · cases h
            · next h5 => cases h; exact ⟨hw, not_not.mp h1, not_not.mp h2, h3, not_lt.mp h4, not_not.mp h5⟩

/-- Where a successful command writes: inside its destination region, which is valid (R96); a command without one writes
nothing. -/
theorem commandValue_ok_writes {i : Instr} {s : State} {a : Nat} {bs : List Byte} {res : Option (Word × Word)}
    {x : Option Bool} (h : commandValue s i = .ok a bs res x) :
    bs = [] ∨ ∃ r, commandDst i s = some r ∧ r.Valid s.build.memBytes ∧ r.start ≤ a ∧ a + bs.length ≤ r.start + r.len := by
  cases i with
  | encrypt =>
    simp only [commandValue] at h
    split at h
    · cases h
    · next v hv =>
      obtain ⟨-, -, hdst, -, hcap⟩ := encryptChecks_ok hv
      simp only [encryptDrawn] at h
      split at h
      · cases h
      · next key _ =>
        split at h
        · cases h
        · split at h
          · cases h
          · split at h
            · cases h
            · next plain hp =>
              cases h
              refine .inr ⟨_, rfl, hdst, le_refl _, ?_⟩
              rw [length_encryptBuffer _ (fun _ => length_blockCipher _ _ _ _ _) (by simp),
                ((memReadBytes_ok_iff _ _ _ _).mp hp).1]
              omega
  | decrypt =>
    simp only [commandValue, cmdDecrypt] at h
    split at h
    · cases h
    · next v hv =>
      obtain ⟨-, -, hdst, -⟩ := decryptChecks_ok hv
      split at h
      · cases h
      · simp only [decryptRead] at h
        split at h
        · cases h
        · split at h
          · cases h
          · split at h
            · cases h
            · split at h
              · cases h
              · next hcap =>
                cases h
                refine .inr ⟨_, rfl, hdst, le_refl _, ?_⟩
                rw [length_recoveredPlain _ (fun _ => length_blockCipher _ _ _ _ _)]
                omega
  | xorInto =>
    simp only [commandValue, cmdXorInto] at h
    split at h
    · cases h
    · split at h
      · cases h
      · next hdst =>
        split at h
        · cases h
        · split at h
          · cases h
          · next d hd =>
            split at h
            · cases h
            · next c hc =>
              cases h
              have ld := ((memReadBytes_ok_iff _ _ _ _).mp hd).1
              have lc := ((memReadBytes_ok_iff _ _ _ _).mp hc).1
              refine .inr ⟨_, rfl, not_not.mp hdst, ?_, ?_⟩
              · simp only [dstRegion, xorDstWindow, xorCount]; omega
              · rw [length_xorUnit _ _ (ld.trans lc.symm), ld]
                simp only [dstRegion, xorDstWindow, xorCount]; omega
  | xorWithInt =>
    simp only [commandValue, cmdXorWithInt] at h
    split at h
    · cases h
    · split at h
      · cases h
      · next hdst =>
        split at h
        · cases h
        · split at h
          · cases h
          · next hcap =>
            split at h
            · cases h
            · next c hc =>
              cases h
              have lc := ((memReadBytes_ok_iff _ _ _ _).mp hc).1
              refine .inr ⟨_, rfl, not_not.mp hdst, le_refl _, ?_⟩
              simp only [length_xorWithIntBytes]; omega
  | ctrEncode =>
    simp only [commandValue, cmdCtrEncode] at h
    split at h
    · cases h
    · next hdst => cases h; exact .inr ⟨_, rfl, not_not.mp hdst, le_refl _, by simp⟩
  | ctrDecode =>
    simp only [commandValue, cmdCtrDecode] at h
    split at h
    · cases h
    · split at h
      · cases h
      · cases h; exact .inl rfl
  | ctrIncrement =>
    simp only [commandValue, cmdCtrIncrement] at h
    split at h
    · cases h
    · next hdst =>
      split at h
      · cases h
      · next c hc =>
        cases h
        have lc := ((memReadBytes_ok_iff _ _ _ _).mp hc).1
        refine .inr ⟨_, rfl, not_not.mp hdst, le_refl _, ?_⟩
        simp only [length_ctrIncrement]; omega
  | padDerive =>
    simp only [commandValue, cmdPadDerive] at h
    split at h
    · cases h
    · cases h; exact .inl rfl

end Sys2Proof.Machine
end

