-- ==== Sys2Proof/Laws/PerInstr.lean ====
section
/-! SUPPORT. Per-instruction laws: each command word of the opcode map decodes to its command (R81, R82). -/

namespace Sys2Proof.Laws.RoundTrip

/-- The command is well formed, its word has zero reserved bits, and the word decodes to it (R80, R82). -/
def Statement (i : Instr) : Prop :=
  i.wellFormed = true ∧ reservedField (encode i) = 0#24 ∧ decode (encode i) = .ok i

theorem encrypt : Statement .encrypt := ⟨rfl, rfl, rfl⟩

theorem decrypt : Statement .decrypt := ⟨rfl, rfl, rfl⟩

theorem xorInto : Statement .xorInto := ⟨rfl, rfl, rfl⟩

theorem xorWithInt : Statement .xorWithInt := ⟨rfl, rfl, rfl⟩

theorem ctrEncode : Statement .ctrEncode := ⟨rfl, rfl, rfl⟩

theorem ctrDecode : Statement .ctrDecode := ⟨rfl, rfl, rfl⟩

theorem ctrIncrement : Statement .ctrIncrement := ⟨rfl, rfl, rfl⟩

theorem padDerive : Statement .padDerive := ⟨rfl, rfl, rfl⟩

end Sys2Proof.Laws.RoundTrip
end

