-- ==== Sys2Proof/Laws/Step.lean ====
section
/-! SUPPORT. Once, everything a host transaction, an engine turn and a step can do. -/

namespace Sys2Proof.Machine

/-- A register access that goes through was a good one (R64). -/
theorem checkedAccess_next {off size : Nat} {r : Result} {t : State} (h : checkedAccess off size r = .next t) :
    size = 4 ∧ off % 4 = 0 ∧ off < 4096 ∧ r = .next t := by
  rw [checkedAccess] at h
  split at h
  · next h1 =>
    split at h
    · next h2 => exact ⟨h1.1, h1.2, h2, h⟩
    · cases h
  · cases h

/-- A register read that goes through broke no duty (R104). -/
theorem readAccess_next {s t u : State} {off : Nat} (h : readAccess s off u = .next t) : ¬ UnseenResult s off ∧ t = u := by
  rw [readAccess] at h
  split at h
  · cases h
  · next h1 => cases h; exact ⟨h1, rfl⟩

/-- Every next state that a host transaction gives (R64, R70, R86, R99, R104, R250). -/
theorem performOp_next {s t : State} {op : BusOp} (h : performOp s op = .next t) :
    (∃ off v, op = .regWrite off 4 v ∧ t = writeOffset s off v) ∨
      (∃ off var, op = .regRead off 4 var ∧ ¬ UnseenResult s off ∧
        t = noteReading (observe s off) var (readOffset s off)) ∨
      (∃ addr v, op = .memWrite addr v ∧ addr < s.build.memBytes ∧ ¬ InRegion (runningSrc s) addr ∧
        ¬ InRegion (runningDst s) addr ∧ t = { s with mem := memWrite s.mem addr v }) ∨
      (∃ addr var, op = .memRead addr var ∧ addr < s.build.memBytes ∧ ¬ UnseenByte s addr ∧ t = hostRead s addr var) ∨
      (∃ off mask v target, op = .poll off mask v target ∧ ¬ UnseenResult s off ∧
        t = if readOffset s off &&& mask = v then observe s off else branchHost (observe s off) target) ∨
      (op = .powerOn ∧ t = powerOnReset s) := by
  cases op with
  | regWrite off size v =>
    obtain ⟨rfl, -, -, h⟩ := checkedAccess_next h
    cases h
    exact .inl ⟨off, v, rfl, rfl⟩
  | regRead off size var =>
    obtain ⟨rfl, -, -, h⟩ := checkedAccess_next h
    exact .inr (.inl ⟨off, var, rfl, readAccess_next h⟩)
  | memWrite addr v =>
    simp only [performOp] at h
    split at h
    · cases h
    · next h1 =>
      split at h
      · cases h
      · next h2 =>
        cases h
        rw [not_or] at h2
        exact .inr (.inr (.inl ⟨addr, v, rfl, not_le.mp h1, h2.1, h2.2, rfl⟩))
  | memRead addr var =>
    simp only [performOp] at h
    split at h
    · cases h
    · next h1 =>
      split at h
      · cases h
      · next h2 => cases h; exact .inr (.inr (.inr (.inl ⟨addr, var, rfl, not_le.mp h1, h2, rfl⟩)))
  | poll off mask v target =>
    obtain ⟨-, -, -, h⟩ := checkedAccess_next h
    exact .inr (.inr (.inr (.inr (.inl ⟨off, mask, v, target, rfl, readAccess_next h⟩))))
  | powerOn => cases h; exact .inr (.inr (.inr (.inr (.inr ⟨rfl, rfl⟩))))

/-- The running command depends on the phase and the latched word alone. -/
theorem runningCommand_congr {s t : State} (hp : t.phase = s.phase) (hl : t.latched = s.latched) :
    runningCommand t = runningCommand s := by
  rw [runningCommand, runningCommand, hp, hl]

/-- The region the running command writes depends on the phase, the latched word and the operand registers alone. -/
theorem runningDst_congr {s t : State} (hp : t.phase = s.phase) (hl : t.latched = s.latched) (ho : t.opnd = s.opnd) :
    runningDst t = runningDst s := by
  rw [runningDst, runningDst, runningCommand_congr hp hl]
  congr 1
  funext i
  cases i <;> simp only [commandDst, dstRegion, ho]

/-- The same of the region it reads. -/
theorem runningSrc_congr {s t : State} (hp : t.phase = s.phase) (hl : t.latched = s.latched) (ho : t.opnd = s.opnd) :
    runningSrc t = runningSrc s := by
  rw [runningSrc, runningSrc, runningCommand_congr hp hl]
  congr 1
  funext i
  cases i <;> simp only [commandSrc, srcRegion, ho]

/-- Every next state that the host's turn gives. -/
theorem hostTurn_next {s t : State} (h : hostTurn s = .next t) :
    t = s ∨ ∃ op, s.host.ops[s.host.pos]? = some op ∧
      performOp { s with host := { s.host with pos := s.host.pos + 1 } } op = .next t := by
  rw [hostTurn] at h
  split at h
  · cases h; exact .inl rfl
  · next op hop => exact .inr ⟨op, hop, h⟩

/-- Every next state that the engine's turn gives (R82, R97, R98). -/
theorem engineTurn_next {s t : State} (h : engineTurn s = .next t) :
    (∃ i, decode s.latched = .ok i ∧ exec i s = .next t) ∨ ∃ e, t = raiseError s e := by
  rw [engineTurn] at h
  split at h
  · next i hi => exact .inl ⟨i, hi, h⟩
  · cases h; exact .inr ⟨_, rfl⟩
  · cases h; exact .inr ⟨_, rfl⟩
  · cases h; exact .inr ⟨_, rfl⟩

/-- The sequencer changes the internal registers and nothing else. -/
theorem advanceSequencer_eq (s : State) : advanceSequencer s = { s with dp := (advanceSequencer s).dp } := by
  rw [advanceSequencer]
  split <;> rfl

@[simp] theorem advanceSequencer_build (s : State) : (advanceSequencer s).build = s.build := by
  rw [advanceSequencer_eq]

@[simp] theorem advanceSequencer_ctrl (s : State) : (advanceSequencer s).ctrl = s.ctrl := by
  rw [advanceSequencer_eq]

@[simp] theorem advanceSequencer_flags (s : State) : (advanceSequencer s).flags = s.flags := by
  rw [advanceSequencer_eq]

@[simp] theorem advanceSequencer_opnd (s : State) : (advanceSequencer s).opnd = s.opnd := by
  rw [advanceSequencer_eq]

@[simp] theorem advanceSequencer_result0 (s : State) : (advanceSequencer s).result0 = s.result0 := by
  rw [advanceSequencer_eq]

@[simp] theorem advanceSequencer_result1 (s : State) : (advanceSequencer s).result1 = s.result1 := by
  rw [advanceSequencer_eq]

@[simp] theorem advanceSequencer_fill (s : State) : (advanceSequencer s).fill = s.fill := by
  rw [advanceSequencer_eq]

@[simp] theorem advanceSequencer_phase (s : State) : (advanceSequencer s).phase = s.phase := by
  rw [advanceSequencer_eq]

@[simp] theorem advanceSequencer_latched (s : State) : (advanceSequencer s).latched = s.latched := by
  rw [advanceSequencer_eq]

@[simp] theorem advanceSequencer_mem (s : State) : (advanceSequencer s).mem = s.mem := by
  rw [advanceSequencer_eq]

@[simp] theorem advanceSequencer_delay (s : State) : (advanceSequencer s).delay = s.delay := by
  rw [advanceSequencer_eq]

@[simp] theorem advanceSequencer_tie (s : State) : (advanceSequencer s).tie = s.tie := by
  rw [advanceSequencer_eq]

@[simp] theorem advanceSequencer_host (s : State) : (advanceSequencer s).host = s.host := by
  rw [advanceSequencer_eq]

@[simp] theorem advanceSequencer_unseen (s : State) : (advanceSequencer s).unseen = s.unseen := by
  rw [advanceSequencer_eq]

@[simp] theorem advanceSequencer_fresh (s : State) : (advanceSequencer s).fresh = s.fresh := by
  rw [advanceSequencer_eq]

@[simp] theorem advanceSequencer_draws (s : State) : (advanceSequencer s).draws = s.draws := by
  rw [advanceSequencer_eq]

/-- Every next state that a step gives: a turn of the host, a turn of the engine, or the one after the other. -/
theorem step_next {s t : State} (h : step s = .next t) :
    (s.phase = .idle ∧ hostTurn s = .next t) ∨
      (∃ d, s.phase = .run ∧ s.delay = d + 1 ∧ hostTurn { advanceSequencer s with delay := d } = .next t) ∨
      (s.phase = .run ∧ s.delay = 0 ∧ s.tie = true ∧
        ∃ u, hostTurn { s with tie := false } = .next u ∧
          ((u.phase = .run ∧ engineTurn u = .next t) ∨ (u.phase = .idle ∧ t = u))) ∨
      (s.phase = .run ∧ s.delay = 0 ∧ s.tie = false ∧ engineTurn s = .next t) := by
  rw [step] at h
  split at h
  · next hp => exact .inl ⟨hp, h⟩
  · next hp =>
    split at h
    · next d hd => exact .inr (.inl ⟨d, hp, hd, h⟩)
    · next hd =>
      split at h
      · next ht =>
        refine .inr (.inr (.inl ⟨hp, hd, ht, ?_⟩))
        rw [tieTurn] at h
        split at h
        · next u hu =>
          split at h
          · next hr => exact ⟨u, hu, .inl ⟨hr, h⟩⟩
          · next hi => cases h; exact ⟨_, hu, .inr ⟨hi, rfl⟩⟩
        · cases h
        · cases h
      · next ht => exact .inr (.inr (.inr ⟨hp, hd, by simpa using ht, h⟩))

end Sys2Proof.Machine
end

