-- ==== Sys2Proof/Tests/Slice0.lean ====
section
/-! SUPPORT. Tests against the spec's encodings and vectors (95_test_vectors.md), with no value taken from the model, and
a named witness for the hypotheses of every obligation that has some. -/

namespace Sys2Proof.Tests

open Sys2Proof Sys2Proof.Machine

/-! ### Helpers -/

/-- The default table with `MEM_BYTES` = 0x1000 (95_test_vectors.md, CD) and a chosen `UNALIGNED_OK`. -/
def defaultBuild (unaligned : Bool) : Build where
  variant0 := some ⟨16, 16⟩
  variant1 := some ⟨16, 24⟩
  variant2 := some ⟨16, 32⟩
  variant3 := none
  k0Byte := 0x00
  decodeBytes := 8
  wordBytes := 8
  unalignedOk := unaligned
  memBytes := 0x1000
  regBase := 0x40000000
  memBase := 0x80000000

/-- One variant `(b, k)` only, as in the toy configurations (95_test_vectors.md, CT). -/
def toyBuild (b k : Nat) (k0 : Byte) : Build :=
  { defaultBuild false with
    variant0 := some ⟨b, k⟩
    variant1 := none
    variant2 := none
    k0Byte := k0 }

/-- An idle engine with a build, memory contents and operand registers. -/
def engine (c : Build) (m : Memory) (o : Operands) : State := { State.reset with build := c, mem := m, opnd := o }

/-- The same engine with a command accepted and due to complete in the next step. -/
def running (w : Word) (s : State) : State := { accepted w s with delay := 0, tie := false }

/-- The engine with a host program. -/
def hosting (ops : List BusOp) (s : State) : State := { s with host := ⟨ops, 0, []⟩ }

/-- A register of the state a step or command gives. -/
def regOf : Result → Nat → Option Word
  | .next t, off => some (readOffset t off)
  | .fault _, _ => none
  | .refused _, _ => none

/-- `n` bytes of memory of the state a step or command gives. -/
def bytesOf : Result → Nat → Nat → List (Option Byte)
  | .next t, a, n => (List.range n).map fun j => memRead t.mem (a + j)
  | .fault _, _, _ => []
  | .refused _, _, _ => []

/-- The toy cipher (95_test_vectors.md, TOY(b, k)): `E(K, x)[j] = x[(j+1) mod b] XOR Kp[j] XOR j`. -/
def toyCipher (b : Nat) (_ : BitVec 2) (key x : List Byte) : Vector Byte b :=
  ⟨((List.range b).map fun j => x.getD ((j + 1) % b) 0 ^^^ (xorIntoBytes (zeros b) key).getD j 0 ^^^ BitVec.ofNat 8 j).toArray,
    by simp⟩

/-- Ports with the toy cipher and a random source that answers one key; it fails for any other length. -/
def toyPorts (key : List Byte) : Ports where
  encipher := toyCipher
  accepts := fun _ k => !k.all fun x => x == 0xFF#8
  draw := fun _ k => if h : key.length = k then some ⟨key.toArray, by simpa using h⟩ else none

/-! ### Well-formedness: an ill-formed term for each check -/

theorem test_wf_commands :
    [Instr.encrypt, .decrypt, .xorInto, .xorWithInt, .ctrEncode, .ctrDecode, .ctrIncrement, .padDerive].all
      Instr.wellFormed = true := by decide

theorem test_wf_build : (defaultBuild false).wellFormed = true ∧ (toyBuild 4 6 0x5A).wellFormed = true := by decide

theorem test_wf_variant_bounds :
    Variant.wellFormed ⟨1, 1⟩ = true ∧ Variant.wellFormed ⟨255, 255⟩ = true ∧ Variant.wellFormed ⟨0, 16⟩ = false ∧
      Variant.wellFormed ⟨256, 16⟩ = false ∧ Variant.wellFormed ⟨16, 0⟩ = false ∧
      Variant.wellFormed ⟨16, 256⟩ = false := by decide

theorem test_wf_each_table_entry :
    { defaultBuild false with variant0 := some ⟨0, 16⟩ }.wellFormed = false ∧
      { defaultBuild false with variant1 := some ⟨0, 16⟩ }.wellFormed = false ∧
      { defaultBuild false with variant2 := some ⟨0, 16⟩ }.wellFormed = false ∧
      { defaultBuild false with variant3 := some ⟨0, 16⟩ }.wellFormed = false := by decide

theorem test_wf_build_bounds :
    { defaultBuild false with wordBytes := 1 }.wellFormed = false ∧
      { defaultBuild false with wordBytes := 6 }.wellFormed = false ∧
      { defaultBuild false with memBase := 0x80000004 }.wellFormed = false ∧
      { defaultBuild false with decodeBytes := 0 }.wellFormed = false ∧
      { defaultBuild false with memBytes := 0 }.wellFormed = false ∧
      { defaultBuild false with memBytes := 4294967297 }.wellFormed = false := by decide

theorem test_wf_transactions :
    BusOp.wellFormed 0x1000 3 (.regWrite 0xFFC 4 0) = true ∧ BusOp.wellFormed 0x1000 3 (.regWrite 0x000 2 0) = false ∧
      BusOp.wellFormed 0x1000 3 (.regRead 0x002 4 0) = false ∧ BusOp.wellFormed 0x1000 3 (.regRead 0x1000 4 0) = false ∧
      BusOp.wellFormed 0x1000 3 (.memWrite 0xFFF 0) = true ∧ BusOp.wellFormed 0x1000 3 (.memWrite 0x1000 0) = false ∧
      BusOp.wellFormed 0x1000 3 (.memRead 0x1000 0) = false ∧ BusOp.wellFormed 0x1000 3 (.poll 0x010 0 0 3) = false ∧
      BusOp.wellFormed 0x1000 3 (.poll 0x011 0 0 0) = false ∧ BusOp.wellFormed 0x1000 3 .powerOn = true := by decide

/-! ### Decoding: the words of R81, bit by bit -/

theorem test_decode_encrypt : decode 0b00000000000000000000000000000001#32 = .ok .encrypt := by decide
theorem test_decode_decrypt : decode 0b00000000000000000000000000000010#32 = .ok .decrypt := by decide
theorem test_decode_xor_into : decode 0b00000000000000000000000000010000#32 = .ok .xorInto := by decide
theorem test_decode_xor_with_int : decode 0b00000000000000000000000000010001#32 = .ok .xorWithInt := by decide
theorem test_decode_ctr_encode : decode 0b00000000000000000000000000100000#32 = .ok .ctrEncode := by decide
theorem test_decode_ctr_decode : decode 0b00000000000000000000000000100001#32 = .ok .ctrDecode := by decide
theorem test_decode_ctr_increment : decode 0b00000000000000000000000000100010#32 = .ok .ctrIncrement := by decide
theorem test_decode_pad_derive : decode 0b00000000000000000000000000110000#32 = .ok .padDerive := by decide

/-- CW1 to CW4. -/
theorem test_decode_illegal :
    decode 0x00000000#32 = .illegalOpcode ∧ decode 0x00000101#32 = .reservedBits ∧
      decode 0x000000FF#32 = .illegalOpcode ∧ decode 0x80000030#32 = .reservedBits := by decide

/-- R63: lane 0 carries bits 7:0; R80: a command is one word. -/
theorem test_decode_lanes :
    decodeBytes [0x22, 0x00, 0x00, 0x00] = .ok .ctrIncrement ∧ decodeBytes [0x00, 0x00, 0x00, 0x22] = .illegalOpcode ∧
      decodeBytes [0x22] = .notOneWord ∧ decodeTableWord 32 0x30 = some .padDerive ∧
      decodeTableWord 32 0x130 = none := by decide

/-! ### The commands, on the vectors of 95_test_vectors.md -/

/-- PD5: L = 17, b = 16. -/
theorem test_pad_derive :
    let r := exec .padDerive (engine (defaultBuild false) [] ⟨0, 17, 0, 0, 0, 0⟩)
    regOf r 0x02C = some 15 ∧ regOf r 0x030 = some 2 ∧ regOf r 0x010 = some 0x00000002#32 := by decide

/-- PD14: with b = 1 and L = 2^32 - 1, RESULT1 wraps to 0. PD16: an unsupported variant. -/
theorem test_pad_derive_edges :
    regOf (exec .padDerive (engine (toyBuild 1 1 0) [] ⟨0, 0xFFFFFFFF, 0, 0, 0, 0⟩)) 0x030 = some 0 ∧
      regOf (exec .padDerive { engine (defaultBuild false) [] ⟨0, 5, 0, 0, 0, 0⟩ with ctrl := ⟨3, false, false⟩ }) 0x010 =
        some 0x00001406#32 := by decide

/-- CE4: the encoding is truncated to two bytes; CE8: no byte. -/
theorem test_ctr_encode :
    bytesOf (exec .ctrEncode (engine (defaultBuild false) [] ⟨0, 0, 0x100, 2, 0x123456, 0⟩)) 0x100 3 =
        [some 0x34, some 0x56, none] ∧
      bytesOf (exec .ctrEncode (engine (defaultBuild false) [] ⟨0, 0, 0x100, 0, 5, 0⟩)) 0x100 1 = [none] := by decide

/-- CE9: both argument words; CE12: RANGE 2. -/
theorem test_ctr_encode_edges :
    bytesOf (exec .ctrEncode (engine (defaultBuild false) [] ⟨0, 0, 0xFF8, 8, 0x05060708, 0x01020304⟩)) 0xFF8 8 =
        [some 1, some 2, some 3, some 4, some 5, some 6, some 7, some 8] ∧
      regOf (exec .ctrEncode (engine (defaultBuild false) [] ⟨0, 0, 0xFF0, 0x20, 7, 0⟩)) 0x010 = some 0x00002506#32 := by
  decide

/-- CD6: ten bytes, of which the last eight count. -/
theorem test_ctr_decode :
    let r := exec .ctrDecode (engine (defaultBuild false) (memWriteBytes [] 0x20 [1, 2, 3, 4, 5, 6, 7, 8, 9, 10])
      ⟨0x20, 10, 0, 0, 0, 0⟩)
    regOf r 0x02C = some 0x0708090A#32 ∧ regOf r 0x030 = some 0x03040506#32 := by decide

/-- CD9: RANGE 1; R62: an unwritten byte stops the run. -/
theorem test_ctr_decode_edges :
    regOf (exec .ctrDecode (engine (defaultBuild false) [] ⟨0xFFF, 2, 0, 0, 0, 0⟩)) 0x010 = some 0x00001506#32 ∧
      (match exec .ctrDecode (engine (defaultBuild false) [(0xFFE, 1)] ⟨0xFFE, 2, 0, 0, 0, 0⟩) with
        | .fault f => decide (f = .uninitRead 0xFFF)
        | _ => false) = true := by decide

/-- CI8: the carry runs to the first byte that is not 0xFF. -/
theorem test_ctr_increment :
    bytesOf (exec .ctrIncrement (engine (defaultBuild false) (memWriteBytes [] 0x40 [0, 0, 0xFF, 0xFF, 0xFF, 0xFF])
        ⟨0, 0, 0x40, 6, 0, 0⟩)) 0x40 6 =
      [some 0, some 1, some 0, some 0, some 0, some 0] := by decide

/-- CI5: a wrap is not reported. -/
theorem test_ctr_increment_wraps :
    let r := exec .ctrIncrement (engine (defaultBuild false) (memWriteBytes [] 0x40 [0xFF, 0xFF]) ⟨0, 0, 0x40, 2, 0, 0⟩)
    bytesOf r 0x40 2 = [some 0, some 0] ∧ regOf r 0x010 = some 0x00000002#32 := by decide

/-- The memory of the path vectors XP1 to XP8. -/
def pathMemory : Memory :=
  memWriteBytes (memWriteBytes [] 0x200 ((List.range 24).map (BitVec.ofNat 8))) 0x300
    ((List.range 16).map fun j => BitVec.ofNat 8 (0x40 + j))

/-- XP1 (word path) and XP2 (the source window is not aligned). -/
theorem test_xor_into :
    let r := exec .xorInto (engine (defaultBuild false) pathMemory ⟨0x300, 8, 0x200, 16, 0, 0⟩)
    let q := exec .xorInto (engine (defaultBuild false) pathMemory ⟨0x301, 8, 0x200, 16, 0, 0⟩)
    regOf r 0x010 = some 0x00000012#32 ∧ bytesOf r 0x206 4 = [some 6, some 7, some 0x48, some 0x48] ∧
      regOf q 0x010 = some 0x00000002#32 ∧
      bytesOf q 0x208 8 = [some 0x49, some 0x4B, some 0x49, some 0x4F, some 0x49, some 0x4B, some 0x49, some 0x47] := by
  decide

/-- XP6 (unaligned windows allowed), XE3 (empty regions at the top) and XE4 (overlap). -/
theorem test_xor_into_edges :
    regOf (exec .xorInto (engine (defaultBuild true) pathMemory ⟨0x301, 8, 0x201, 16, 0, 0⟩)) 0x010 =
        some 0x00000012#32 ∧
      regOf (exec .xorInto (engine (defaultBuild false) [] ⟨0x1000, 0, 0x1000, 0, 0, 0⟩)) 0x010 =
        some 0x00000002#32 ∧
      regOf (exec .xorInto (engine (defaultBuild false) [] ⟨0x100, 8, 0x104, 8, 0, 0⟩)) 0x010 =
        some 0x00001606#32 := by decide

/-- XI4: four bytes with a five-byte integer. -/
theorem test_xor_with_int :
    bytesOf (exec .xorWithInt (engine (defaultBuild false) (memWriteBytes [] 0x10 [0xAA, 0xBB, 0xCC, 0xDD])
        ⟨0x10, 4, 0x20, 4, 0x22334455, 0x11⟩)) 0x20 4 =
      [some 0x88, some 0x88, some 0x88, some 0x88] := by decide

/-- XE7: in place; XE5: CAPACITY 1; XE6: OVERLAP 1. -/
theorem test_xor_with_int_edges :
    bytesOf (exec .xorWithInt (engine (defaultBuild false) (memWriteBytes [] 0 (zeros 8)) ⟨0, 8, 0, 8, 1, 0⟩)) 6 2 =
        [some 0, some 1] ∧
      regOf (exec .xorWithInt (engine (defaultBuild false) [] ⟨0, 8, 0x100, 7, 1, 0⟩)) 0x010 = some 0x00001706#32 ∧
      regOf (exec .xorWithInt (engine (defaultBuild false) [] ⟨0, 8, 4, 8, 1, 0⟩)) 0x010 = some 0x00001606#32 := by
  decide

/-- The engine of vector T4: TOY(4,6), P = c1c2c3, key a0a1a2a3a4a5. -/
def encryptEngine : State :=
  engine (toyBuild 4 6 0x5A) (memWriteBytes [] 0x10 [0xC1, 0xC2, 0xC3]) ⟨0x10, 3, 0x100, 32, 0, 0⟩

/-- T4: k > b. -/
theorem test_encrypt :
    let r := execEncryptWith (toyPorts [0xA0, 0xA1, 0xA2, 0xA3, 0xA4, 0xA5]) encryptEngine
    bytesOf r 0x100 15 =
        [some 0x63, some 0x60, some 0x64, some 0xA6, some 0xA2, some 0xA2, some 0xA4, some 0xA7, some 0xA0, some 0xA1,
          some 0x60, some 0x63, some 0xA6, some 0x64, none] ∧
      regOf r 0x02C = some 14 ∧ regOf r 0x030 = some 3 ∧ regOf r 0x010 = some 0x00000002#32 := by decide

/-- EE2, EE4, EE5 (ENTROPY), EE7 and EE8 (CIPHER_INIT). -/
theorem test_encrypt_errors :
    regOf (exec .encrypt (engine (defaultBuild false) [] ⟨0, 0, 0x100, 47, 0, 0⟩)) 0x010 = some 0x00001706#32 ∧
      regOf (exec .encrypt (engine (defaultBuild false) [] ⟨0, 16, 8, 64, 0, 0⟩)) 0x010 = some 0x00001606#32 ∧
      regOf (execEncryptWith (toyPorts []) (engine (defaultBuild false) [] ⟨0, 4, 0x100, 64, 0, 0⟩)) 0x010 =
        some 0x00001806#32 ∧
      regOf (execEncryptWith (toyPorts (rep 4 0xFF)) (engine (toyBuild 4 4 0x5A) [] ⟨0, 4, 0x100, 64, 0, 0⟩)) 0x010 =
        some 0x00001206#32 ∧
      regOf (execEncryptWith (toyPorts (rep 4 0x01)) (engine (toyBuild 4 4 0xFF) [] ⟨0, 4, 0x100, 64, 0, 0⟩)) 0x010 =
        some 0x00002206#32 := by decide

/-- A toy engine with a segment buffer to decrypt (CT). -/
def decryptEngine (buffer : List Byte) : State :=
  engine (toyBuild 4 4 0x5A) (memWriteBytes [] 0x100 buffer) ⟨0x100, BitVec.ofNat 32 buffer.length, 0x200, 16, 0, 0⟩

/-- T3: OUT gives back 1011121314; DE6: a corrupted last segment decrypts to other bytes. -/
theorem test_decrypt :
    let r := execDecryptWith (toyPorts [])
      (decryptEngine [0x11, 0x12, 0x12, 0x14, 0x15, 0x03, 0x03, 0x07, 0x01, 0x03, 0x02, 0x04, 0x49, 0x4A, 0x4C, 0x58])
    let q := execDecryptWith (toyPorts [])
      (decryptEngine [0x40, 0x42, 0x41, 0x46, 0x01, 0x03, 0x03, 0x07, 0x01, 0x03, 0x02, 0x03, 0x19, 0x19, 0x19, 0x1B])
    bytesOf r 0x200 6 = [some 0x10, some 0x11, some 0x12, some 0x13, some 0x14, none] ∧ regOf r 0x02C = some 5 ∧
      regOf r 0x030 = some 3 ∧
      bytesOf q 0x200 7 = [some 0x41, some 0x41, some 0x41, some 0x47, some 0x00, some 0x00, none] ∧
      regOf q 0x02C = some 6 ∧ regOf q 0x030 = some 2 := by decide

/-- DE1, DE2, DE4 and DE7. -/
theorem test_decrypt_errors :
    regOf (exec .decrypt (engine (toyBuild 4 4 0x5A) [] ⟨0, 7, 0x200, 16, 0, 0⟩)) 0x010 = some 0x00001106#32 ∧
      regOf (exec .decrypt (engine (toyBuild 4 4 0x5A) [] ⟨0, 15, 0x200, 16, 0, 0⟩)) 0x010 = some 0x00002106#32 ∧
      regOf (execDecryptWith (toyPorts []) (decryptEngine [0x40, 0x42, 0x41, 0x46, 0x19, 0x19, 0x19, 0x1D])) 0x010 =
        some 0x00003106#32 ∧
      regOf (execDecryptWith (toyPorts [])
          (decryptEngine [0x40, 0x42, 0x41, 0x46, 0x01, 0x03, 0x03, 0x07, 0x01, 0x03, 0x02, 0x03, 0xE7, 0xE4, 0xE5, 0xE6]))
          0x010 = some 0x00001206#32 := by decide

/-- R49: T4 with both its segments masked and hashed (key, pNum, s = 1, H of the vector), before the draw, and with its
key drawn; DE6 once its marker block is unmasked (key recovered as 01020302, pNum = 2). -/
theorem test_internal_registers :
    let p := toyPorts [0xA0, 0xA1, 0xA2, 0xA3, 0xA4, 0xA5]
    let d := sequencerAt p .encrypt encryptEngine 3
    let q := sequencerAt (toyPorts []) .decrypt
      (decryptEngine [0x40, 0x42, 0x41, 0x46, 0x01, 0x03, 0x03, 0x07, 0x01, 0x03, 0x02, 0x03, 0x19, 0x19, 0x19, 0x1B]) 6
    (d.key = 0xA0A1A2A3A4A5 ∧ d.pnum = 1 ∧ d.hacc = 0xC2C002C1 ∧ d.ctr = 2 ∧ d.index = 2) ∧
      (sequencerAt p .encrypt encryptEngine 0).key = 0 ∧ (sequencerAt p .encrypt encryptEngine 1).key = 0xA0A1A2A3A4A5 ∧
      q.key = 0x01020302 ∧ q.pnum = 2 := by decide +kernel

/-! ### Registers, reset and the cycle -/

/-- PD1 as the first command after reset: L = 0 on the default table. -/
theorem test_first_command_after_reset :
    regOf (step (State.reset.withFetchWord 32 0x30)) 0x02C = some 16 ∧
      regOf (step (State.reset.withFetchWord 32 0x30)) 0x030 = some 1 := by decide

/-- RS1: registers after reset that no OPEN parameter enters. -/
theorem test_reset_registers :
    readOffset State.reset 0x000 = 0x414F4E54#32 ∧ readOffset State.reset 0x004 = 0x00010000#32 ∧
      readOffset State.reset 0x010 = 0 ∧ readOffset State.reset 0x034 = 0x00101010#32 ∧
      readOffset State.reset 0x040 = 0x07080008#32 ∧ readOffset State.reset 0xFFC = 0 := by decide

/-- RS2 and RS3: VARINFO follows CTRL; a write of CTRL with bit 31 discards the other bits. -/
theorem test_ctrl_writes :
    regOf (performOp (engine (defaultBuild false) [] Operands.reset) (.regWrite 0x008 4 0x00000001#32)) 0x034 =
        some 0x00181810#32 ∧
      regOf (performOp (engine (defaultBuild false) [] Operands.reset) (.regWrite 0x008 4 0x00000003#32)) 0x034 =
        some 0 ∧
      regOf (performOp (engine (defaultBuild false) [] Operands.reset) (.regWrite 0x008 4 0x8000000F#32)) 0x008 =
        some 0 := by decide

/-- CW1 and CW2 with the step that completes them. -/
theorem test_illegal_words :
    regOf (step (running 0x00000000#32 (engine (defaultBuild false) [] Operands.reset))) 0x010 = some 0x00001306#32 ∧
      regOf (step (running 0x00000101#32 (engine (defaultBuild false) [] Operands.reset))) 0x010 =
        some 0x00002306#32 := by decide

/-- CW5 and CW6. -/
theorem test_status_acks :
    let s := { engine (defaultBuild false) [] Operands.reset with flags := ⟨true, true, true, false, 3, 1⟩ }
    regOf (performOp s (.regWrite 0x010 4 0x00000004#32)) 0x010 = some 0x0000000A#32 ∧
      regOf (performOp s (.regWrite 0x010 4 0x0000000E#32)) 0x010 = some 0 := by decide

/-- R104: CTR_ENCODE has completed over 0x200..0x23F and the host has not observed it; a read of its destination and of
RESULT0 is a fault, a read of STATUS is none and ends the duty, and so does a reset. -/
theorem test_completion_duty :
    let s := { engine (defaultBuild false) [(0x200, 7)] Operands.reset with
      unseen := [some ⟨0x200, 64⟩], flags := ⟨true, false, false, false, 0, 0⟩ }
    let after := fun op => match performOp s op with
      | .next t => performOp t (.memRead 0x200 0)
      | .fault f => .fault f
      | .refused r => .refused r
    let faultOf := fun r : Result => match r with
      | .fault f => some f
      | _ => none
    faultOf (performOp s (.memRead 0x23F 0)) = some (.unseenByte 0x23F) ∧
      faultOf (performOp s (.memRead 0x240 0)) = none ∧
      faultOf (performOp s (.regRead 0x02C 4 0)) = some (.unseenResult 0x02C) ∧
      faultOf (performOp s (.poll 0x030 0 1 0)) = some (.unseenResult 0x030) ∧
      faultOf (after (.regRead 0x018 4 0)) = some (.unseenByte 0x200) ∧ faultOf (after (.regRead 0x010 4 0)) = none ∧
      faultOf (after (.poll 0x010 0x2 0x2 0)) = none ∧ faultOf (after (.regWrite 0x008 4 0x80000000#32)) = none := by
  decide

/-- R87: the transactions of P1's CTR_ENCODE statement. -/
theorem test_assemble :
    assemble [⟨none, .wrm 0x200 [0xAA]⟩, ⟨some 7, .call .ctrEncode 0 0 0x100 16 (some 2)⟩, ⟨none, .poll .result0 0xFF 0 (.label 7)⟩] =
      some [.memWrite 0x200 0xAA, .regWrite 0x014 4 0, .regWrite 0x018 4 0, .regWrite 0x01C 4 0x100,
        .regWrite 0x020 4 0x10, .regWrite 0x024 4 2, .regWrite 0x028 4 0, .regWrite 0x00C 4 0x20,
        .poll 0x010 2 2 8, .poll 0x02C 0xFF 0 1] := by decide

/-- R88. -/
theorem test_disassemble :
    disassemble 0x00000022#32 = "CTR_INCREMENT" ∧ disassemble 0x00000101#32 = ".illegal 0x00000101" := by decide

/-- R88 with R86's third column: a register write, and the register reads of `rd` and of `poll`. -/
theorem test_transaction_text :
    transactionText (.regWrite 0x010 4 0x0000000E#32) = some "wr STATUS, 0x0000000e" ∧
      transactionText (.regRead 0x02C 4 1) = some "rd RESULT0 -> 0x00000001" ∧
      transactionText (.poll 0x010 0x00000002#32 0x00000002#32 8) = some "rd STATUS -> _" := by decide

/-! ### Witnesses: each one meets all the hypotheses of the obligation it is named after -/

/-- An idle engine with bytes 1..16 at 0x100, and four registers that make every region below valid. -/
def idleEngine : State :=
  engine (defaultBuild false) (memWriteBytes [] 0x100 ((List.range 16).map fun j => BitVec.ofNat 8 (j + 1)))
    ⟨0x100, 16, 0x200, 64, 5, 0⟩

/-- It runs CTR_INCREMENT over 0x200..0x23F. -/
def busyEngine : State := running (encode .ctrIncrement) idleEngine

/-- It runs XOR_INTO from 0x100..0x10F into 0x200..0x23F. -/
def xoringEngine : State := running (encode .xorInto) idleEngine

theorem witness_step_runs_the_decoded_command :
    ∃ (s : State) (i : Instr), s.phase = .run ∧ s.delay = 0 ∧ s.tie = false ∧ decode s.latched = .ok i :=
  ⟨busyEngine, .ctrIncrement, by decide⟩

theorem witness_step_takes_the_hosts_turn :
    (∃ s : State, s.phase = .idle) ∧ (∃ s : State, s.phase = .run ∧ s.delay = 2 + 1) ∧
      (∃ s u : State, s.phase = .run ∧ s.delay = 0 ∧ s.tie = true ∧ hostTurn { s with tie := false } = .next u ∧ u.phase = .run) ∧
      (∃ s u : State, s.phase = .run ∧ s.delay = 0 ∧ s.tie = true ∧ hostTurn { s with tie := false } = .next u ∧
        u.phase = .idle) ∧
      (∃ (s : State) (op : BusOp), s.host.ops[s.host.pos]? = some op) ∧ ∃ s : State, s.host.ops[s.host.pos]? = none :=
  ⟨⟨idleEngine, rfl⟩, ⟨{ busyEngine with delay := 3 }, rfl, rfl⟩,
    ⟨{ busyEngine with tie := true }, _, rfl, rfl, rfl, rfl, rfl⟩,
    ⟨hosting [.powerOn] { busyEngine with tie := true }, _, rfl, rfl, rfl, rfl, rfl⟩,
    ⟨hosting [.powerOn] idleEngine, .powerOn, rfl⟩, ⟨idleEngine, rfl⟩⟩

theorem witness_command_words_run_or_error :
    (∃ s : State, s.phase = .idle) ∧
      (∀ w : Word, (running w idleEngine).phase = .run ∧ (running w idleEngine).delay = 0 ∧
        (running w idleEngine).tie = false ∧ (running w idleEngine).latched = w) ∧
      [0x00000000#32, 0x000000FF#32, 0xFFFFFFFF#32].all (fun w => decide (w.toNat % 256 ∉ opcodeValues)) = true ∧
      [0x00000101#32, 0x80000030#32].all (fun w => decide (w.toNat % 256 ∈ opcodeValues ∧ w.toNat / 256 ≠ 0)) = true ∧
      busyEngine.latched = encode .ctrIncrement :=
  ⟨⟨idleEngine, rfl⟩, fun _ => ⟨rfl, rfl, rfl, rfl⟩, by decide, by decide, rfl⟩

theorem witness_cmd_register : busyEngine.phase = .run ∧ idleEngine.phase = .idle := ⟨rfl, rfl⟩

theorem witness_running_command_keeps_its_inputs :
    ∃ t, xoringEngine.phase = .run ∧ performOp xoringEngine (.regWrite 0x018 4 5) = .next t ∧ t.phase = .run ∧
      InRegion (runningSrc xoringEngine) 0x10F ∧ InRegion (runningDst xoringEngine) 0x23F :=
  ⟨_, rfl, rfl, rfl, by decide, by decide⟩

theorem witness_overrun_flag :
    busyEngine.phase = .run ∧ (∃ t, exec .ctrEncode idleEngine = .next t) ∧
      (∀ op ∈ [BusOp.regWrite 0x010 4 0x8#32, .regWrite 0x008 4 0x80000000#32, .powerOn],
        ∃ t, performOp { busyEngine with flags := { busyEngine.flags with ovr := true } } op = .next t ∧
          t.flags.ovr = false) := by
  refine ⟨rfl, ⟨_, rfl⟩, fun op hop => ?_⟩
  simp only [List.mem_cons, List.not_mem_nil, or_false] at hop
  rcases hop with rfl | rfl | rfl <;> exact ⟨_, rfl, rfl⟩

theorem witness_running_command_completes : ∃ s : State, s.phase = .run ∧ s.delay = 7 :=
  ⟨{ busyEngine with delay := 7 }, rfl, rfl⟩

/-- One engine for each clause: STATUS, CTRL with bit 31, and CMD written in the step of the completion. -/
theorem witness_simultaneous_events :
    ∀ op ∈ [BusOp.regWrite 0x010 4 0x2#32, .regWrite 0x008 4 0x80000000#32, .regWrite 0x00C 4 0x30#32],
      ∃ s t : State, s.phase = .run ∧ s.delay = 0 ∧ s.tie = true ∧ s.host.ops[s.host.pos]? = some op ∧ step s = .next t := by
  intro op hop
  simp only [List.mem_cons, List.not_mem_nil, or_false] at hop
  rcases hop with rfl | rfl | rfl
  · exact ⟨hosting [.regWrite 0x010 4 0x2#32] { running 0x20#32 idleEngine with tie := true }, _, rfl, rfl, rfl, rfl, rfl⟩
  · exact ⟨hosting [.regWrite 0x008 4 0x80000000#32] { running 0x20#32 idleEngine with tie := true }, _, rfl, rfl, rfl,
      rfl, rfl⟩
  · exact ⟨hosting [.regWrite 0x00C 4 0x30#32] { running 0x20#32 idleEngine with tie := true }, _, rfl, rfl, rfl, rfl,
      rfl⟩

theorem witness_status_and_ctrl_bits :
    (0xFFFFFFFB#32).getLsbD 2 = false ∧ (0x00000004#32).getLsbD 2 = true ∧ (0x7FFFFFFF#32).getLsbD 31 = false ∧
      (0x80000000#32).getLsbD 31 = true := by decide

theorem witness_operand_registers_read_back :
    idleEngine.phase = .idle ∧ ∀ off ∈ [0x014, 0x028, 0x038], off ∈ [0x014, 0x018, 0x01C, 0x020, 0x024, 0x028, 0x038] :=
  ⟨rfl, by decide⟩

/-- An idle engine with a completion over 0x200..0x23F that the host has not observed. -/
def unseenEngine : State := { idleEngine with unseen := [some ⟨0x200, 64⟩] }

theorem witness_reserved_and_read_only :
    (∀ off ∈ [0x044, 0xFFC], off % 4 = 0 ∧ 0x044 ≤ off ∧ off ≤ 0xFFC) ∧ 0x040 % 4 = 0 ∧ 0x040 ≤ 0xFFC ∧
      0x040 ∈ [0x000, 0x004, 0x02C, 0x030, 0x034, 0x03C, 0x040] := by decide

/-- The reads that go through: while busy, with nothing to observe, and at another register; and the ones that do not. -/
theorem witness_register_reads :
    busyEngine.phase = .run ∧ idleEngine.unseen = [] ∧ 0x010 ∉ [0x02C, 0x030] ∧ 0x034 ∉ [0x02C, 0x030] ∧
      unseenEngine.phase = .idle ∧ unseenEngine.unseen ≠ [] ∧ 0x02C ∈ [0x02C, 0x030] ∧ 0x030 ∈ [0x02C, 0x030] := by
  decide

theorem witness_varinfo_register :
    (∃ (s : State) (v : Variant), selectedVariant s = some v ∧ v.b ≤ 255 ∧ v.k ≤ 255 ∧ v.b = 255) ∧
      (∃ s : State, selectedVariant s = none) ∧ State.reset.build = Config.build ∧ State.reset.ctrl.variant = 0#2 :=
  ⟨⟨engine (toyBuild 255 255 0) [] Operands.reset, ⟨255, 255⟩, by decide⟩,
    ⟨{ idleEngine with ctrl := ⟨3, false, false⟩ }, by decide⟩, rfl, rfl⟩

theorem witness_caps_register :
    idleEngine.build.wordBytes ≤ 255 ∧ idleEngine.build.decodeBytes ≤ 255 ∧ State.reset.build = Config.build :=
  ⟨by decide, by decide, rfl⟩

theorem witness_irq_follows_done :
    (∃ t, exec .padDerive idleEngine = .next t) ∧
      ∃ t, performOp idleEngine (.regWrite 0x010 4 0x2#32) = .next t ∧ (0x2#32).getLsbD 1 = true :=
  ⟨⟨_, rfl⟩, _, rfl, by decide⟩

theorem witness_reset_table :
    (0x80000000#32).getLsbD 31 = true ∧ ¬ InRegion (runningDst busyEngine) 0x1FF ∧ ¬ InRegion (runningDst busyEngine) 0x240 := by
  decide

theorem witness_soft_reset_aborts_the_command :
    idleEngine.phase = .idle ∧ ¬ InRegion (runningDst busyEngine) 0x1FF ∧
      runningDst busyEngine = some ⟨0x200, 64⟩ ∧ 63 < 64 ∧ 0x200 + 63 < busyEngine.build.memBytes := by decide

theorem witness_completion_and_reset_zeroise :
    (∃ t, exec .padDerive idleEngine = .next t) ∧ ∃ t, engineTurn (running 0x20#32 idleEngine) = .next t :=
  ⟨⟨_, rfl⟩, _, rfl⟩

theorem witness_padding_laws : 1 ≤ 1 ∧ 1 ≤ 255 ∧ 1 ∣ 0 ∧ 255 ∣ 510 := by decide

theorem witness_counter_codec : 0 < (ctrEncode 256 2).length ∧ (0xFE#8 : Byte) ≠ 0xFF#8 ∧ 1 ≤ 1 := by decide

theorem witness_xor_into_is_trailing_aligned :
    let dst : List Byte := [1, 2, 3]
    let src : List Byte := [4, 5]
    (0 < dst.length ∧ 0 < dst.length - min dst.length src.length) ∧
      (dst.length - min dst.length src.length + 1 < dst.length ∧ src.length - min dst.length src.length + 1 < src.length) ∧
      ([1] : List Byte).length = ([4] : List Byte).length := by decide

theorem witness_xor_with_int : 255 < 256 := by decide

theorem witness_xor_paths_agree : (rep 17 1).length = (rep 17 2).length := by decide

theorem witness_encrypt_layout :
    ∃ (enc : List Byte → List Byte) (v : Variant) (key : List Byte),
      1 ≤ v.b ∧ (∀ x, (enc x).length = v.b) ∧ key.length = v.k ∧ v.b < v.k :=
  ⟨fun _ => zeros 4, ⟨4, 6⟩, zeros 6, by decide, fun _ => rfl, rfl, by decide⟩

theorem witness_pad_derive_command :
    selectedVariant idleEngine = some ⟨16, 16⟩ ∧
      selectedVariant { idleEngine with ctrl := ⟨3, false, false⟩ } = none := by decide

/-- A destination region that ends at `MEM_BYTES`, and one that ends one byte beyond it; so for the source. -/
theorem witness_counter_commands :
    let good := engine (defaultBuild false) (memWriteBytes [] 0xFFE [1, 2]) ⟨0xFFE, 2, 0xFFE, 2, 7, 0⟩
    let bad := engine (defaultBuild false) [] ⟨0xFFE, 3, 0xFFE, 3, 7, 0⟩
    (dstRegion good).Valid good.build.memBytes ∧ (srcRegion good).Valid good.build.memBytes ∧
      ¬ (dstRegion bad).Valid bad.build.memBytes ∧ ¬ (srcRegion bad).Valid bad.build.memBytes ∧
      ([1, 2] : List Byte).length = (srcRegion good).len ∧ ([1, 2] : List Byte).length = (dstRegion good).len ∧
      HoldsBytes good.mem (srcRegion good).start [1, 2] ∧ HoldsBytes good.mem (dstRegion good).start [1, 2] := by
  refine ⟨by decide, by decide, by decide, by decide, by decide, by decide, ?_, ?_⟩ <;>
    exact (holdsBytes_iff _ _ _).mpr (by rfl)

/-- The two XOR commands with the regions (src, dst) given: bytes 0..23 at 0x200 and 0x40..0x4F at 0x300. -/
def xorEngine (sa sl da dl : Word) : State := engine (defaultBuild false) pathMemory ⟨sa, sl, da, dl, 1, 0⟩

theorem witness_xor_into_command :
    (∃ d c, (srcRegion (xorEngine 0x300 3 0x200 2)).Valid 0x1000 ∧ (dstRegion (xorEngine 0x300 3 0x200 2)).Valid 0x1000 ∧
      ¬ ((xorSrcWindow (xorEngine 0x300 3 0x200 2)).Overlaps (xorDstWindow (xorEngine 0x300 3 0x200 2)) ∧
        (xorSrcWindow (xorEngine 0x300 3 0x200 2)).start ≠ (xorDstWindow (xorEngine 0x300 3 0x200 2)).start) ∧
      d.length = xorCount (xorEngine 0x300 3 0x200 2) ∧ c.length = xorCount (xorEngine 0x300 3 0x200 2) ∧
      HoldsBytes (xorEngine 0x300 3 0x200 2).mem (xorDstWindow (xorEngine 0x300 3 0x200 2)).start d ∧
      HoldsBytes (xorEngine 0x300 3 0x200 2).mem (xorSrcWindow (xorEngine 0x300 3 0x200 2)).start c) ∧
      ¬ (srcRegion (xorEngine 0xFFF 2 0 4)).Valid 0x1000 ∧
      ((srcRegion (xorEngine 0 4 0x1000 1)).Valid 0x1000 ∧ ¬ (dstRegion (xorEngine 0 4 0x1000 1)).Valid 0x1000) ∧
      (srcRegion (xorEngine 0x100 8 0x104 8)).Valid 0x1000 ∧ (dstRegion (xorEngine 0x100 8 0x104 8)).Valid 0x1000 ∧
      (xorSrcWindow (xorEngine 0x100 8 0x104 8)).Overlaps (xorDstWindow (xorEngine 0x100 8 0x104 8)) ∧
      (xorSrcWindow (xorEngine 0x100 8 0x104 8)).start ≠ (xorDstWindow (xorEngine 0x100 8 0x104 8)).start :=
  ⟨⟨[0, 1], [0x41, 0x42], by decide, by decide, by decide, by decide, by decide, (holdsBytes_iff _ _ _).mpr (by rfl),
    (holdsBytes_iff _ _ _).mpr (by rfl)⟩, by decide⟩

theorem witness_xor_with_int_command :
    (∃ c, (srcRegion (xorEngine 0x300 3 0x200 3)).Valid 0x1000 ∧ (dstRegion (xorEngine 0x300 3 0x200 3)).Valid 0x1000 ∧
      ¬ (srcRegion (xorEngine 0x300 3 0x200 3)).Overlaps (dstRegion (xorEngine 0x300 3 0x200 3)) ∧
      (srcRegion (xorEngine 0x300 3 0x200 3)).len ≤ (dstRegion (xorEngine 0x300 3 0x200 3)).len ∧
      c.length = (srcRegion (xorEngine 0x300 3 0x200 3)).len ∧
      HoldsBytes (xorEngine 0x300 3 0x200 3).mem (srcRegion (xorEngine 0x300 3 0x200 3)).start c) ∧
      ¬ (srcRegion (xorEngine 0xFFF 2 0 4)).Valid 0x1000 ∧
      ((srcRegion (xorEngine 0 4 0x1000 1)).Valid 0x1000 ∧ ¬ (dstRegion (xorEngine 0 4 0x1000 1)).Valid 0x1000) ∧
      ((srcRegion (xorEngine 0 8 4 8)).Overlaps (dstRegion (xorEngine 0 8 4 8)) ∧
        (srcRegion (xorEngine 0 8 4 8)).start ≠ (dstRegion (xorEngine 0 8 4 8)).start) ∧
      (srcRegion (xorEngine 0 8 0x100 7)).Valid 0x1000 ∧ (dstRegion (xorEngine 0 8 0x100 7)).Valid 0x1000 ∧
      ¬ ((srcRegion (xorEngine 0 8 0x100 7)).Overlaps (dstRegion (xorEngine 0 8 0x100 7)) ∧
        (srcRegion (xorEngine 0 8 0x100 7)).start ≠ (dstRegion (xorEngine 0 8 0x100 7)).start) ∧
      (dstRegion (xorEngine 0 8 0x100 7)).len < (srcRegion (xorEngine 0 8 0x100 7)).len :=
  ⟨⟨[0x40, 0x41, 0x42], by decide, by decide, by decide, by decide, by decide, (holdsBytes_iff _ _ _).mpr (by rfl)⟩,
    by decide⟩

/-- The capacity is met exactly: N = 14. -/
theorem witness_encrypt_command :
    let s := { encryptEngine with opnd := ⟨0x10, 3, 0x100, 14, 0, 0⟩ }
    let plain : List Byte := [0xC1, 0xC2, 0xC3]
    selectedVariant s = some ⟨4, 6⟩ ∧ (srcRegion s).Valid s.build.memBytes ∧ (dstRegion s).Valid s.build.memBytes ∧
      ¬ (srcRegion s).Overlaps (dstRegion s) ∧ (plain.length / 4 + 2) * 4 + max 4 6 ≤ (dstRegion s).len ∧
      plain.length = (srcRegion s).len ∧ HoldsBytes s.mem (srcRegion s).start plain :=
  ⟨by decide, by decide, by decide, by decide, by decide, by decide, (holdsBytes_iff _ _ _).mpr (by rfl)⟩

/-- One engine for each check of ENCRYPT before the draw: variant, source, destination, overlap, one byte too few. -/
theorem witness_encrypt_checks_before_the_draw :
    selectedVariant { idleEngine with ctrl := ⟨3, false, false⟩ } = none ∧
      ¬ (srcRegion (xorEngine 0xFFF 2 0 4)).Valid 0x1000 ∧
      ((srcRegion (xorEngine 0 4 0x1000 1)).Valid 0x1000 ∧ ¬ (dstRegion (xorEngine 0 4 0x1000 1)).Valid 0x1000) ∧
      ((srcRegion (xorEngine 0 16 8 64)).Valid 0x1000 ∧ (dstRegion (xorEngine 0 16 8 64)).Valid 0x1000 ∧
        (srcRegion (xorEngine 0 16 8 64)).Overlaps (dstRegion (xorEngine 0 16 8 64))) ∧
      ¬ (srcRegion (xorEngine 0 0 0x100 47)).Overlaps (dstRegion (xorEngine 0 0 0x100 47)) ∧
      (dstRegion (xorEngine 0 0 0x100 47)).len < ((srcRegion (xorEngine 0 0 0x100 47)).len / 16 + 2) * 16 + max 16 16 := by
  decide

/-- A buffer of three segments under TOY(4,4), and one of two (DE4). -/
theorem witness_decrypt_command :
    let three : List Byte := [0x40, 0x42, 0x41, 0x46, 0x01, 0x03, 0x03, 0x07, 0x01, 0x03, 0x02, 0x03]
    let two : List Byte := [0x40, 0x42, 0x41, 0x46, 0x19, 0x19, 0x19, 0x1D]
    ∀ buffer ∈ [three, two],
      selectedVariant (decryptEngine buffer) = some ⟨4, 4⟩ ∧ (srcRegion (decryptEngine buffer)).Valid 0x1000 ∧
        (dstRegion (decryptEngine buffer)).Valid 0x1000 ∧
        ¬ (srcRegion (decryptEngine buffer)).Overlaps (dstRegion (decryptEngine buffer)) ∧ 4 + max 4 4 ≤ buffer.length ∧
        (buffer.length - max 4 4) % 4 = 0 ∧ buffer.length = (srcRegion (decryptEngine buffer)).len ∧
        HoldsBytes (decryptEngine buffer).mem (srcRegion (decryptEngine buffer)).start buffer := by
  intro three two buffer h
  simp only [List.mem_cons, List.not_mem_nil, or_false] at h
  rcases h with rfl | rfl <;>
    exact ⟨by decide, by decide, by decide, by decide, by decide, by decide, by decide,
      (holdsBytes_iff _ _ _).mpr (by rfl)⟩

/-- The length checks at their edges: 31 bytes are too short, 32 pass, 33 are misaligned. -/
theorem witness_decrypt_checks_before_the_read :
    ((srcRegion (xorEngine 0 31 0x100 64)).Valid 0x1000 ∧ (dstRegion (xorEngine 0 31 0x100 64)).Valid 0x1000 ∧
      ¬ (srcRegion (xorEngine 0 31 0x100 64)).Overlaps (dstRegion (xorEngine 0 31 0x100 64)) ∧
      (srcRegion (xorEngine 0 31 0x100 64)).len < 16 + max 16 16) ∧
      ¬ (srcRegion (xorEngine 0 32 0x100 64)).len < 16 + max 16 16 ∧
      16 + max 16 16 ≤ (srcRegion (xorEngine 0 33 0x100 64)).len ∧
      ((srcRegion (xorEngine 0 33 0x100 64)).len - max 16 16) % 16 ≠ 0 := by decide

theorem witness_two_segments_never_decrypt :
    ([0x40, 0x42, 0x41, 0x46, 0x19, 0x19, 0x19, 0x1D] : List Byte).length = 4 + max 4 4 := by decide

/-- The engine that decrypts what `encryptEngine` wrote. -/
def decryptAgain (t : State) : State := { t with opnd := ⟨0x100, t.result0, 0x200, 3, 0, 0⟩ }

/-- T4, with the key of the vector; the second part is the state that DECRYPT starts from. -/
theorem witness_encrypt_then_decrypt :
    let p := toyPorts [0xA0, 0xA1, 0xA2, 0xA3, 0xA4, 0xA5]
    (encryptEngine.build.wellFormed = true ∧ selectedVariant encryptEngine = some ⟨4, 6⟩ ∧
      (srcRegion encryptEngine).Valid 0x1000 ∧ (dstRegion encryptEngine).Valid 0x1000 ∧
      ¬ (srcRegion encryptEngine).Overlaps (dstRegion encryptEngine) ∧
      (3 / 4 + 2) * 4 + max 4 6 ≤ (dstRegion encryptEngine).len ∧ 3 = (srcRegion encryptEngine).len ∧
      HoldsBytes encryptEngine.mem (srcRegion encryptEngine).start [0xC1, 0xC2, 0xC3] ∧
      (∃ key, p.draw encryptEngine.draws 6 = some key ∧ p.accepts 0 key.toList = true) ∧
      p.accepts encryptEngine.ctrl.variant (List.replicate 6 encryptEngine.build.k0Byte) = true) ∧
      ∀ t, execEncryptWith p encryptEngine = .next t →
        (decryptAgain t).build = encryptEngine.build ∧
          (decryptAgain t).ctrl.variant = encryptEngine.ctrl.variant ∧
          (decryptAgain t).opnd.srcAddr = encryptEngine.opnd.dstAddr ∧ (decryptAgain t).opnd.srcLen = t.result0 ∧
          (∀ a, (srcRegion (decryptAgain t)).Has a → memRead (decryptAgain t).mem a = memRead t.mem a) ∧
          (dstRegion (decryptAgain t)).Valid (decryptAgain t).build.memBytes ∧
          ¬ (srcRegion (decryptAgain t)).Overlaps (dstRegion (decryptAgain t)) ∧
          3 ≤ (dstRegion (decryptAgain t)).len := by
  refine ⟨⟨by decide, by decide, by decide, by decide, by decide, by decide, by decide,
    (holdsBytes_iff _ _ _).mpr (by rfl), ⟨_, rfl, by decide⟩, by decide⟩, fun t ht => ?_⟩
  have hn : regOf (execEncryptWith (toyPorts [0xA0, 0xA1, 0xA2, 0xA3, 0xA4, 0xA5]) encryptEngine) 0x02C = some 14 := by
    decide
  have hb : t.build = encryptEngine.build ∧ t.ctrl = encryptEngine.ctrl := by cases ht; exact ⟨rfl, rfl⟩
  rw [ht] at hn
  have h0 : t.result0 = 14 := Option.some.inj hn
  refine ⟨hb.1, by rw [decryptAgain, hb.2], rfl, rfl, fun _ _ => rfl, ?_, ?_, ?_⟩ <;>
    simp [decryptAgain, dstRegion, srcRegion, h0, hb.1, encryptEngine, engine, toyBuild, defaultBuild]

theorem witness_counter_commands_stop_on_unwritten_bytes :
    let s := engine (defaultBuild false) [] ⟨0xFFF, 1, 0xFFF, 1, 0, 0⟩
    (srcRegion s).Valid s.build.memBytes ∧ (srcRegion s).Has 0xFFF ∧ memRead s.mem 0xFFF = none ∧
      (dstRegion s).Valid s.build.memBytes ∧ (dstRegion s).Has 0xFFF := by decide

theorem witness_host_memory_access_while_busy :
    (xoringEngine.phase = .run ∧ 0x10F < xoringEngine.build.memBytes ∧ ¬ InRegion (runningDst xoringEngine) 0x10F ∧
      memRead xoringEngine.mem 0x10F = some 16) ∧
      InRegion (runningDst xoringEngine) 0x200 ∧ memRead xoringEngine.mem 0xFFF = none ∧
      InRegion (runningSrc xoringEngine) 0x100 ∧
      (0xFFF < xoringEngine.build.memBytes ∧ ¬ InRegion (runningSrc xoringEngine) 0xFFF ∧
        ¬ InRegion (runningDst xoringEngine) 0xFFF) := by decide

/-- The last byte of the memory, which nothing has written, and the first that stands written. -/
theorem witness_host_memory_access_while_idle :
    idleEngine.phase = .idle ∧ 0xFFF < idleEngine.build.memBytes ∧ memRead idleEngine.mem 0xFFF = none ∧
      0x100 < idleEngine.build.memBytes ∧ memRead idleEngine.mem 0x100 = some 1 ∧
      (unseenEngine.phase = .idle ∧ (∀ r ∈ unseenEngine.unseen, ¬ InRegion r 0x1FF ∧ ¬ InRegion r 0x240) ∧
        some ⟨0x200, 64⟩ ∈ unseenEngine.unseen ∧ InRegion (some ⟨0x200, 64⟩) 0x200 ∧
        InRegion (some ⟨0x200, 64⟩) 0x23F) := by decide

theorem witness_bad_register_accesses :
    ¬ (2 = 4 ∧ 0x010 % 4 = 0) ∧ ¬ (8 = 4 ∧ 0x010 % 4 = 0) ∧ ¬ (4 = 4 ∧ 0x011 % 4 = 0) ∧ 0x011 % 4 ≠ 0 := by decide

/-- A command that raises ERR from ERR = 0 (ErrorPairsOfEachCommand, ErrorsArePrecise, MemoryFrameOfEveryCommand), and one
that leaves it 0 (RegisterFrameOfEveryCommand, MemoryFrameOfEveryCommand). -/
theorem witness_command_outcomes :
    (∃ t, exec .ctrEncode (engine (defaultBuild false) [] ⟨0, 0, 0xFFF, 2, 0, 0⟩) = .next t ∧ t.flags.err = true) ∧
      (∃ t, exec .ctrEncode idleEngine = .next t ∧ t.flags.err = false) ∧ idleEngine.flags.err = false ∧
      (∃ t, exec .padDerive idleEngine = .next t) ∧ Instr.padDerive ∈ [Instr.padDerive, .ctrDecode] ∧
      ¬ InRegion (commandDst .ctrEncode idleEngine) 0x240 :=
  ⟨⟨_, rfl, rfl⟩, ⟨_, rfl, rfl⟩, rfl, ⟨_, rfl⟩, by decide, by decide⟩

theorem witness_ignored_registers :
    Instr.xorInto ∉ [Instr.encrypt, .decrypt, .padDerive] ∧ Instr.decrypt ≠ .encrypt ∧ Instr.encrypt ≠ .xorInto ∧
      Instr.encrypt ∉ [Instr.ctrEncode, .xorWithInt] ∧ Instr.padDerive ∈ [Instr.padDerive, .ctrEncode, .ctrIncrement] ∧
      Instr.ctrEncode ∈ [Instr.ctrEncode, .ctrIncrement] ∧ Instr.ctrDecode ∈ [Instr.padDerive, .ctrDecode] := by decide

theorem witness_internal_registers_are_invisible :
    (∃ t, performOp busyEngine (.regWrite 0x018 4 5) = .next t) ∧ ∃ t, step (running 0x20#32 idleEngine) = .next t :=
  ⟨⟨_, rfl⟩, _, rfl⟩

/-- T4, whose plaintext has s = 1 block, at the first and the last number of segments. -/
theorem witness_internal_registers_of_encrypt :
    let p := toyPorts [0xA0, 0xA1, 0xA2, 0xA3, 0xA4, 0xA5]
    (selectedVariant encryptEngine = some ⟨4, 6⟩ ∧ 1 ≤ 4 ∧ (srcRegion encryptEngine).Valid encryptEngine.build.memBytes ∧
      (dstRegion encryptEngine).Valid encryptEngine.build.memBytes ∧
      ¬ (srcRegion encryptEngine).Overlaps (dstRegion encryptEngine) ∧
      p.accepts encryptEngine.ctrl.variant (List.replicate 6 encryptEngine.build.k0Byte) = true) ∧
      (3 / 4 + 2) * 4 + max 4 6 ≤ (dstRegion encryptEngine).len ∧ 3 = (srcRegion encryptEngine).len ∧
      HoldsBytes encryptEngine.mem (srcRegion encryptEngine).start [0xC1, 0xC2, 0xC3] ∧
      (∃ key, p.draw encryptEngine.draws 6 = some key ∧ p.accepts encryptEngine.ctrl.variant key.toList = true) ∧
      0 ≤ 3 / 4 + 2 ∧ 2 ≤ 3 / 4 + 2 :=
  ⟨by decide, by decide, by decide, (holdsBytes_iff _ _ _).mpr (by rfl), ⟨_, rfl, by decide⟩, by decide⟩

/-- T2's buffer: c = 3 segments before the last one, at the first and the last number of hashed segments and at the two
first positions that hold a key. -/
theorem witness_internal_registers_of_decrypt :
    let buffer : List Byte :=
      [0x40, 0x42, 0x41, 0x46, 0x01, 0x03, 0x03, 0x07, 0x01, 0x03, 0x02, 0x03, 0x19, 0x19, 0x19, 0x1D]
    let s := decryptEngine buffer
    (selectedVariant s = some ⟨4, 4⟩ ∧ (srcRegion s).Valid s.build.memBytes ∧ (dstRegion s).Valid s.build.memBytes ∧
      ¬ (srcRegion s).Overlaps (dstRegion s) ∧
      (toyPorts []).accepts s.ctrl.variant (List.replicate 4 s.build.k0Byte) = true) ∧
      1 ≤ 3 ∧ buffer.length = 3 * 4 + max 4 4 ∧ buffer.length = (srcRegion s).len ∧
      HoldsBytes s.mem (srcRegion s).start buffer ∧ 0 ≤ 3 ∧ 3 ≤ 3 ∧ 3 + 2 ≤ 5 ∧ 3 + 3 ≤ 6 ∧
      (toyPorts []).accepts s.ctrl.variant [0x01, 0x02, 0x03, 0x04] = true :=
  ⟨by decide, by decide, by decide, by decide, (holdsBytes_iff _ _ _).mpr (by rfl), by decide, by decide, by decide,
    by decide, by decide⟩

/-- The invariant holds of an engine with memory, and a step of it completes a command. -/
theorem witness_every_step_keeps_the_invariant :
    EngineInv idleEngine ∧ EngineInv (running 0x20#32 idleEngine) ∧ ∃ t, step (running 0x20#32 idleEngine) = .next t := by
  refine ⟨⟨⟨by decide, by decide⟩, ⟨fun _ => ⟨rfl, rfl⟩, fun h => by cases h⟩, fun h => (by cases h), fun _ => zeroised_zero⟩,
    ⟨⟨by decide, by decide⟩, ⟨fun _ => ⟨rfl, rfl⟩, fun h => by cases h⟩, fun _ => ⟨rfl, rfl⟩, fun h => (by cases h)⟩,
    ⟨_, rfl⟩⟩

theorem witness_no_step_changes_the_build : ∃ t, step busyEngine = .next t ∨ step idleEngine = .next t :=
  ⟨_, .inr rfl⟩

end Sys2Proof.Tests
end

section
/-! No step changes the build and platform parameters (R7, R252): each way the state can move, in the order of the model,
from a register write up to a whole step. -/

namespace Sys2Proof.Machine

/-- An abort touches the destination bytes and the free-value counter alone (R251). -/
@[simp] theorem abortCommand_build (s : State) : (abortCommand s).build = s.build := by
  rw [abortCommand]
  split <;> rfl

@[simp] theorem softReset_build (s : State) : (softReset s).build = s.build := by simp [softReset]

theorem whenIdle_build {s t : State} (h : t.build = s.build) : (whenIdle s t).build = s.build := by
  rw [whenIdle]
  split
  · exact h
  · exact dropWrite_build s

/-- K0BYTE and CAPS show the build and ignore a write; no other register holds a part of it (R45, R46). -/
@[simp] theorem writeRegister_build (s : State) (v : Word) (r : RegName) : (writeRegister s v r).build = s.build := by
  cases r with
  | ctrl =>
    rw [writeRegister]
    split
    · exact softReset_build s
    · exact whenIdle_build rfl
  | cmd | srcAddr | srcLen | dstAddr | dstLen | argLo | argHi | padbyte => exact whenIdle_build rfl
  | status | id | version | result0 | result1 | varinfo | k0byte | caps => rfl

@[simp] theorem writeOffset_build (s : State) (off : Nat) (v : Word) : (writeOffset s off v).build = s.build := by
  rw [writeOffset]
  split
  · rfl
  · exact writeRegister_build s v _

@[simp] theorem hostRead_build (s : State) (addr var : Nat) : (hostRead s addr var).build = s.build := by
  rw [hostRead]
  split
  · rfl
  · split <;> rfl

theorem performOp_build {s t : State} {op : BusOp} (h : performOp s op = .next t) : t.build = s.build := by
  obtain ⟨off, v, -, rfl⟩ | ⟨off, var, -, -, rfl⟩ | ⟨addr, v, -, -, -, -, rfl⟩ | ⟨addr, var, -, -, -, rfl⟩ |
    ⟨off, mask, v, target, -, -, rfl⟩ | ⟨-, rfl⟩ := performOp_next h
  · exact writeOffset_build s off v
  · simp
  · rfl
  · exact hostRead_build s addr var
  · split <;> simp
  · exact powerOnReset_build s

theorem hostTurn_build {s t : State} (h : hostTurn s = .next t) : t.build = s.build := by
  obtain rfl | ⟨op, -, hop⟩ := hostTurn_next h
  · rfl
  · exact (performOp_build hop :)

/-- A command completes with an error or with success, and neither completion writes a build parameter (R97, R98). -/
theorem exec_build {i : Instr} {s t : State} (h : exec i s = .next t) : t.build = s.build := by
  obtain ⟨e, -, rfl⟩ | ⟨a, bs, res, x, -, rfl⟩ := exec_next h
  · exact (raiseError_build _ e).trans (spendDraws_build _ s)
  · exact (completeOk_build _ a bs res x).trans (spendDraws_build _ s)

theorem engineTurn_build {s t : State} (h : engineTurn s = .next t) : t.build = s.build := by
  obtain ⟨i, -, hi⟩ | ⟨e, rfl⟩ := engineTurn_next h
  · exact exec_build hi
  · exact raiseError_build s e

/-- A step is made of host turns, engine turns and the sequencer's own advance, and each of them keeps the build. -/
theorem step_build {s t : State} (h : step s = .next t) : t.build = s.build := by
  obtain ⟨-, hHost⟩ | ⟨d, -, -, hHost⟩ | ⟨-, -, -, u, hHost, ⟨-, hEngine⟩ | ⟨-, rfl⟩⟩ | ⟨-, -, -, hEngine⟩ := step_next h
  · exact hostTurn_build hHost
  · exact (hostTurn_build hHost).trans (advanceSequencer_build s)
  · exact (engineTurn_build hEngine).trans (hostTurn_build hHost :)
  · exact (hostTurn_build hHost :)
  · exact engineTurn_build hEngine

/-- Settles O58, from the build lemma of each turn a step is made of. -/
theorem noStepChangesTheBuild : Obligations.NoStepChangesTheBuild := by
  unfold Obligations.NoStepChangesTheBuild
  exact fun _ _ => step_build

end Sys2Proof.Machine
end

section
/-! What each way the state can move does to the invariant of the machine, from a register write up to a whole step. -/

namespace Sys2Proof.Machine

/-- An aborted command's destination bytes are clipped to those that exist, so the memory stays sound (R60, R251). -/
theorem abortCommand_memoryOk {s : State} (h : MemoryOk s) : MemoryOk (abortCommand s) := by
  obtain ⟨hwf, hbelow⟩ := h
  rw [abortCommand]
  split
  · exact ⟨hwf, hbelow⟩
  · next r _ =>
    refine ⟨memScramble_wf hwf _ _ _, ?_⟩
    show ∀ c ∈ memScramble s.mem r.start s.fresh (existingBytes r s.build.memBytes), c.1 < s.build.memBytes
    rcases le_total r.start s.build.memBytes with hin | hout
    · exact memScramble_below hbelow (by rw [existingBytes]; omega)
    · have hnone : existingBytes r s.build.memBytes = 0 := by rw [existingBytes]; omega
      rw [hnone]
      exact hbelow

theorem errorPairOk_reset : ErrorPairOk Flags.reset := ⟨fun _ => ⟨rfl, rfl⟩, nofun⟩

theorem errorPairOk_acceptFlags (f : Flags) : ErrorPairOk (acceptFlags f) := ⟨fun _ => ⟨rfl, rfl⟩, nofun⟩

theorem errorPairOk_errorFlags (f : Flags) (e : CmdError) : ErrorPairOk (errorFlags f e) := ⟨nofun, fun _ => ⟨e, rfl, rfl⟩⟩

/-- A W1C of ERR takes the pair with it; any other write of STATUS leaves both (R36). -/
theorem errorPairOk_ackFlags {f : Flags} (h : ErrorPairOk f) (v : Word) : ErrorPairOk (ackFlags f v) := by
  cases hbit : v.getLsbD 2 with
  | true => simp only [ErrorPairOk, ackFlags_err, ackFlags_errCode, ackFlags_errCause, hbit]; simp
  | false =>
    simpa only [ErrorPairOk, ackFlags_err, ackFlags_errCode, ackFlags_errCause, hbit, Bool.not_false, Bool.and_true,
      Bool.false_eq_true, if_false] using h

/-- A state with its registers reset is sound where its memory is. -/
theorem engineInv_resetRegisters {s : State} (h : MemoryOk s) : EngineInv (resetRegisters s) :=
  ⟨h, errorPairOk_reset, nofun, fun _ => zeroised_zero⟩

theorem engineInv_softReset {s : State} (h : EngineInv s) : EngineInv (softReset s) :=
  engineInv_resetRegisters (abortCommand_memoryOk h.1)

theorem engineInv_powerOnReset (s : State) : EngineInv (powerOnReset s) :=
  engineInv_resetRegisters (s := { s with mem := [] }) ⟨List.Pairwise.nil, nofun⟩

/-- DONE and ERR are cleared as BUSY is set, so an acceptance needs nothing of the flags before it (R95). -/
theorem engineInv_acceptCommand {s : State} (h : EngineInv s) (w : Word) : EngineInv (acceptCommand w s) :=
  ⟨h.1, errorPairOk_acceptFlags s.flags, fun _ => ⟨rfl, rfl⟩, nofun⟩

theorem engineInv_ackFlags {s : State} (h : EngineInv s) (v : Word) :
    EngineInv { s with flags := ackFlags s.flags v } := by
  obtain ⟨hmem, hpair, hbusy, hzero⟩ := h
  refine ⟨hmem, errorPairOk_ackFlags hpair v, fun hrun => ?_, hzero⟩
  obtain ⟨hdone, herr⟩ := hbusy hrun
  simp [hdone, herr]

theorem engineInv_whenIdle {s t : State} (hs : EngineInv s) (ht : EngineInv t) : EngineInv (whenIdle s t) := by
  rw [whenIdle]
  split
  · exact ht
  · exact hs

/-- CTRL can reset, CMD accepts and STATUS acknowledges; every other register is none of the invariant's fields. -/
theorem engineInv_writeRegister {s : State} (h : EngineInv s) (v : Word) (r : RegName) :
    EngineInv (writeRegister s v r) := by
  cases r with
  | ctrl =>
    rw [writeRegister]
    split
    · exact engineInv_softReset h
    · exact engineInv_whenIdle h h
  | cmd => exact engineInv_whenIdle h (engineInv_acceptCommand h v)
  | status => exact engineInv_ackFlags h v
  | srcAddr | srcLen | dstAddr | dstLen | argLo | argHi | padbyte => exact engineInv_whenIdle h h
  | id | version | result0 | result1 | varinfo | k0byte | caps => exact h

theorem engineInv_writeOffset {s : State} (h : EngineInv s) (off : Nat) (v : Word) : EngineInv (writeOffset s off v) := by
  rw [writeOffset]
  split
  · exact h
  · exact engineInv_writeRegister h v _

theorem engineInv_hostRead {s : State} (h : EngineInv s) (addr var : Nat) : EngineInv (hostRead s addr var) := by
  rw [hostRead]
  split
  · exact h
  · split <;> exact h

theorem engineInv_performOp {s t : State} {op : BusOp} (h : EngineInv s) (hop : performOp s op = .next t) :
    EngineInv t := by
  obtain ⟨off, v, -, rfl⟩ | ⟨off, var, -, -, rfl⟩ | ⟨addr, v, -, hin, -, -, rfl⟩ | ⟨addr, var, -, -, -, rfl⟩ |
    ⟨off, mask, v, target, -, -, rfl⟩ | ⟨-, rfl⟩ := performOp_next hop
  · exact engineInv_writeOffset h off v
  · exact h
  · obtain ⟨⟨hwf, hbelow⟩, hrest⟩ := h
    exact ⟨⟨memWrite_wf hwf addr v, memWrite_below hbelow hin v⟩, hrest⟩
  · exact engineInv_hostRead h addr var
  · split <;> exact h
  · exact engineInv_powerOnReset s

theorem engineInv_hostTurn {s t : State} (h : EngineInv s) (ht : hostTurn s = .next t) : EngineInv t := by
  obtain rfl | ⟨op, -, hop⟩ := hostTurn_next ht
  · exact h
  · exact engineInv_performOp (s := { s with host := { s.host with pos := s.host.pos + 1 } }) h hop

/-- What a successful command stores lies in its valid destination region (R96), so it exists. -/
theorem memWriteBytes_below_of_commandValue {i : Instr} {s : State} {a : Nat} {bs : List Byte} {res : Option (Word × Word)}
    {x : Option Bool} (hmem : MemoryOk s) (h : commandValue s i = .ok a bs res x) :
    ∀ c ∈ memWriteBytes s.mem a bs, c.1 < s.build.memBytes := by
  obtain rfl | ⟨r, -, hvalid, -, hin⟩ := commandValue_ok_writes h
  · exact hmem.2
  · exact memWriteBytes_below hmem.2 (hin.trans hvalid)

theorem engineInv_raiseError {s : State} (h : EngineInv s) (e : CmdError) : EngineInv (raiseError s e) :=
  ⟨h.1, errorPairOk_errorFlags s.flags e, nofun, fun _ => zeroised_zero⟩

theorem engineInv_exec {i : Instr} {s t : State} (h : EngineInv s) (ht : exec i s = .next t) : EngineInv t := by
  obtain ⟨e, -, rfl⟩ | ⟨a, bs, res, x, hval, rfl⟩ := exec_next ht
  · exact engineInv_raiseError (s := spendDraws _ s) h e
  · obtain ⟨hmem, hpair, -, -⟩ := h
    exact ⟨⟨memWriteBytes_wf hmem.1 a bs, memWriteBytes_below_of_commandValue (s := s) hmem hval⟩, hpair, nofun,
      fun _ => zeroised_zero⟩

theorem engineInv_engineTurn {s t : State} (h : EngineInv s) (ht : engineTurn s = .next t) : EngineInv t := by
  obtain ⟨i, -, hi⟩ | ⟨e, rfl⟩ := engineTurn_next ht
  · exact engineInv_exec h hi
  · exact engineInv_raiseError h e

/-- While a command runs the internal registers may hold anything. -/
theorem engineInv_advanceSequencer {s : State} (h : EngineInv s) (hrun : s.phase = .run) :
    EngineInv (advanceSequencer s) := by
  obtain ⟨hmem, hpair, hbusy, -⟩ := h
  rw [advanceSequencer_eq]
  exact ⟨hmem, hpair, hbusy, fun hidle => by simp [hrun] at hidle⟩

theorem engineInv_step {s t : State} (h : EngineInv s) (ht : step s = .next t) : EngineInv t := by
  obtain ⟨-, hHost⟩ | ⟨d, hrun, -, hHost⟩ | ⟨-, -, -, u, hHost, hrest⟩ | ⟨-, -, -, hEngine⟩ := step_next ht
  · exact engineInv_hostTurn h hHost
  · exact engineInv_hostTurn (s := { advanceSequencer s with delay := d }) (engineInv_advanceSequencer h hrun) hHost
  · have hu : EngineInv u := engineInv_hostTurn (s := { s with tie := false }) h hHost
    obtain ⟨-, hEngine⟩ | ⟨-, rfl⟩ := hrest
    · exact engineInv_engineTurn hu hEngine
    · exact hu
  · exact engineInv_engineTurn h hEngine

/-- Settles O57, from the invariant lemma of each turn a step is made of. -/
theorem everyStepKeepsTheInvariant : Obligations.EveryStepKeepsTheInvariant := by
  unfold Obligations.EveryStepKeepsTheInvariant
  exact fun _ _ => engineInv_step

/-- Settles O56. -/
theorem resetMeetsTheInvariant : Obligations.ResetMeetsTheInvariant :=
  ⟨⟨List.Pairwise.nil, nofun⟩, errorPairOk_reset, nofun, fun _ => zeroised_zero⟩

end Sys2Proof.Machine
end

section
/-! The register window: which register stands at an offset, what an access to it does, and the fields of the words that are
put together from several (R20-R24, R30, R43, R46). -/

namespace Sys2Proof.Machine

/-! ### Offsets -/

theorem offset_lt_reserved (r : RegName) : r.offset < 0x044 := by cases r <;> decide

theorem offset_aligned (r : RegName) : r.offset % 4 = 0 := by cases r <;> rfl

@[simp] theorem registerAt_offset (r : RegName) : registerAt r.offset = some r := by cases r <;> rfl

theorem offset_of_registerAt {off : Nat} {r : RegName} (h : registerAt off = some r) : r.offset = off := by
  simpa using List.find?_some h

theorem registerAt_reserved {off : Nat} (h : 0x044 ≤ off) : registerAt off = none := by
  cases hr : registerAt off with
  | none => rfl
  | some r =>
    have hoff := offset_of_registerAt hr
    have hlt := offset_lt_reserved r
    omega

@[simp] theorem readOffset_offset (s : State) (r : RegName) : readOffset s r.offset = readRegister s r := by
  simp [readOffset]

theorem readOffset_reserved (s : State) {off : Nat} (h : 0x044 ≤ off) : readOffset s off = 0 := by
  rw [readOffset, registerAt_reserved h]

/-- Where two states differ in one register of the window at most, every other offset reads the same. -/
theorem readOffset_eq_of_ne {s t : State} {r : RegName} (h : ∀ q, q ≠ r → readRegister t q = readRegister s q) {off : Nat}
    (hoff : off ≠ r.offset) : readOffset t off = readOffset s off := by
  cases hq : registerAt off with
  | none => simp only [readOffset, hq]
  | some q =>
    have hqr : q ≠ r := fun e => hoff (by rw [← offset_of_registerAt hq, e])
    simpa only [readOffset, hq] using h q hqr

/-! ### Accesses -/

theorem checkedAccess_aligned {off : Nat} (ha : off % 4 = 0) (hlt : off < 4096) (r : Result) :
    checkedAccess off 4 r = r := by
  simp [checkedAccess, ha, hlt]

theorem performOp_regWrite (s : State) {off : Nat} (ha : off % 4 = 0) (hlt : off < 4096) (v : Word) :
    performOp s (.regWrite off 4 v) = .next (writeOffset s off v) :=
  checkedAccess_aligned ha hlt _

/-- A host write of a register by its offset. -/
theorem performOp_writeRegister (s : State) (r : RegName) (v : Word) :
    performOp s (.regWrite r.offset 4 v) = .next (writeRegister s v r) := by
  rw [performOp_regWrite s (offset_aligned r) ((offset_lt_reserved r).trans (by decide)), writeOffset, registerAt_offset]

theorem performOp_write_ctrl (s : State) (v : Word) :
    performOp s (.regWrite 0x008 4 v) = .next (writeRegister s v .ctrl) :=
  performOp_writeRegister s .ctrl v

theorem performOp_write_cmd (s : State) (v : Word) :
    performOp s (.regWrite 0x00C 4 v) = .next (writeRegister s v .cmd) :=
  performOp_writeRegister s .cmd v

theorem performOp_write_status (s : State) (v : Word) :
    performOp s (.regWrite 0x010 4 v) = .next (writeRegister s v .status) :=
  performOp_writeRegister s .status v

theorem whenIdle_of_idle {s : State} (h : s.phase = .idle) (t : State) : whenIdle s t = t := by rw [whenIdle, h]

theorem whenIdle_of_run {s : State} (h : s.phase = .run) (t : State) : whenIdle s t = dropWrite s := by rw [whenIdle, h]

theorem writeRegister_cmd_of_idle {s : State} (h : s.phase = .idle) (v : Word) :
    writeRegister s v .cmd = acceptCommand v s :=
  whenIdle_of_idle h _

theorem writeRegister_ctrl_of_srst (s : State) {v : Word} (hv : v.getLsbD 31 = true) :
    writeRegister s v .ctrl = softReset s :=
  if_pos hv

theorem writeRegister_ctrl_of_not_srst (s : State) {v : Word} (hv : v.getLsbD 31 = false) :
    writeRegister s v .ctrl = whenIdle s { s with ctrl := ctrlOfWord v } :=
  if_neg (by rw [hv]; decide)

/-! ### Fields -/

@[simp] theorem isBusy_iff (s : State) : isBusy s = true ↔ s.phase = .run := decide_eq_true_iff

/-- Bits 4:0 of STATUS (R30). -/
theorem statusWord_bits (s : State) :
    (statusWord s).getLsbD 0 = isBusy s ∧ (statusWord s).getLsbD 1 = s.flags.done ∧
      (statusWord s).getLsbD 2 = s.flags.err ∧ (statusWord s).getLsbD 3 = s.flags.ovr ∧
      (statusWord s).getLsbD 4 = s.flags.xpath := by
  simp [statusWord, bit, BitVec.getLsbD_append, -Nat.reduceAdd, -BitVec.getLsbD_eq_getElem]

/-- Bits 31:5 of STATUS (R30). -/
theorem statusWord_fields (s : State) :
    (statusWord s).extractLsb' 5 3 = 0#3 ∧ (statusWord s).extractLsb' 8 4 = s.flags.errCode ∧
      (statusWord s).extractLsb' 12 4 = s.flags.errCause ∧ (statusWord s).extractLsb' 16 16 = 0#16 := by
  simp (disch := decide) [statusWord, BitVec.extractLsb'_append_eq_of_le, BitVec.extractLsb'_append_eq_of_add_le,
    -Nat.reduceAdd]

/-- XOR_BYTEWISE and IRQ_EN (R24). -/
theorem ctrlWord_bits (c : Ctrl) :
    (ctrlWord c).getLsbD 2 = c.xorBytewise ∧ (ctrlWord c).getLsbD 3 = c.irqEn := by
  simp [ctrlWord, bit, BitVec.getLsbD_append, -Nat.reduceAdd, -BitVec.getLsbD_eq_getElem]

/-- VARIANT and the reserved bits of CTRL, SRST among them (R24, R28). -/
theorem ctrlWord_fields (c : Ctrl) :
    (ctrlWord c).extractLsb' 0 2 = c.variant ∧ (ctrlWord c).extractLsb' 4 28 = 0#28 := by
  simp (disch := decide) [ctrlWord, BitVec.extractLsb'_append_eq_of_le, BitVec.extractLsb'_append_eq_of_add_le,
    -Nat.reduceAdd]

/-- VARINFO for a supported entry (R43). -/
theorem varinfoWord_fields (v : Variant) :
    (varinfoWord (some v)).extractLsb' 0 8 = BitVec.ofNat 8 v.b ∧
      (varinfoWord (some v)).extractLsb' 8 8 = BitVec.ofNat 8 v.k ∧
      (varinfoWord (some v)).extractLsb' 16 8 = BitVec.ofNat 8 (lastSize v) ∧
      (varinfoWord (some v)).extractLsb' 24 8 = 0#8 := by
  simp (disch := decide) [varinfoWord, BitVec.extractLsb'_append_eq_of_le, BitVec.extractLsb'_append_eq_of_add_le,
    -Nat.reduceAdd]

/-- UNALIGNED_OK in bit 8 of CAPS, and one bit for each supported variant from bit 24 on (R46). -/
theorem capsWord_bits (c : Build) :
    (capsWord c).getLsbD 8 = c.unalignedOk ∧ (capsWord c).getLsbD 24 = c.variant0.isSome ∧
      (capsWord c).getLsbD 25 = c.variant1.isSome ∧ (capsWord c).getLsbD 26 = c.variant2.isSome ∧
      (capsWord c).getLsbD 27 = c.variant3.isSome := by
  simp [capsWord, bit, BitVec.getLsbD_append, -Nat.reduceAdd, -BitVec.getLsbD_eq_getElem]

/-- The other fields of CAPS (R46). -/
theorem capsWord_fields (c : Build) :
    (capsWord c).extractLsb' 0 8 = BitVec.ofNat 8 c.wordBytes ∧ (capsWord c).extractLsb' 9 7 = 0#7 ∧
      (capsWord c).extractLsb' 16 8 = BitVec.ofNat 8 c.decodeBytes ∧ (capsWord c).extractLsb' 28 4 = 0#4 := by
  simp (disch := decide) [capsWord, BitVec.extractLsb'_append_eq_of_le, BitVec.extractLsb'_append_eq_of_add_le,
    -Nat.reduceAdd]

/-- PADBYTE and K0BYTE hold one byte, with zeros above it (R44, R45). -/
theorem zeroExtendedByte_fields (x : Byte) :
    (0#24 ++ x).extractLsb' 0 8 = x ∧ (0#24 ++ x).extractLsb' 8 24 = 0#24 := by
  simp (disch := decide) [BitVec.extractLsb'_append_eq_of_le, BitVec.extractLsb'_append_eq_of_add_le,
    -Nat.reduceAdd]

end Sys2Proof.Machine
end

section
/-! The register statements of the window: CMD, STATUS, CTRL, the operand registers, the reserved and read-only ones, VARINFO,
CAPS, and the interrupt output. -/

namespace Sys2Proof.Machine

/-- The registers that store what the host writes: the operand registers and PADBYTE (R37-R41, R44). -/
def storingRegisters : List RegName := [.srcAddr, .srcLen, .dstAddr, .dstLen, .argLo, .argHi, .padbyte]

/-- The registers that ignore every write (R22, R23, R42, R43, R45, R46). -/
def readOnlyRegisters : List RegName := [.id, .version, .result0, .result1, .varinfo, .k0byte, .caps]

theorem writeRegister_readOnly (s : State) (v : Word) {r : RegName} (hr : r ∈ readOnlyRegisters) :
    writeRegister s v r = s := by
  simp only [readOnlyRegisters, List.mem_cons, List.not_mem_nil, or_false] at hr
  rcases hr with rfl | rfl | rfl | rfl | rfl | rfl | rfl <;> rfl

/-- While busy, a write of CMD or of a storing register is dropped (R34, R99). -/
theorem writeRegister_of_run {s : State} (h : s.phase = .run) {r : RegName} (hr : r ∈ .cmd :: storingRegisters) (v : Word) :
    writeRegister s v r = dropWrite s := by
  simp only [storingRegisters, List.mem_cons, List.not_mem_nil, or_false] at hr
  rcases hr with rfl | rfl | rfl | rfl | rfl | rfl | rfl | rfl <;> exact whenIdle_of_run h _

/-- While idle, a write of a storing register changes that register alone. -/
theorem readRegister_writeRegister_other {s : State} (h : s.phase = .idle) {r q : RegName} (hr : r ∈ storingRegisters)
    (hq : q ≠ r) (v : Word) : readRegister (writeRegister s v r) q = readRegister s q := by
  simp only [storingRegisters, List.mem_cons, List.not_mem_nil, or_false] at hr
  rcases hr with rfl | rfl | rfl | rfl | rfl | rfl | rfl <;> rw [writeRegister, whenIdle_of_idle h]
  · cases q with | srcAddr => exact absurd rfl hq | _ => rfl
  · cases q with | srcLen => exact absurd rfl hq | _ => rfl
  · cases q with | dstAddr => exact absurd rfl hq | _ => rfl
  · cases q with | dstLen => exact absurd rfl hq | _ => rfl
  · cases q with | argLo => exact absurd rfl hq | _ => rfl
  · cases q with | argHi => exact absurd rfl hq | _ => rfl
  · cases q with | padbyte => exact absurd rfl hq | _ => rfl

/-- PADBYTE keeps the low eight bits of what is written (R44). -/
theorem zeroExtend_lowByte (v : Word) : 0#24 ++ v.extractLsb' 0 8 = v &&& 0xFF#32 := by
  refine BitVec.eq_of_toNat_eq ?_
  have hmask : v.toNat &&& 255 = v.toNat % 2 ^ 8 := Nat.and_two_pow_sub_one_eq_mod v.toNat 8
  simp [BitVec.toNat_append, hmask, -Nat.reduceAdd]

/-- A storing register written while idle reads back what was written. -/
theorem readRegister_writeRegister_same {s : State} (h : s.phase = .idle) {r : RegName} (hr : r ∈ storingRegisters)
    (v : Word) :
    readRegister (writeRegister s v r) r = if r.offset = RegName.padbyte.offset then v &&& 0xFF#32 else v := by
  cases r with
  | padbyte => rw [writeRegister, whenIdle_of_idle h]; exact zeroExtend_lowByte v
  | srcAddr | srcLen | dstAddr | dstLen | argLo | argHi => rw [writeRegister, whenIdle_of_idle h]; rfl
  | id | version | ctrl | cmd | status | result0 | result1 | varinfo | k0byte | caps => exact absurd hr (by decide)

/-- A write of a storing register while idle touches the operand registers and PADBYTE alone. -/
theorem writeRegister_storing_frame {s : State} (h : s.phase = .idle) {r : RegName} (hr : r ∈ storingRegisters) (v : Word) :
    ∃ o x, writeRegister s v r = { s with opnd := o, fill := x } := by
  simp only [storingRegisters, List.mem_cons, List.not_mem_nil, or_false] at hr
  rcases hr with rfl | rfl | rfl | rfl | rfl | rfl | rfl <;> exact ⟨_, _, whenIdle_of_idle h _⟩

/-- OVR, once set, is cleared by a write only with bit 3 of STATUS or by a soft reset (R34). -/
theorem ovr_writeRegister {s : State} (h : s.flags.ovr = true) (v : Word) (r : RegName) :
    (writeRegister s v r).flags.ovr = true ∨ (r = .status ∧ v.getLsbD 3 = true) ∨ (r = .ctrl ∧ v.getLsbD 31 = true) := by
  have hwhenIdle {t : State} (ht : t.flags.ovr = true) : (whenIdle s t).flags.ovr = true := by
    rw [whenIdle]
    split
    · exact ht
    · rfl
  cases r with
  | ctrl =>
    cases hv : v.getLsbD 31 with
    | true => exact .inr (.inr ⟨rfl, rfl⟩)
    | false => rw [writeRegister_ctrl_of_not_srst s hv]; exact .inl (hwhenIdle h)
  | status =>
    cases hv : v.getLsbD 3 with
    | true => exact .inr (.inl ⟨rfl, rfl⟩)
    | false => exact .inl (by simp only [writeRegister, ackFlags_ovr, h, hv, Bool.not_false, Bool.and_true])
  | cmd | srcAddr | srcLen | dstAddr | dstLen | argLo | argHi | padbyte => exact .inl (hwhenIdle h)
  | id | version | result0 | result1 | varinfo | k0byte | caps => exact .inl h

theorem hostRead_flags (s : State) (addr var : Nat) : (hostRead s addr var).flags = s.flags := by
  rw [hostRead]
  split
  · rfl
  · split <;> rfl

/-- No completion touches OVR (R34). -/
theorem ovr_exec {i : Instr} {s t : State} (h : exec i s = .next t) : t.flags.ovr = s.flags.ovr := by
  obtain ⟨e, -, rfl⟩ | ⟨a, bs, res, x, -, rfl⟩ := exec_next h <;> rfl

theorem irq_acceptCommand (w : Word) (s : State) : irq (acceptCommand w s) = false := by simp [irq]

/-- Every completion sets DONE, so the interrupt is what IRQ_EN says (R27). -/
theorem irq_exec {i : Instr} {s t : State} (h : exec i s = .next t) : irq t = s.ctrl.irqEn := by
  obtain ⟨e, -, rfl⟩ | ⟨a, bs, res, x, -, rfl⟩ := exec_next h <;> simp [irq]

/-- What a read of STATUS lets the host observe (R71, R104). -/
theorem observe_eq (s : State) (off : Nat) :
    observe s off =
      { s with unseen := if off = 0x010 ∧ (s.flags.done = true ∨ s.phase = .idle) then [] else s.unseen } := by
  cases hp : s.phase <;> simp [observe, observesCompletion, isBusy, hp]

theorem readAccess_of_not_unseen {s : State} {off : Nat} (h : ¬ UnseenResult s off) (t : State) :
    readAccess s off t = .next t :=
  if_neg h

theorem readAccess_of_unseen {s : State} {off : Nat} (h : UnseenResult s off) (t : State) :
    readAccess s off t = .fault (.unseenResult off) :=
  if_pos h

theorem performOp_regRead (s : State) {off : Nat} (ha : off % 4 = 0) (hlt : off < 4096) (var : Nat) :
    performOp s (.regRead off 4 var) = readAccess s off (noteReading (observe s off) var (readOffset s off)) :=
  checkedAccess_aligned ha hlt _

theorem performOp_poll (s : State) {off : Nat} (ha : off % 4 = 0) (hlt : off < 4096) (mask v : Word) (target : Nat) :
    performOp s (.poll off mask v target) =
      readAccess s off (if readOffset s off &&& mask = v then observe s off else branchHost (observe s off) target) :=
  checkedAccess_aligned ha hlt _

/-- Settles O7. -/
theorem cmdRegister : Obligations.CmdRegister := by
  refine ⟨fun s => readOffset_offset s .cmd, fun s w hrun => ?_, fun s w hidle => ?_⟩
  · rw [performOp_write_cmd, writeRegister_of_run hrun (by decide)]
    rfl
  · refine ⟨acceptCommand w s, ?_, rfl, rfl, rfl, irq_acceptCommand w s, rfl, rfl, rfl, rfl, rfl, rfl, rfl, rfl⟩
    rw [performOp_write_cmd, writeRegister_cmd_of_idle hidle]

/-- Settles O16. -/
theorem identityRegisters : Obligations.IdentityRegisters := by
  intro s
  have hversion : readOffset s 0x004 = 0x00010000#32 := readOffset_offset s .version
  rw [hversion]
  exact ⟨readOffset_offset s .id, by decide, by decide, fun v =>
    ⟨performOp_writeRegister s .id v, performOp_writeRegister s .version v⟩⟩

/-- Settles O9. -/
theorem overrunFlag : Obligations.OverrunFlag := by
  refine ⟨fun s off v hrun hoff => ?_, fun i s t => ovr_exec, fun s w => rfl, fun s => rfl,
    fun s t op hop hset hclear => ?_⟩
  · rcases hoff with hoff | ⟨rfl, hv⟩
    · obtain ⟨r, hr, rfl⟩ := List.mem_map.mp (show off ∈ (RegName.cmd :: storingRegisters).map RegName.offset from hoff)
      rw [performOp_writeRegister, writeRegister_of_run hrun hr]
      rfl
    · rw [performOp_write_ctrl, writeRegister_ctrl_of_not_srst s hv, whenIdle_of_run hrun]
      rfl
  · obtain ⟨off, v, rfl, rfl⟩ | ⟨off, var, -, -, rfl⟩ | ⟨addr, v, -, -, -, -, rfl⟩ | ⟨addr, var, -, -, -, rfl⟩ |
      ⟨off, mask, v, target, -, -, rfl⟩ | ⟨rfl, -⟩ := performOp_next hop
    · rw [writeOffset] at hclear
      split at hclear
      · simp [hset] at hclear
      · next r hr =>
        obtain hkept | ⟨rfl, hv⟩ | ⟨rfl, hv⟩ := ovr_writeRegister hset v r
        · simp [hkept] at hclear
        · exact .inl ⟨v, by rw [← offset_of_registerAt hr]; rfl, hv⟩
        · exact .inr (.inl ⟨v, by rw [← offset_of_registerAt hr]; rfl, hv⟩)
    · simp [hset] at hclear
    · simp [hset] at hclear
    · simp [hostRead_flags, hset] at hclear
    · split at hclear <;> simp [hset] at hclear
    · exact .inr (.inr rfl)

/-- Settles O12. -/
theorem statusRegister : Obligations.StatusRegister := by
  refine ⟨fun s => ?_, fun s v => ?_, rfl⟩
  · obtain ⟨hbusy, hdone, herr, hovr, hxpath⟩ := statusWord_bits s
    obtain ⟨hzero, hcode, hcause, hreserved⟩ := statusWord_fields s
    rw [show readOffset s 0x010 = statusWord s from readOffset_offset s .status, hbusy]
    exact ⟨isBusy_iff s, hdone, herr, hovr, hxpath, hzero, hcode, hcause, hreserved⟩
  · refine ⟨ackFlags s.flags v, performOp_write_status s v, rfl, rfl, rfl, rfl, fun hv => ?_, fun hv => ?_⟩ <;>
      simp only [ackFlags_errCode, ackFlags_errCause, hv] <;> exact ⟨rfl, rfl⟩

/-- Settles O13. -/
theorem ctrlRegister : Obligations.CtrlRegister := by
  refine ⟨fun s => ?_, fun s v hidle hv => ?_, fun s v hrun hv => ⟨dropWrite s, ?_, rfl⟩, fun s v hv => ⟨?_, rfl⟩, rfl⟩
  · obtain ⟨hbytewise, hirq⟩ := ctrlWord_bits s.ctrl
    obtain ⟨hvariant, hreserved⟩ := ctrlWord_fields s.ctrl
    rw [show readOffset s 0x008 = ctrlWord s.ctrl from readOffset_offset s .ctrl]
    exact ⟨hvariant, hbytewise, hirq, hreserved⟩
  · rw [performOp_write_ctrl, writeRegister_ctrl_of_not_srst s hv, whenIdle_of_idle hidle]
    rfl
  · rw [performOp_write_ctrl, writeRegister_ctrl_of_not_srst s hv, whenIdle_of_run hrun]
  · rw [performOp_write_ctrl, writeRegister_ctrl_of_srst s hv]

/-- Settles O14. -/
theorem operandRegistersReadBack : Obligations.OperandRegistersReadBack := by
  refine ⟨fun s => ?_, fun s off v hidle hoff => ?_⟩
  · obtain ⟨hfill, hfillZero⟩ := zeroExtendedByte_fields s.fill
    obtain ⟨hk0, hk0Zero⟩ := zeroExtendedByte_fields s.build.k0Byte
    exact ⟨rfl, rfl, rfl, rfl, rfl, rfl, rfl, rfl, hfill, hfillZero, hk0, hk0Zero, fun _ => rfl⟩
  · obtain ⟨r, hr, rfl⟩ := List.mem_map.mp (show off ∈ storingRegisters.map RegName.offset from hoff)
    refine ⟨writeRegister s v r, performOp_writeRegister s r v, ?_,
      fun o ho => readOffset_eq_of_ne (fun q hq => readRegister_writeRegister_other hidle hr hq v) ho, ?_⟩
    · rw [readOffset_offset]
      exact readRegister_writeRegister_same hidle hr v
    · obtain ⟨o, x, hwrite⟩ := writeRegister_storing_frame hidle hr v
      rw [hwrite]
      exact ⟨rfl, rfl, hidle, rfl, rfl⟩

/-- Settles O15. -/
theorem reservedAndReadOnly : Obligations.ReservedAndReadOnly := by
  refine ⟨fun s off _ hlow _ => readOffset_reserved s hlow, fun s off v ha hlt hoff => ?_,
    fun s => readOffset_offset s .cmd, fun s off var target mask v ha hlt hduty => ?_,
    fun s off var target mask v hidle hunseen hoff => ?_⟩
  · rcases hoff with hlow | hoff
    · rw [performOp_regWrite s ha (by omega), writeOffset, registerAt_reserved hlow]
    · obtain ⟨r, hr, rfl⟩ := List.mem_map.mp (show off ∈ readOnlyRegisters.map RegName.offset from hoff)
      rw [performOp_writeRegister, writeRegister_readOnly s v hr]
  · have hread : ¬ UnseenResult s off := by
      rintro ⟨hidle, hunseen, hres⟩
      rcases hduty with hrun | hseen | hother
      · simp [hidle] at hrun
      · exact hunseen hseen
      · exact hother (by simpa using hres)
    rw [performOp_regRead s ha (by omega), performOp_poll s ha (by omega), readAccess_of_not_unseen hread,
      readAccess_of_not_unseen hread, observe_eq]
    exact ⟨rfl, rfl⟩
  · have hfault : UnseenResult s off := ⟨hidle, hunseen, by simpa using hoff⟩
    have haligned : off % 4 = 0 ∧ off < 4096 := by rcases hfault.2.2 with rfl | rfl <;> decide
    obtain ⟨ha, hlt⟩ := haligned
    rw [performOp_regRead s ha hlt, performOp_poll s ha hlt, readAccess_of_unseen hfault, readAccess_of_unseen hfault]
    exact ⟨rfl, rfl⟩

/-- Settles O17. -/
theorem varinfoRegister : Obligations.VarinfoRegister := by
  have hread (s : State) : readOffset s 0x034 = varinfoWord (selectedVariant s) := readOffset_offset s .varinfo
  refine ⟨fun s v hv hb hk => ?_, fun s hnone => ?_, fun s hbuild hvariant => ?_⟩
  · obtain ⟨hfb, hfk, hflast, hzero⟩ := varinfoWord_fields v
    rw [hread, hv, hfb, hfk, hflast, lastSize]
    simp only [BitVec.toNat_ofNat]
    exact ⟨Nat.mod_eq_of_lt (by omega), Nat.mod_eq_of_lt (by omega), Nat.mod_eq_of_lt (by omega), hzero⟩
  · rw [hread, hnone, varinfoWord]
  · rw [hread, selectedVariant, hbuild, hvariant]
    rfl

/-- Settles O18. -/
theorem capsRegister : Obligations.CapsRegister := by
  have hread (s : State) : readOffset s 0x040 = capsWord s.build := readOffset_offset s .caps
  refine ⟨fun s hword hdecode => ?_, fun s hbuild => ?_⟩
  · obtain ⟨hunaligned, h0, h1, h2, h3⟩ := capsWord_bits s.build
    obtain ⟨hfword, hreserved, hfdecode, hzero⟩ := capsWord_fields s.build
    rw [hread, hfword, hfdecode]
    simp only [BitVec.toNat_ofNat]
    refine ⟨Nat.mod_eq_of_lt (by omega), hunaligned, hreserved, Nat.mod_eq_of_lt (by omega), fun x => ?_, hzero⟩
    have hx : x = 0#2 ∨ x = 1#2 ∨ x = 2#2 ∨ x = 3#2 := by revert x; decide
    rcases hx with rfl | rfl | rfl | rfl
    · exact h0
    · exact h1
    · exact h2
    · exact h3
  · rw [hread, hbuild]
    rfl

/-- Settles O19. -/
theorem irqFollowsDone : Obligations.IrqFollowsDone := by
  refine ⟨fun s => by rw [irq, Bool.and_eq_true], fun i s t => irq_exec, fun s w => irq_acceptCommand w s,
    fun s t v h hv => ?_⟩
  rw [performOp_write_status] at h
  cases h
  simp only [irq, writeRegister, ackFlags_done, hv, Bool.not_true, Bool.and_false]

end Sys2Proof.Machine
end

section
/-! The two resets and the abort (R53, R55, R250, R251), and what every completion leaves as it was (R97, R98). -/

namespace Sys2Proof.Machine

/-! ### Resets -/

/-- The reset table's registers follow from the registers reset, whatever memory, build and host are (R55). -/
theorem registersAreReset_resetRegisters (s : State) : RegistersAreReset (resetRegisters s) := by
  have hctrl : ctrlWord Ctrl.reset = 0 := by decide
  have hstatus : statusWord State.reset = 0 := by decide
  have hpad : 0#24 ++ (0 : Byte) = 0#32 := by decide
  exact ⟨rfl, rfl, hctrl, rfl, hstatus, rfl, rfl, rfl, rfl, rfl, rfl, rfl, rfl, rfl, hpad, rfl, rfl, rfl, zeroised_zero,
    rfl⟩

theorem registersAreReset_softReset (s : State) : RegistersAreReset (softReset s) :=
  registersAreReset_resetRegisters (abortCommand s)

theorem registersAreReset_powerOnReset (s : State) : RegistersAreReset (powerOnReset s) :=
  registersAreReset_resetRegisters { s with mem := [] }

theorem abortCommand_of_none {s : State} (h : runningDst s = none) : abortCommand s = s := by rw [abortCommand, h]

theorem abortCommand_of_some {s : State} {r : Region} (h : runningDst s = some r) :
    abortCommand s =
      { s with
        mem := memScramble s.mem r.start s.fresh (existingBytes r s.build.memBytes)
        fresh := s.fresh + existingBytes r s.build.memBytes } := by
  rw [abortCommand, h]

theorem runningDst_of_idle {s : State} (h : s.phase = .idle) : runningDst s = none := by
  rw [runningDst, runningCommand, h]
  rfl

@[simp] theorem softReset_mem (s : State) : (softReset s).mem = (abortCommand s).mem := rfl

@[simp] theorem softReset_fresh (s : State) : (softReset s).fresh = (abortCommand s).fresh := rfl

theorem softReset_mem_of_idle {s : State} (h : s.phase = .idle) : (softReset s).mem = s.mem := by
  rw [softReset_mem, abortCommand_of_none (runningDst_of_idle h)]

theorem memRead_softReset_outside {s : State} {a : Nat} (h : ¬ InRegion (runningDst s) a) :
    memRead (softReset s).mem a = memRead s.mem a := by
  rw [softReset_mem]
  cases hr : runningDst s with
  | none => rw [abortCommand_of_none hr]
  | some r =>
    have hout : ¬ r.Has a := fun ha => h ⟨r, hr, ha⟩
    rw [abortCommand_of_some hr]
    exact memRead_memScramble_outside s.mem (by rw [Region.Has] at hout; rw [existingBytes]; omega)

/-- Each byte of the aborted command's destination that exists takes a free value of its own (R251). -/
theorem memRead_softReset_inside {s : State} {r : Region} {j : Nat} (hr : runningDst s = some r) (hlen : j < r.len)
    (hexists : r.start + j < s.build.memBytes) :
    memRead (softReset s).mem (r.start + j) = some (Config.freeByte (s.fresh + j)) ∧ s.fresh + j < (softReset s).fresh := by
  have hj : j < existingBytes r s.build.memBytes := by rw [existingBytes]; omega
  rw [softReset_mem, softReset_fresh, abortCommand_of_some hr]
  exact ⟨memRead_memScramble_inside s.mem r.start s.fresh hj, Nat.add_lt_add_left hj _⟩

theorem performOp_softReset (s : State) {v : Word} (hv : v.getLsbD 31 = true) :
    performOp s (.regWrite 0x008 4 v) = .next (softReset s) := by
  rw [performOp_write_ctrl, writeRegister_ctrl_of_srst s hv]

/-- Settles O20. -/
theorem resetTable : Obligations.ResetTable := by
  refine ⟨registersAreReset_resetRegisters State.reset, fun _ => rfl, fun s => ?_, fun s v hv => ?_⟩
  · exact ⟨powerOnReset s, rfl, registersAreReset_powerOnReset s, fun _ => rfl, powerOnReset_build s⟩
  · exact ⟨softReset s, performOp_softReset s hv, registersAreReset_softReset s, softReset_build s,
      fun _ => memRead_softReset_outside⟩

/-- Settles O21. -/
theorem softResetAbortsTheCommand : Obligations.SoftResetAbortsTheCommand :=
  ⟨fun s _ hv => ⟨performOp_softReset s hv, registersAreReset_softReset s⟩, fun _ => softReset_mem_of_idle,
    fun _ _ => memRead_softReset_outside, fun _ _ _ => memRead_softReset_inside⟩

/-! ### Completions -/

theorem zeroised_exec {i : Instr} {s t : State} (h : exec i s = .next t) : Zeroised t.dp := by
  obtain ⟨e, -, rfl⟩ | ⟨a, bs, res, x, -, rfl⟩ := exec_next h <;> exact zeroised_zero

theorem zeroised_engineTurn {s t : State} (h : engineTurn s = .next t) : Zeroised t.dp := by
  obtain ⟨i, -, hi⟩ | ⟨e, rfl⟩ := engineTurn_next h
  · exact zeroised_exec hi
  · exact zeroised_zero

/-- Settles O22. -/
theorem completionAndResetZeroise : Obligations.CompletionAndResetZeroise :=
  ⟨fun _ _ _ => zeroised_exec, fun _ _ => zeroised_engineTurn, fun _ => ⟨zeroised_zero, zeroised_zero⟩⟩

theorem commandDraws_of_ne_encrypt (s : State) {i : Instr} (hi : i ≠ .encrypt) : commandDraws s i = 0 := by
  cases i with
  | encrypt => exact absurd rfl hi
  | _ => rfl

/-- The XPATH a command's value names, if it does (R35). -/
def CmdResult.xpath : CmdResult → Option Bool
  | .ok _ _ _ x => x
  | .err _ => none
  | .uninit _ => none

/-- The results a command's value names, if it does (R42). -/
def CmdResult.results : CmdResult → Option (Word × Word)
  | .ok _ _ res _ => res
  | .err _ => none
  | .uninit _ => none

/-- Only XOR_INTO names XPATH (R35, R150). -/
theorem commandValue_xpath (s : State) {i : Instr} (hi : i ≠ .xorInto) : (commandValue s i).xpath = none := by
  cases i with
  | xorInto => exact absurd rfl hi
  | encrypt => simp only [commandValue, encryptDrawn]; (repeat' split) <;> rfl
  | decrypt => simp only [commandValue, cmdDecrypt, decryptRead]; (repeat' split) <;> rfl
  | xorWithInt => simp only [commandValue, cmdXorWithInt]; (repeat' split) <;> rfl
  | ctrEncode => simp only [commandValue, cmdCtrEncode]; split <;> rfl
  | ctrDecode => simp only [commandValue, cmdCtrDecode]; (repeat' split) <;> rfl
  | ctrIncrement => simp only [commandValue, cmdCtrIncrement]; (repeat' split) <;> rfl
  | padDerive => simp only [commandValue, cmdPadDerive]; split <;> rfl

/-- The commands that name no results (R42, R84). -/
theorem commandValue_results (s : State) {i : Instr} (hi : i ∈ [.xorInto, .xorWithInt, .ctrEncode, .ctrIncrement]) :
    (commandValue s i).results = none := by
  cases i with
  | xorInto => simp only [commandValue, cmdXorInto]; (repeat' split) <;> rfl
  | xorWithInt => simp only [commandValue, cmdXorWithInt]; (repeat' split) <;> rfl
  | ctrEncode => simp only [commandValue, cmdCtrEncode]; split <;> rfl
  | ctrIncrement => simp only [commandValue, cmdCtrIncrement]; (repeat' split) <;> rfl
  | encrypt | decrypt | ctrDecode | padDerive => exact absurd hi (by decide)

/-- Settles O51: an error completion writes STATUS alone, and a successful one only what the command's value names. -/
theorem registerFrameOfEveryCommand : Obligations.RegisterFrameOfEveryCommand := by
  intro i s t h
  have hdraws : i ≠ .encrypt → s.draws + commandDraws s i = s.draws := fun hi => by
    rw [commandDraws_of_ne_encrypt s hi, Nat.add_zero]
  obtain ⟨e, -, rfl⟩ | ⟨a, bs, res, x, hval, rfl⟩ := exec_next h
  · exact ⟨rfl, rfl, rfl, rfl, rfl, rfl, rfl, rfl, rfl, rfl, rfl, fun _ => rfl, rfl, rfl, hdraws, fun _ => ⟨rfl, rfl⟩⟩
  · refine ⟨rfl, rfl, rfl, rfl, rfl, rfl, rfl, rfl, rfl, rfl, rfl, fun hi => ?_, rfl, rfl, hdraws, fun hi => ?_⟩
    · have hx : x = none := by simpa only [hval, CmdResult.xpath] using commandValue_xpath s hi
      rw [hx]
      rfl
    · have hres : res = none := by simpa only [hval, CmdResult.results] using commandValue_results s hi
      rw [hres]
      exact ⟨rfl, rfl⟩

end Sys2Proof.Machine
end

section
/-! The internal registers cannot be seen (R47, R49): every reading, command, transaction and step is the same with any other
values in them, but for those values themselves. -/

namespace Sys2Proof.Machine

/-- The state with other values in its internal registers. -/
def setDatapath (x : Datapath) (s : State) : State := { s with dp := x }

@[simp] theorem setDatapath_dp (s : State) : setDatapath s.dp s = s := rfl

theorem readOffset_setDatapath (x : Datapath) (s : State) (off : Nat) :
    readOffset (setDatapath x s) off = readOffset s off := rfl

/-! ### The engine -/

theorem commandValue_setDatapath (x : Datapath) (s : State) (i : Instr) :
    commandValue (setDatapath x s) i = commandValue s i := by
  cases i <;> rfl

theorem commandDraws_setDatapath (x : Datapath) (s : State) (i : Instr) :
    commandDraws (setDatapath x s) i = commandDraws s i := by
  cases i <;> rfl

/-- Both completions zeroise the internal registers, so nothing of them is carried over (R53). -/
theorem finish_setDatapath (x : Datapath) (s : State) (r : CmdResult) : finish (setDatapath x s) r = finish s r := by
  cases r <;> rfl

theorem exec_setDatapath (x : Datapath) (s : State) (i : Instr) : exec i (setDatapath x s) = exec i s := by
  rw [exec_eq_finish, exec_eq_finish, commandDraws_setDatapath, commandValue_setDatapath]
  exact finish_setDatapath x (spendDraws (commandDraws s i) s) (commandValue s i)

theorem engineTurn_setDatapath (x : Datapath) (s : State) : engineTurn (setDatapath x s) = engineTurn s := by
  have hlatched : (setDatapath x s).latched = s.latched := rfl
  rw [engineTurn, engineTurn, hlatched]
  split
  · exact exec_setDatapath x s _
  · rfl
  · rfl
  · rfl

/-- How far the sequencer comes depends on its position, but it touches the internal registers alone. -/
theorem advanceSequencer_setDatapath (x : Datapath) (s : State) :
    advanceSequencer (setDatapath x s) = setDatapath (advanceSequencer (setDatapath x s)).dp (advanceSequencer s) := by
  rw [advanceSequencer_eq (setDatapath x s), advanceSequencer_eq s]
  rfl

/-! ### The host -/

theorem abortCommand_setDatapath (x : Datapath) (s : State) :
    abortCommand (setDatapath x s) = setDatapath x (abortCommand s) := by
  have hdst : runningDst (setDatapath x s) = runningDst s := runningDst_congr rfl rfl rfl
  rw [abortCommand, abortCommand, hdst]
  split <;> rfl

theorem softReset_setDatapath (x : Datapath) (s : State) : softReset (setDatapath x s) = softReset s := by
  rw [softReset, abortCommand_setDatapath]
  rfl

theorem acceptCommand_setDatapath (x : Datapath) (s : State) (w : Word) :
    acceptCommand w (setDatapath x s) = acceptCommand w s := by
  have hdst : runningDst (accepted w (setDatapath x s)) = runningDst (accepted w s) := runningDst_congr rfl rfl rfl
  rw [acceptCommand, acceptCommand, hdst]
  rfl

theorem whenIdle_setDatapath {x : Datapath} {s t u : State} (h : ∃ y, u = setDatapath y t) :
    ∃ y, whenIdle (setDatapath x s) u = setDatapath y (whenIdle s t) := by
  cases hp : s.phase with
  | idle => rwa [whenIdle_of_idle (s := setDatapath x s) hp, whenIdle_of_idle hp]
  | run => rw [whenIdle_of_run (s := setDatapath x s) hp, whenIdle_of_run hp]; exact ⟨x, rfl⟩

/-- A reset and an acceptance clear the internal registers; every other write carries them along. -/
theorem writeRegister_setDatapath (x : Datapath) (s : State) (v : Word) (r : RegName) :
    ∃ y, writeRegister (setDatapath x s) v r = setDatapath y (writeRegister s v r) := by
  cases r with
  | ctrl =>
    cases hv : v.getLsbD 31 with
    | true =>
      rw [writeRegister_ctrl_of_srst _ hv, writeRegister_ctrl_of_srst _ hv, softReset_setDatapath]
      exact ⟨_, (setDatapath_dp _).symm⟩
    | false =>
      rw [writeRegister_ctrl_of_not_srst _ hv, writeRegister_ctrl_of_not_srst _ hv]
      exact whenIdle_setDatapath ⟨x, rfl⟩
  | cmd => exact whenIdle_setDatapath ⟨Datapath.zero, acceptCommand_setDatapath x s v⟩
  | srcAddr | srcLen | dstAddr | dstLen | argLo | argHi | padbyte => exact whenIdle_setDatapath ⟨x, rfl⟩
  | status | id | version | result0 | result1 | varinfo | k0byte | caps => exact ⟨x, rfl⟩

theorem writeOffset_setDatapath (x : Datapath) (s : State) (off : Nat) (v : Word) :
    ∃ y, writeOffset (setDatapath x s) off v = setDatapath y (writeOffset s off v) := by
  rw [writeOffset, writeOffset]
  split
  · exact ⟨x, rfl⟩
  · exact writeRegister_setDatapath x s v _

theorem hostRead_setDatapath (x : Datapath) (s : State) (addr var : Nat) :
    hostRead (setDatapath x s) addr var = setDatapath x (hostRead s addr var) := by
  have hdst : runningDst (setDatapath x s) = runningDst s := runningDst_congr rfl rfl rfl
  have hmem : (setDatapath x s).mem = s.mem := rfl
  rw [hostRead, hostRead, hdst, hmem]
  split
  · rfl
  · split <;> rfl

theorem checkedAccess_setDatapath {off size : Nat} {p q : Result} {t : State}
    (hpq : ∀ t, p = .next t → ∃ y, q = .next (setDatapath y t)) (h : checkedAccess off size p = .next t) :
    ∃ y, checkedAccess off size q = .next (setDatapath y t) := by
  obtain ⟨rfl, ha, hlt, hp⟩ := checkedAccess_next h
  rw [checkedAccess_aligned ha hlt]
  exact hpq t hp

theorem readAccess_setDatapath {x : Datapath} {s t u v : State} {off : Nat} (hv : v = setDatapath x u)
    (h : readAccess s off u = .next t) : ∃ y, readAccess (setDatapath x s) off v = .next (setDatapath y t) := by
  obtain ⟨hduty, rfl⟩ := readAccess_next h
  exact ⟨x, by rw [readAccess_of_not_unseen (s := setDatapath x s) hduty, hv]⟩

theorem performOp_setDatapath (x : Datapath) {s t : State} {op : BusOp} (h : performOp s op = .next t) :
    ∃ y, performOp (setDatapath x s) op = .next (setDatapath y t) := by
  cases op with
  | regWrite off size v =>
    refine checkedAccess_setDatapath (fun t ht => ?_) h
    cases ht
    obtain ⟨y, hy⟩ := writeOffset_setDatapath x s off v
    exact ⟨y, congrArg _ hy⟩
  | regRead off size var => exact checkedAccess_setDatapath (fun t => readAccess_setDatapath rfl) h
  | memWrite addr v =>
    have hsrc : runningSrc (setDatapath x s) = runningSrc s := runningSrc_congr rfl rfl rfl
    have hdst : runningDst (setDatapath x s) = runningDst s := runningDst_congr rfl rfl rfl
    simp only [performOp] at h
    split at h
    · cases h
    · next hin =>
      split at h
      · cases h
      · next hrace => cases h; exact ⟨x, (if_neg hin).trans (if_neg (by rwa [hsrc, hdst]))⟩
  | memRead addr var =>
    simp only [performOp] at h
    split at h
    · cases h
    · next hin =>
      split at h
      · cases h
      · next hduty =>
        cases h
        exact ⟨x, (if_neg hin).trans ((if_neg hduty).trans (congrArg _ (hostRead_setDatapath x s addr var)))⟩
  | poll off mask v target =>
    refine checkedAccess_setDatapath (fun t => readAccess_setDatapath ?_) h
    rw [readOffset_setDatapath]
    split <;> rfl
  | powerOn => cases h; exact ⟨_, rfl⟩

theorem hostTurn_setDatapath (x : Datapath) {s t : State} (h : hostTurn s = .next t) :
    ∃ y, hostTurn (setDatapath x s) = .next (setDatapath y t) := by
  rw [hostTurn] at h ⊢
  have hhost : (setDatapath x s).host = s.host := rfl
  rw [hhost]
  split at h
  · cases h; exact ⟨x, rfl⟩
  · exact performOp_setDatapath x h

/-! ### The step -/

theorem step_of_idle {s : State} (hp : s.phase = .idle) : step s = hostTurn s := by rw [step, hp]

theorem step_of_delay {s : State} {d : Nat} (hp : s.phase = .run) (hd : s.delay = d + 1) :
    step s = hostTurn { advanceSequencer s with delay := d } := by
  simp only [step, hp, hd]

theorem step_of_tie {s : State} (hp : s.phase = .run) (hd : s.delay = 0) (ht : s.tie = true) : step s = tieTurn s := by
  simp only [step, hp, hd, ht, if_true]

theorem tieTurn_of_run {s u : State} (hu : hostTurn { s with tie := false } = .next u) (hp : u.phase = .run) :
    tieTurn s = engineTurn u := by
  simp only [tieTurn, hu, hp]

theorem tieTurn_of_idle {s u : State} (hu : hostTurn { s with tie := false } = .next u) (hp : u.phase = .idle) :
    tieTurn s = .next u := by
  simp only [tieTurn, hu, hp]

theorem step_of_due {s : State} (hp : s.phase = .run) (hd : s.delay = 0) (ht : s.tie = false) : step s = engineTurn s := by
  simp only [step, hp, hd, ht, Bool.false_eq_true, if_false]

/-- A step is made of host turns, engine turns and the sequencer's own advance, and none of them shows the internal
registers to another part of the state. -/
theorem step_setDatapath (x : Datapath) {s t : State} (h : step s = .next t) :
    ∃ y, step (setDatapath x s) = .next (setDatapath y t) := by
  obtain ⟨hp, hHost⟩ | ⟨d, hp, hd, hHost⟩ | ⟨hp, hd, ht, u, hHost, hrest⟩ | ⟨hp, hd, ht, hEngine⟩ := step_next h
  · rw [step_of_idle (s := setDatapath x s) hp]
    exact hostTurn_setDatapath x hHost
  · rw [step_of_delay (s := setDatapath x s) hp hd, advanceSequencer_setDatapath]
    exact hostTurn_setDatapath _ hHost
  · obtain ⟨y, hy⟩ := hostTurn_setDatapath x hHost
    rw [step_of_tie (s := setDatapath x s) hp hd ht]
    obtain ⟨hrun, hEngine⟩ | ⟨hidle, rfl⟩ := hrest
    · rw [tieTurn_of_run (s := setDatapath x s) hy hrun, engineTurn_setDatapath]
      exact ⟨t.dp, hEngine⟩
    · exact ⟨y, tieTurn_of_idle (s := setDatapath x s) hy hidle⟩
  · rw [step_of_due (s := setDatapath x s) hp hd ht, engineTurn_setDatapath]
    exact ⟨t.dp, hEngine⟩

/-- Settles O54. -/
theorem internalRegistersAreInvisible : Obligations.InternalRegistersAreInvisible :=
  ⟨fun s x off => readOffset_setDatapath x s off, fun i s x => exec_setDatapath x s i,
    fun _ _ x _ => performOp_setDatapath x, fun _ _ x => step_setDatapath x⟩

end Sys2Proof.Machine
end

section
/-! What the internal registers hold at each position of a running command (R47, R49): the hash chain as a fold over the
blocks of the buffer, and the two sequencers in its words. -/

namespace Sys2Proof.Machine

/-! ### Blocks and the hash chain -/

/-- The blocks of a buffer, by their numbers. -/
theorem chunks_eq_map (b n : Nat) (s : List Byte) :
    chunks b n s = (List.range n).map fun j => (s.drop (j * b)).take b := by
  induction n generalizing s with
  | zero => rfl
  | succ n ih =>
    rw [chunks, ih, List.range_succ_eq_map, List.map_cons, List.map_map]
    simp [Function.comp_def, Nat.succ_mul, Nat.add_comm]

/-- Whole blocks, joined and cut again, are the blocks, whatever follows them. -/
theorem chunks_flatten_append {b n : Nat} {xs : List (List Byte)} (hxs : ∀ x ∈ xs, x.length = b) (hn : n ≤ xs.length)
    (tail : List Byte) : chunks b n (xs.flatten ++ tail) = xs.take n := by
  induction xs generalizing n with
  | nil =>
    obtain rfl : n = 0 := by simpa using hn
    rfl
  | cons x xs ih =>
    cases n with
    | zero => rfl
    | succ n =>
      have hx : x.length = b := hxs x (by simp)
      have htail := ih (fun y hy => hxs y (by simp [hy])) (by simpa using hn)
      rw [chunks, List.flatten_cons, List.append_assoc, List.take_left' hx, List.drop_left' hx, htail, List.take_succ_cons]

theorem hashChain_append (hash : List Byte → List Byte) (b i : Nat) (acc : List Byte) (xs ys : List (List Byte)) :
    hashChain hash b i acc (xs ++ ys) = hashChain hash b (i + xs.length) (hashChain hash b i acc xs) ys := by
  induction xs generalizing i acc with
  | nil => rfl
  | cons x xs ih =>
    rw [List.cons_append, hashChain, ih, hashChain, List.length_cons, Nat.add_assoc, Nat.add_comm 1]

/-- The running H of R200 step 3 over the first `n` blocks of a buffer, as one fold (R184). -/
def hashFold (hash : List Byte → List Byte) (b : Nat) (buffer : List Byte) (n : Nat) : List Byte :=
  (List.range n).foldl
    (fun acc j => xorBytes acc (hash (xorBytes ((buffer.drop (j * b)).take b) (ctrEncode (j + 1) b)))) (List.replicate b 0)

theorem hashChain_chunks (hash : List Byte → List Byte) (b n : Nat) (buffer : List Byte) :
    hashChain hash b 1 (zeros b) (chunks b n buffer) = hashFold hash b buffer n := by
  rw [chunks_eq_map, hashFold]
  induction n with
  | zero => rfl
  | succ n ih =>
    rw [List.range_succ, List.map_append, hashChain_append, ih, List.foldl_append, List.length_map, List.length_range,
      Nat.add_comm 1]
    rfl

/-- E under the public mask key, which hashes the blocks (R184, R200). -/
def publicHash (p : Ports) (s : State) (v : Variant) : List Byte → List Byte :=
  blockCipher p s.ctrl.variant v.b (publicKey s.build v)

/-- The hash chain of ENCRYPT runs over the segments of the buffer it will write (R180, R184). -/
theorem hashChain_encryptSegments {enc hash : List Byte → List Byte} {v : Variant} {key plain : List Byte} {fill : Byte}
    {i : Nat} (henc : ∀ x, (enc x).length = v.b) (hi : i ≤ plain.length / v.b + 2) :
    hashChain hash v.b 1 (zeros v.b) ((encryptSegments enc v fill plain).take i) =
      hashFold hash v.b (encryptBuffer enc hash v key fill plain) i := by
  rw [← hashChain_chunks, encryptBuffer,
    chunks_flatten_append (fun x hx => length_of_mem_encryptSegments henc hx) (by simpa [padDerive] using hi)]

/-! ### ENCRYPT -/

theorem encryptChecks_of_valid {s : State} {v : Variant} (hv : selectedVariant s = some v)
    (hsrc : (srcRegion s).Valid s.build.memBytes) (hdst : (dstRegion s).Valid s.build.memBytes)
    (hdisjoint : ¬ (srcRegion s).Overlaps (dstRegion s)) (hcap : encryptSize v (srcRegion s).len ≤ (dstRegion s).len) :
    encryptChecks s = .ok v := by
  simp only [encryptChecks, hv]
  rw [if_neg (not_not.mpr hsrc), if_neg (not_not.mpr hdst), if_neg hdisjoint, if_neg (not_lt.mpr hcap)]

theorem encryptAt_succ {p : Ports} {s : State} {v : Variant} {key : Vector Byte v.k} {plain : List Byte}
    (hchecks : encryptChecks s = .ok v) (hdraw : p.draw s.draws v.k = some key)
    (hkey : p.accepts s.ctrl.variant key.toList = true) (hk0 : p.accepts s.ctrl.variant (publicKey s.build v) = true)
    (hread : memReadBytes s.mem (srcRegion s).start (srcRegion s).len = .ok plain) {i : Nat}
    (hi : i ≤ plain.length / v.b + 2) : encryptAt p s (i + 1) = encryptLoop p s v key.toList plain i := by
  have hmin : min i ((padDerive plain.length v.b).2 + 1) = i := Nat.min_eq_left hi
  simp only [encryptAt, hchecks, hdraw, encryptAfterDraw, hkey, hk0, hread, hmin, not_true, if_false]

section loop
variable {p : Ports} {s : State} {v : Variant} {key plain : List Byte} {i : Nat}

theorem encryptLoop_pnum (hlen : plain.length = (srcRegion s).len) :
    (encryptLoop p s v key plain i).pnum = BitVec.ofNat 64 (v.b - plain.length % v.b) := by
  rw [hlen]
  rfl

theorem encryptLoop_hacc (hi : i ≤ plain.length / v.b + 2) :
    (encryptLoop p s v key plain i).hacc =
      wideOf (hashFold (publicHash p s v) v.b
        (encryptBuffer (blockCipher p s.ctrl.variant v.b key) (publicHash p s v) v key s.fill plain) i) :=
  congrArg wideOf (hashChain_encryptSegments (fun _ => length_blockCipher _ _ _ _ _) hi)

end loop

/-! ### DECRYPT -/

theorem segmentCount_of_length {v : Variant} {len c : Nat} (hb : 1 ≤ v.b) (hlen : len = c * v.b + lastSize v) :
    segmentCount v len = c := by
  rw [segmentCount, hlen, Nat.add_sub_cancel, Nat.mul_div_cancel _ hb]

theorem decryptChecks_of_valid {s : State} {v : Variant} {c : Nat} (hv : selectedVariant s = some v)
    (hsrc : (srcRegion s).Valid s.build.memBytes) (hdst : (dstRegion s).Valid s.build.memBytes)
    (hdisjoint : ¬ (srcRegion s).Overlaps (dstRegion s)) (hc : 1 ≤ c)
    (hlen : (srcRegion s).len = c * v.b + lastSize v) : decryptChecks s = .ok v := by
  have hlong : v.b + lastSize v ≤ (srcRegion s).len := by
    rw [hlen]; exact Nat.add_le_add_right (Nat.le_mul_of_pos_left _ hc) _
  have haligned : ((srcRegion s).len - lastSize v) % v.b = 0 := by rw [hlen, Nat.add_sub_cancel, Nat.mul_mod_left]
  simp only [decryptChecks, hv]
  rw [if_neg (not_not.mpr hsrc), if_neg (not_not.mpr hdst), if_neg hdisjoint, if_neg (not_lt.mpr hlong),
    if_neg (not_not.mpr haligned)]

/-- The sequencer of a DECRYPT that has read its buffer (R200). -/
theorem decryptAt_succ {p : Ports} {s : State} {v : Variant} {buffer : List Byte} (hchecks : decryptChecks s = .ok v)
    (hread : memReadBytes s.mem (srcRegion s).start (srcRegion s).len = .ok buffer)
    (hk0 : p.accepts s.ctrl.variant (publicKey s.build v) = true) (n : Nat) :
    decryptAt p s (n + 1) =
      if n ≤ segmentCount v buffer.length then decryptChain p s v buffer n
      else decryptAfterKey p s v buffer (n - segmentCount v buffer.length - 1) := by
  simp only [decryptAt, hchecks, hread, hk0, not_true, if_false]

section afterKey
variable (p : Ports) (s : State) (v : Variant) (buffer : List Byte) (n : Nat)

theorem decryptAfterKey_key :
    (decryptAfterKey p s v buffer n).key = wideOf (recoveredKey (publicHash p s v) v buffer) := by
  simp only [decryptAfterKey]
  (repeat' split) <;> rfl

theorem decryptAfterKey_kacc :
    (decryptAfterKey p s v buffer n).kacc = (decryptChain p s v buffer (segmentCount v buffer.length)).kacc := by
  simp only [decryptAfterKey]
  (repeat' split) <;> rfl

theorem decryptAfterKey_hacc :
    (decryptAfterKey p s v buffer n).hacc = (decryptChain p s v buffer (segmentCount v buffer.length)).hacc := by
  simp only [decryptAfterKey]
  (repeat' split) <;> rfl

/-- CTR holds the counter of the block index, of the hash chain's last block or of an unmasked one. -/
theorem decryptAfterKey_ctr :
    (decryptAfterKey p s v buffer n).ctr = wideOf (ctrEncode (decryptAfterKey p s v buffer n).index v.b) := by
  simp only [decryptAfterKey]
  (repeat' split) <;> rfl

end afterKey

/-- PNUM is loaded with the marker block, once the recovered key is accepted (R203, R204). -/
theorem decryptAfterKey_pnum {p : Ports} {s : State} {v : Variant} {buffer key : List Byte} {n : Nat}
    (hkey : recoveredKey (publicHash p s v) v buffer = key) (haccepts : p.accepts s.ctrl.variant key = true)
    (hn : n ≠ 0) :
    (decryptAfterKey p s v buffer n).pnum =
      BitVec.ofNat 64 (recoveredPadding (blockCipher p s.ctrl.variant v.b key) s.build.decodeBytes v buffer) := by
  rw [publicHash] at hkey
  simp only [decryptAfterKey, hkey, haccepts, hn, not_true, if_false]
  split <;> rfl

section contents
variable {p : Ports} {s : State} {v : Variant} {buffer : List Byte} {c : Nat}

theorem decryptChain_hacc (i : Nat) :
    (decryptChain p s v buffer i).hacc = wideOf (hashFold (publicHash p s v) v.b buffer i) :=
  congrArg wideOf (hashChain_chunks _ v.b i buffer)

theorem decryptChain_kacc (hc : segmentCount v buffer.length = c) (i : Nat) :
    (decryptChain p s v buffer i).kacc =
      wideOf (xorIntoBytes (buffer.drop (c * v.b)) (hashFold (publicHash p s v) v.b buffer i)) := by
  rw [← hashChain_chunks, ← hc]
  rfl

theorem recoveredKey_eq (hc : segmentCount v buffer.length = c) :
    recoveredKey (publicHash p s v) v buffer =
      (xorIntoBytes (buffer.drop (c * v.b)) (hashFold (publicHash p s v) v.b buffer c)).drop (lastSize v - v.k) := by
  rw [← hashChain_chunks, ← hc]
  rfl

end contents

/-- Settles O60: the sequencer of each command at a position is unfolded once above; the hash chain it holds there is the
fold over the blocks of the buffer. -/
theorem internalRegistersHoldTheirContents : Obligations.InternalRegistersHoldTheirContents := by
  intro p s v hv hb
  refine ⟨fun i => ?_, fun n hn => ?_, fun hsrc hdst hdisjoint hk0 => ⟨fun key plain i hcap hlen hholds hdraw hkey hi => ?_,
    fun buffer c hc hsize hlen hholds => ?_⟩⟩
  · cases i <;> rfl
  · obtain ⟨m, rfl⟩ := Nat.exists_eq_add_of_le' hn
    simp only [sequencerAt, padDeriveAt, hv, padDerive]
  · have hread := (holdsBytes_iff _ _ _).mp hholds
    rw [hlen] at hread
    have hchecks : encryptChecks s = .ok v :=
      encryptChecks_of_valid hv hsrc hdst hdisjoint (by rw [← hlen]; exact hcap)
    have hseq : sequencerAt p .encrypt s (i + 1) = encryptLoop p s v key.toList plain i :=
      encryptAt_succ hchecks hdraw hkey hk0 hread hi
    intro enc hash out d
    have hd : d = encryptLoop p s v key.toList plain i := hseq
    rw [hd]
    exact ⟨rfl, rfl, encryptLoop_pnum hlen, rfl, encryptLoop_hacc hi⟩
  · have hread := (holdsBytes_iff _ _ _).mp hholds
    rw [hlen] at hread
    have hchecks : decryptChecks s = .ok v :=
      decryptChecks_of_valid hv hsrc hdst hdisjoint hc (hlen.symm.trans hsize)
    have hcount : segmentCount v buffer.length = c := segmentCount_of_length hb hsize
    have hat := decryptAt_succ hchecks hread hk0
    rw [hcount] at hat
    intro hash h kacc
    refine ⟨fun i hi => ?_, fun n hn => ?_⟩
    · intro d
      have hd : d = decryptChain p s v buffer i := (hat i).trans (if_pos hi)
      rw [hd]
      exact ⟨decryptChain_hacc i, decryptChain_kacc hcount i, rfl, rfl⟩
    · obtain ⟨m, rfl⟩ := Nat.exists_eq_add_of_le' (show 1 ≤ n by omega)
      intro d key
      have hkey : recoveredKey (publicHash p s v) v buffer = key := recoveredKey_eq hcount
      have hd : d = decryptAfterKey p s v buffer (m - c - 1) := (hat m).trans (if_neg (by omega))
      rw [hd, decryptAfterKey_kacc, decryptAfterKey_hacc, hcount, decryptChain_kacc hcount, decryptChain_hacc]
      refine ⟨?_, rfl, rfl, decryptAfterKey_ctr p s v buffer _, fun haccepts hmarker => ?_⟩
      · rw [decryptAfterKey_key]
        exact congrArg wideOf hkey
      · rw [decryptAfterKey_pnum hkey haccepts (by omega), recoveredPadding, hcount]
        rfl

end Sys2Proof.Machine
end

section
/-! The command word on the bus: its two fields determine it, its bus lanes join to it, and a command's word alone decodes to
that command (R63, R80-R82). -/

namespace Sys2Proof

open Sys2Proof.Machine

theorem roundTrip (i : Instr) : Laws.RoundTrip.Statement i := by
  cases i with
  | encrypt => exact Laws.RoundTrip.encrypt
  | decrypt => exact Laws.RoundTrip.decrypt
  | xorInto => exact Laws.RoundTrip.xorInto
  | xorWithInt => exact Laws.RoundTrip.xorWithInt
  | ctrEncode => exact Laws.RoundTrip.ctrEncode
  | ctrDecode => exact Laws.RoundTrip.ctrDecode
  | ctrIncrement => exact Laws.RoundTrip.ctrIncrement
  | padDerive => exact Laws.RoundTrip.padDerive

/-- OPCODE and RSVD are the whole command word (R80). -/
theorem reservedField_append_opcodeField (w : Word) : reservedField w ++ opcodeField w = w := by
  rw [reservedField, opcodeField, BitVec.extractLsb'_append_extractLsb'_eq_extractLsb' (by rfl)]
  exact BitVec.extractLsb'_eq_self

theorem word_eq_of_fields {w u : Word} (hop : opcodeField w = opcodeField u) (hrsvd : reservedField w = reservedField u) :
    w = u := by
  rw [← reservedField_append_opcodeField w, hop, hrsvd, reservedField_append_opcodeField]

theorem wordOfLanes_laneOfWord (w : Word) :
    wordOfLanes (laneOfWord w 0) (laneOfWord w 1) (laneOfWord w 2) (laneOfWord w 3) = w := by
  simp only [wordOfLanes, laneOfWord]
  rw [BitVec.extractLsb'_append_extractLsb'_eq_extractLsb' (by rfl),
    BitVec.extractLsb'_append_extractLsb'_eq_extractLsb' (by rfl),
    BitVec.extractLsb'_append_extractLsb'_eq_extractLsb' (by rfl)]
  exact BitVec.extractLsb'_eq_self

theorem decodeOpcode_eq_some {op : BitVec 8} {i : Instr} (h : decodeOpcode op = some i) : op = opcodeField (encode i) := by
  rw [decodeOpcode] at h
  split_ifs at h <;> cases h <;> assumption

theorem decode_eq_ok_iff (w : Word) (i : Instr) :
    decode w = .ok i ↔ decodeOpcode (opcodeField w) = some i ∧ reservedField w = 0#24 := by
  rw [decode]
  split
  · next hop => simp [hop]
  · next j hop => split <;> simp_all

/-- Settles O1: a word that decodes to a command agrees with that command's word in both fields. -/
theorem decodeEncodeAgree : Obligations.DecodeEncodeAgree := by
  refine ⟨fun w i => ⟨fun h => ?_, ?_⟩, fun w => congrArg decode (wordOfLanes_laneOfWord w)⟩
  · obtain ⟨hop, hrsvd⟩ := (decode_eq_ok_iff w i).mp h
    obtain ⟨-, hencode, -⟩ := roundTrip i
    exact word_eq_of_fields (decodeOpcode_eq_some hop) (hrsvd.trans hencode.symm)
  · rintro rfl
    obtain ⟨-, -, hdecode⟩ := roundTrip i
    exact hdecode

end Sys2Proof
end

section
/-! What a host transaction can change of a running command, and the steps in which the host has its turn (R64, R70, R71, R99). -/

namespace Sys2Proof.Machine

/-- While a command runs a register write resets the engine or changes flags other than XPATH (R28, R30, R99). -/
theorem writeRegister_while_run {s : State} (hrun : s.phase = .run) (v : Word) (r : RegName) :
    writeRegister s v r = softReset s ∨ ∃ f : Flags, f.xpath = s.flags.xpath ∧ writeRegister s v r = { s with flags := f } := by
  cases r with
  | ctrl =>
    cases hv : v.getLsbD 31 with
    | true => exact .inl (writeRegister_ctrl_of_srst s hv)
    | false => exact .inr ⟨(dropWrite s).flags, rfl, (writeRegister_ctrl_of_not_srst s hv).trans (whenIdle_of_run hrun _)⟩
  | cmd | srcAddr | srcLen | dstAddr | dstLen | argLo | argHi | padbyte =>
    exact .inr ⟨(dropWrite s).flags, rfl, whenIdle_of_run hrun _⟩
  | status => exact .inr ⟨ackFlags s.flags v, rfl, rfl⟩
  | id | version | result0 | result1 | varinfo | k0byte | caps => exact .inr ⟨s.flags, rfl, rfl⟩

theorem writeOffset_while_run {s : State} (hrun : s.phase = .run) (off : Nat) (v : Word) :
    writeOffset s off v = softReset s ∨ ∃ f : Flags, f.xpath = s.flags.xpath ∧ writeOffset s off v = { s with flags := f } := by
  rw [writeOffset]
  split
  · exact .inr ⟨s.flags, rfl, rfl⟩
  · exact writeRegister_while_run hrun v _

theorem hostRead_frame (s : State) (addr var : Nat) :
    ∃ h n, hostRead s addr var = { s with host := h, fresh := n } := by
  rw [hostRead]
  split
  · exact ⟨_, _, rfl⟩
  · split <;> exact ⟨_, _, rfl⟩

/-- What every host transaction that leaves a running command running keeps of the state (R70, R99). -/
theorem performOp_while_run {s t : State} {op : BusOp} (hrun : s.phase = .run) (hop : performOp s op = .next t)
    (hrun' : t.phase = .run) :
    ∃ (f : Flags) (m : Memory) (h : HostAgent) (u : List (Option Region)) (n : Nat),
      t = { s with flags := f, mem := m, host := h, unseen := u, fresh := n } ∧ f.xpath = s.flags.xpath ∧
        ∀ a, InRegion (runningSrc s) a ∨ InRegion (runningDst s) a → memRead m a = memRead s.mem a := by
  obtain ⟨off, v, -, rfl⟩ | ⟨off, var, -, -, rfl⟩ | ⟨addr, v, -, -, hsrc, hdst, rfl⟩ | ⟨addr, var, -, -, -, rfl⟩ |
    ⟨off, mask, v, target, -, -, rfl⟩ | ⟨-, rfl⟩ := performOp_next hop
  · obtain hreset | ⟨f, hf, hwrite⟩ := writeOffset_while_run hrun off v
    · rw [hreset] at hrun'
      cases hrun'
    · exact ⟨f, s.mem, s.host, s.unseen, s.fresh, hwrite, hf, fun _ _ => rfl⟩
  · exact ⟨_, _, _, _, _, rfl, rfl, fun _ _ => rfl⟩
  · refine ⟨s.flags, _, s.host, s.unseen, s.fresh, rfl, rfl, fun a ha => memRead_memWrite_other _ _ ?_⟩
    rintro rfl
    exact ha.elim hsrc hdst
  · obtain ⟨h, n, hread⟩ := hostRead_frame s addr var
    exact ⟨s.flags, s.mem, h, s.unseen, n, hread, rfl, fun _ _ => rfl⟩
  · split <;> exact ⟨_, _, _, _, _, rfl, rfl, fun _ _ => rfl⟩
  · cases hrun'

/-- Settles O8. -/
theorem runningCommandKeepsItsInputs : Obligations.RunningCommandKeepsItsInputs := by
  intro s t op hrun hop hrun'
  obtain ⟨f, m, h, u, n, rfl, hxpath, hmem⟩ := performOp_while_run hrun hop hrun'
  exact ⟨rfl, rfl, rfl, rfl, rfl, rfl, rfl, rfl, rfl, hxpath, hmem⟩

/-! ### Host accesses to the data memory -/

theorem runningSrc_of_idle {s : State} (h : s.phase = .idle) : runningSrc s = none := by
  rw [runningSrc, runningCommand, h]
  rfl

theorem performOp_memWrite_of_race {s : State} {a : Nat} (hin : a < s.build.memBytes)
    (hrace : InRegion (runningSrc s) a ∨ InRegion (runningDst s) a) (x : Byte) :
    performOp s (.memWrite a x) = .fault (.hostRace a) :=
  (if_neg (not_le.mpr hin)).trans (if_pos hrace)

/-- A host write outside the running command's regions changes that byte alone. -/
theorem performOp_memWrite_changes_one_byte {s : State} {a : Nat} (hin : a < s.build.memBytes)
    (hsrc : ¬ InRegion (runningSrc s) a) (hdst : ¬ InRegion (runningDst s) a) (x : Byte) :
    ∃ t, performOp s (.memWrite a x) = .next t ∧ memRead t.mem a = some x ∧ MemorySameOutside s t a 1 ∧
      t = { s with mem := t.mem } := by
  have hfree : ¬ (InRegion (runningSrc s) a ∨ InRegion (runningDst s) a) := not_or.mpr ⟨hsrc, hdst⟩
  refine ⟨{ s with mem := memWrite s.mem a x }, (if_neg (not_le.mpr hin)).trans (if_neg hfree),
    memRead_memWrite_same s.mem a x, fun c hc => memRead_memWrite_other s.mem x ?_, rfl⟩
  rw [Outside] at hc
  omega

theorem performOp_memRead {s : State} {a : Nat} (hin : a < s.build.memBytes) (hduty : ¬ UnseenByte s a) (var : Nat) :
    performOp s (.memRead a var) = .next (hostRead s a var) :=
  (if_neg (not_le.mpr hin)).trans (if_neg hduty)

theorem performOp_memRead_of_unseen {s : State} {a : Nat} (hin : a < s.build.memBytes) (hduty : UnseenByte s a) (var : Nat) :
    performOp s (.memRead a var) = .fault (.unseenByte a) :=
  (if_neg (not_le.mpr hin)).trans (if_pos hduty)

theorem not_unseenByte_of_run {s : State} (hrun : s.phase = .run) (a : Nat) : ¬ UnseenByte s a := by
  simp [UnseenByte, hrun]

theorem not_unseenByte_of_seen {s : State} {a : Nat} (hseen : ∀ r ∈ s.unseen, ¬ InRegion r a) : ¬ UnseenByte s a :=
  fun ⟨_, r, hr, ha⟩ => hseen r hr ha

theorem hostRead_of_value {s : State} {a : Nat} {x : Byte} (hdst : ¬ InRegion (runningDst s) a)
    (hx : memRead s.mem a = some x) (var : Nat) : hostRead s a var = noteReading s var (0#24 ++ x) := by
  rw [hostRead, if_neg hdst, hx]

theorem hostRead_of_free {s : State} {a : Nat} (h : InRegion (runningDst s) a ∨ memRead s.mem a = none) (var : Nat) :
    hostRead s a var = spendFresh 1 (noteReading s var (0#24 ++ Config.freeByte s.fresh)) := by
  rw [hostRead]
  split
  · rfl
  · next hdst => rw [h.resolve_left hdst]

/-- Settles O47. -/
theorem hostMemoryAccessWhileBusy : Obligations.HostMemoryAccessWhileBusy := by
  refine ⟨fun s a var x hrun hin hdst hx => ?_, fun s a var hrun hin hfree => ?_,
    fun s a x _ hin hrace => performOp_memWrite_of_race hin hrace x,
    fun s a x _ hin hsrc hdst => performOp_memWrite_changes_one_byte hin hsrc hdst x⟩
  · rw [performOp_memRead hin (not_unseenByte_of_run hrun a), hostRead_of_value hdst hx]
  · rw [performOp_memRead hin (not_unseenByte_of_run hrun a), hostRead_of_free hfree]
    rfl

/-- Settles O59. -/
theorem hostMemoryAccessWhileIdle : Obligations.HostMemoryAccessWhileIdle := by
  have hsrc {s : State} {a : Nat} (hidle : s.phase = .idle) : ¬ InRegion (runningSrc s) a := by
    simp [runningSrc_of_idle hidle]
  have hdst {s : State} {a : Nat} (hidle : s.phase = .idle) : ¬ InRegion (runningDst s) a := by
    simp [runningDst_of_idle hidle]
  refine ⟨fun s a x hidle hin => performOp_memWrite_changes_one_byte hin (hsrc hidle) (hdst hidle) x,
    fun s a var x hidle hin hseen hx => ?_, fun s a var hidle hin hseen hnone => ?_,
    fun s a var r hidle hin hr ha => performOp_memRead_of_unseen hin ⟨hidle, r, hr, ha⟩ var, fun s w hidle => ?_,
    fun s => ⟨rfl, rfl, rfl⟩⟩
  · rw [performOp_memRead hin (not_unseenByte_of_seen hseen), hostRead_of_value (hdst hidle) hx]
  · rw [performOp_memRead hin (not_unseenByte_of_seen hseen), hostRead_of_free (.inr hnone)]
    rfl
  · have hregion : runningDst (acceptCommand w s) = runningDst (accepted w s) := runningDst_congr rfl rfl rfl
    refine ⟨acceptCommand w s, ?_, by rw [acceptCommand_unseen, hregion]⟩
    rw [performOp_write_cmd, writeRegister_cmd_of_idle hidle]

/-! ### The host's turn -/

theorem runningCommand_of_run {s : State} {i : Instr} (hrun : s.phase = .run) (hi : decode s.latched = .ok i) :
    runningCommand s = some i := by
  simp only [runningCommand, hrun, hi]

theorem runningCommand_of_illegal {s : State} (hi : ∀ i, decode s.latched ≠ .ok i) : runningCommand s = none := by
  rw [runningCommand]
  split
  · rfl
  · split
    · next i h => exact absurd h (hi i)
    · rfl

theorem advanceSequencer_of_some {s : State} {i : Instr} (h : runningCommand s = some i) :
    (advanceSequencer s).dp = sequencerAt attachedPorts i s (s.dp.position + Config.hiddenAdvance s.fresh s.delay) := by
  rw [advanceSequencer, h]

theorem advanceSequencer_of_none {s : State} (h : runningCommand s = none) : advanceSequencer s = s := by
  rw [advanceSequencer, h]

theorem hostTurn_of_some {s : State} {op : BusOp} (h : s.host.ops[s.host.pos]? = some op) :
    hostTurn s = performOp { s with host := { s.host with pos := s.host.pos + 1 } } op := by
  rw [hostTurn, h]

theorem hostTurn_of_none {s : State} (h : s.host.ops[s.host.pos]? = none) : hostTurn s = .next s := by
  rw [hostTurn, h]

/-- Settles O5. -/
theorem stepTakesTheHostsTurn : Obligations.StepTakesTheHostsTurn := by
  refine ⟨fun s => step_of_idle, fun s d hrun hdelay => ⟨(advanceSequencer s).dp, ?_, fun i hi => ?_, fun hi => ?_⟩,
    fun s u hrun hdelay htie hu => ⟨fun hrun' => ?_, fun hidle => ?_⟩, fun s op => hostTurn_of_some,
    fun s => hostTurn_of_none⟩
  · rw [step_of_delay hrun hdelay, advanceSequencer_eq]
  · exact advanceSequencer_of_some (runningCommand_of_run hrun hi)
  · rw [advanceSequencer_of_none (runningCommand_of_illegal hi)]
  · rw [step_of_tie hrun hdelay htie, tieTurn_of_run hu hrun']
  · rw [step_of_tie hrun hdelay htie, tieTurn_of_idle hu hidle]

/-! ### Refused accesses -/

theorem checkedAccess_refused {off size : Nat} (h : ¬ (size = 4 ∧ off % 4 = 0)) (r : Result) :
    checkedAccess off size r = .refused (.badRegisterAccess off size) :=
  if_neg h

/-- Settles O48. -/
theorem badRegisterAccessesAreRefused : Obligations.BadRegisterAccessesAreRefused :=
  ⟨fun _ _ _ _ _ hbad => ⟨checkedAccess_refused hbad _, checkedAccess_refused hbad _⟩,
    fun _ _ _ _ _ hoff => checkedAccess_refused (fun h => hoff h.2) _⟩

end Sys2Proof.Machine
end

section
/-! A command stops only on an unwritten byte of its regions (R62). -/

namespace Sys2Proof.Machine

theorem xorSrcWindow_in_srcRegion {s : State} {a : Nat} (h : (xorSrcWindow s).Has a) : (srcRegion s).Has a := by
  simp only [Region.Has, xorSrcWindow, xorCount, srcRegion] at h ⊢
  omega

theorem xorDstWindow_in_dstRegion {s : State} {a : Nat} (h : (xorDstWindow s).Has a) : (dstRegion s).Has a := by
  simp only [Region.Has, xorDstWindow, xorCount, dstRegion] at h ⊢
  omega

theorem memReadBytes_region_error {m : Memory} {r : Region} {e : Nat} (h : memReadBytes m r.start r.len = .error e) :
    r.Has e ∧ memRead m e = none := by
  obtain ⟨hlow, hhigh, hnone⟩ := memReadBytes_error h
  exact ⟨⟨hlow, hhigh⟩, hnone⟩

/-- A read of a region stops if any byte of it has no value (R62). -/
theorem memReadBytes_of_unwritten {m : Memory} {r : Region} {a : Nat} (ha : r.Has a) (hnone : memRead m a = none) :
    ∃ e, memReadBytes m r.start r.len = .error e := by
  cases h : memReadBytes m r.start r.len with
  | error e => exact ⟨e, rfl⟩
  | ok vs =>
    obtain ⟨hlen, hbytes⟩ := (memReadBytes_ok_iff _ _ _ _).mp h
    obtain ⟨hlow, hhigh⟩ := ha
    have hvalue := hbytes (a - r.start) (by omega)
    rw [Nat.add_sub_cancel' hlow, hnone] at hvalue
    cases hvalue

theorem decryptRead_ne_uninit (p : Ports) (s : State) (v : Variant) (buffer : List Byte) (a : Nat) :
    decryptRead p s v buffer ≠ .uninit a := by
  simp only [decryptRead]
  (repeat' split) <;> exact CmdResult.noConfusion

/-- A command's value is UNINIT_READ only at an unwritten byte of its regions (R62, R96). -/
theorem commandValue_uninit {i : Instr} {s : State} {a : Nat} (h : commandValue s i = .uninit a) :
    memRead s.mem a = none ∧ (InRegion (commandSrc i s) a ∨ InRegion (commandDst i s) a) := by
  cases i with
  | encrypt =>
    simp only [commandValue, encryptDrawn] at h
    (repeat' split at h) <;> cases h
    next hread =>
      obtain ⟨hin, hnone⟩ := memReadBytes_region_error hread
      exact ⟨hnone, .inl ⟨_, rfl, hin⟩⟩
  | decrypt =>
    simp only [commandValue, cmdDecrypt] at h
    split at h
    · cases h
    · split at h
      · next hread =>
        cases h
        obtain ⟨hin, hnone⟩ := memReadBytes_region_error hread
        exact ⟨hnone, .inl ⟨_, rfl, hin⟩⟩
      · exact absurd h (decryptRead_ne_uninit _ _ _ _ _)
  | xorInto =>
    simp only [commandValue, cmdXorInto] at h
    (repeat' split at h) <;> cases h
    · next hread =>
      obtain ⟨hin, hnone⟩ := memReadBytes_region_error (r := xorDstWindow s) hread
      exact ⟨hnone, .inr ⟨_, rfl, xorDstWindow_in_dstRegion hin⟩⟩
    · next hread =>
      obtain ⟨hin, hnone⟩ := memReadBytes_region_error (r := xorSrcWindow s) hread
      exact ⟨hnone, .inl ⟨_, rfl, xorSrcWindow_in_srcRegion hin⟩⟩
  | xorWithInt =>
    simp only [commandValue, cmdXorWithInt] at h
    (repeat' split at h) <;> cases h
    next hread =>
      obtain ⟨hin, hnone⟩ := memReadBytes_region_error hread
      exact ⟨hnone, .inl ⟨_, rfl, hin⟩⟩
  | ctrDecode =>
    simp only [commandValue, cmdCtrDecode] at h
    (repeat' split at h) <;> cases h
    next hread =>
      obtain ⟨hin, hnone⟩ := memReadBytes_region_error hread
      exact ⟨hnone, .inl ⟨_, rfl, hin⟩⟩
  | ctrIncrement =>
    simp only [commandValue, cmdCtrIncrement] at h
    (repeat' split at h) <;> cases h
    next hread =>
      obtain ⟨hin, hnone⟩ := memReadBytes_region_error hread
      exact ⟨hnone, .inr ⟨_, rfl, hin⟩⟩
  | ctrEncode =>
    simp only [commandValue, cmdCtrEncode] at h
    split at h <;> cases h
  | padDerive =>
    simp only [commandValue, cmdPadDerive] at h
    split at h <;> cases h

/-- Settles O45. -/
theorem commandsStopOnlyOnUnwrittenBytes : Obligations.CommandsStopOnlyOnUnwrittenBytes := by
  intro i s
  rw [exec_eq_finish]
  obtain hnext | ⟨a, hval, hfault⟩ := finish_stop (spendDraws (commandDraws s i) s) (commandValue s i)
  · exact .inl hnext
  · exact .inr ⟨a, hfault, commandValue_uninit hval⟩

/-- Settles O46. -/
theorem counterCommandsStopOnUnwrittenBytes : Obligations.CounterCommandsStopOnUnwrittenBytes := by
  refine ⟨fun s a hvalid ha hnone => ?_, fun s a hvalid ha hnone => ?_⟩
  · obtain ⟨e, hread⟩ := memReadBytes_of_unwritten ha hnone
    have hval : cmdCtrDecode s = .uninit e := by rw [cmdCtrDecode, if_neg (not_not.mpr hvalid), hread]
    exact ⟨e, congrArg (finish s) hval⟩
  · obtain ⟨e, hread⟩ := memReadBytes_of_unwritten ha hnone
    have hval : cmdCtrIncrement s = .uninit e := by rw [cmdCtrIncrement, if_neg (not_not.mpr hvalid), hread]
    exact ⟨e, congrArg (finish s) hval⟩

end Sys2Proof.Machine
end

section
/-! How a command without a draw completes (R97, R98), the two paths of the XOR unit (R144-R147), and XOR_INTO and XOR_WITH_INT
(R150, R151). -/

namespace Sys2Proof.Machine

/-! ### Completion -/

/-- A command that takes no draw is its value, completed (R96, R166). -/
theorem exec_of_ne_encrypt {i : Instr} (hi : i ≠ .encrypt) (s : State) : exec i s = finish s (commandValue s i) := by
  rw [exec_eq_finish, commandDraws_of_ne_encrypt s hi]
  rfl

theorem exec_endsInError {i : Instr} {s : State} {e : CmdError} (hi : i ≠ .encrypt) (h : commandValue s i = .err e) :
    ∃ t, exec i s = .next t ∧ EndsInError s t e.code e.cause :=
  ⟨raiseError s e, by rw [exec_of_ne_encrypt hi, h]; rfl, raiseError_endsInError s e⟩

theorem exec_completes {i : Instr} {s : State} {a : Nat} {bs : List Byte} {res : Option (Word × Word)} {x : Option Bool}
    (hi : i ≠ .encrypt) (h : commandValue s i = .ok a bs res x) : exec i s = .next (completeOk s a bs res x) := by
  rw [exec_of_ne_encrypt hi, h]
  rfl

/-! ### The XOR unit -/

theorem xorIntoBytes_of_same_length {dst src : List Byte} (h : dst.length = src.length) :
    xorIntoBytes dst src = xorBytes dst src := by
  simp [xorIntoBytes, h]

theorem beAcc_snoc (acc : Nat) (a : List Byte) (x : Byte) : beAcc acc (a ++ [x]) = beAcc acc a * 256 + x.toNat := by
  induction a generalizing acc with
  | nil => rfl
  | cons y ys ih => exact ih _

theorem beNat_snoc (a : List Byte) (x : Byte) : beNat (a ++ [x]) = beNat a * 256 + x.toNat := beAcc_snoc 0 a x

theorem beNat_snoc_div (a : List Byte) (x : Byte) : beNat (a ++ [x]) / 256 = beNat a := by
  rw [beNat_snoc]
  omega

theorem ofNat_beNat_snoc (a : List Byte) (x : Byte) : BitVec.ofNat 8 (beNat (a ++ [x])) = x := by
  refine BitVec.eq_of_toNat_eq ?_
  rw [beNat_snoc, BitVec.toNat_ofNat]
  omega

/-- The last byte of an XOR is the XOR of the last bytes, and no carry leaves it. -/
theorem beBytes_succ_xor (n i j : Nat) :
    beBytes (n + 1) (i ^^^ j) = beBytes n (i / 256 ^^^ j / 256) ++ [BitVec.ofNat 8 i ^^^ BitVec.ofNat 8 j] := by
  rw [beBytes, BitVec.ofNat_xor, show (i ^^^ j) / 256 = i / 256 ^^^ j / 256 from Nat.xor_div_two_pow (n := 8)]

/-- One word XORed as an integer is its bytes XORed (R145, R147). -/
theorem beBytes_beNat_xor {n : Nat} {a c : List Byte} (ha : a.length = n) (hc : c.length = n) :
    beBytes n (beNat a ^^^ beNat c) = xorBytes a c := by
  induction n generalizing a c with
  | zero => rw [List.length_eq_zero_iff.mp ha]; rfl
  | succ n ih =>
    obtain rfl | ⟨xs, x, rfl⟩ := List.eq_nil_or_concat' a
    · cases ha
    obtain rfl | ⟨ys, y, rfl⟩ := List.eq_nil_or_concat' c
    · cases hc
    have hxs : xs.length = n := by simpa using ha
    have hys : ys.length = n := by simpa using hc
    rw [beBytes_succ_xor, beNat_snoc_div, beNat_snoc_div, ofNat_beNat_snoc, ofNat_beNat_snoc, ih hxs hys, xorBytes,
      xorBytes, List.zipWith_append (hxs.trans hys.symm)]
    rfl

theorem wordSteps_eq_xorBytes {width q : Nat} {dst src : List Byte} (h : dst.length = src.length)
    (hq : q * width ≤ dst.length) : wordSteps width q dst src = xorBytes dst src := by
  induction q generalizing dst src with
  | zero => rfl
  | succ q ih =>
    rw [Nat.add_mul, Nat.one_mul] at hq
    have hdst : (dst.take width).length = width := by simp; omega
    have hsrc : (src.take width).length = width := by simp; omega
    have hrest : wordSteps width q (dst.drop width) (src.drop width) = xorBytes (dst.drop width) (src.drop width) :=
      ih (by simp [h]) (by simp; omega)
    rw [wordSteps, beBytes_beNat_xor hdst hsrc, hrest, xorBytes, xorBytes, xorBytes,
      ← List.zipWith_append (hdst.trans hsrc.symm), List.take_append_drop, List.take_append_drop]

/-- Both paths of the XOR unit give the bytewise XOR (R147). -/
theorem xorUnit_eq_xorBytes (useWords : Bool) (width : Nat) {dst src : List Byte} (h : dst.length = src.length) :
    xorUnit useWords width dst src = xorBytes dst src := by
  rw [xorUnit]
  split
  · exact wordSteps_eq_xorBytes h (Nat.div_mul_le_self _ _)
  · rfl

/-! ### XOR_INTO -/

theorem cmdXorInto_of_valid {s : State} {d c : List Byte} (hsrc : (srcRegion s).Valid s.build.memBytes)
    (hdst : (dstRegion s).Valid s.build.memBytes)
    (hwin : ¬ ((xorSrcWindow s).Overlaps (xorDstWindow s) ∧ (xorSrcWindow s).start ≠ (xorDstWindow s).start))
    (hd : memReadBytes s.mem (xorDstWindow s).start (xorCount s) = .ok d)
    (hc : memReadBytes s.mem (xorSrcWindow s).start (xorCount s) = .ok c) :
    cmdXorInto s =
      .ok (xorDstWindow s).start (xorUnit (wordEligible s) s.build.wordBytes d c) none (some (wordEligible s)) := by
  rw [cmdXorInto, if_neg (not_not.mpr hsrc), if_neg (not_not.mpr hdst), if_neg hwin]
  simp only [hd, hc]

theorem wordEligible_iff (s : State) :
    wordEligible s = true ↔
      s.ctrl.xorBytewise = false ∧ s.build.wordBytes ≤ xorCount s ∧
        (s.build.unalignedOk = true ∨
          ((xorDstWindow s).start % s.build.wordBytes = 0 ∧ (xorSrcWindow s).start % s.build.wordBytes = 0)) := by
  simp [wordEligible, and_assoc]

/-- Settles O37. -/
theorem xorIntoCommand : Obligations.XorIntoCommand := by
  have hi : Instr.xorInto ≠ .encrypt := by decide
  refine ⟨rfl, fun s d c hsrc hdst hwin hdlen hclen hd hc => ?_, fun s hsrc => ?_, fun s hsrc hdst => ?_,
    fun s hsrc hdst hover hne => ?_⟩
  · have hlen : d.length = c.length := hdlen.trans hclen.symm
    rw [holdsBytes_iff, hdlen] at hd
    rw [holdsBytes_iff, hclen] at hc
    have hval : commandValue s .xorInto =
        .ok (xorDstWindow s).start (xorIntoBytes d c) none (some (wordEligible s)) := by
      rw [xorIntoBytes_of_same_length hlen, ← xorUnit_eq_xorBytes (wordEligible s) s.build.wordBytes hlen]
      exact cmdXorInto_of_valid hsrc hdst hwin hd hc
    have hout := completeOk_sameOutside s (xorDstWindow s).start (xorIntoBytes d c) none (some (wordEligible s))
    rw [length_xorIntoBytes, hdlen] at hout
    exact ⟨_, exec_completes hi hval, completeOk_completesLike _ _ _ _ _, rfl, rfl, ⟨rfl, rfl⟩,
      holdsBytes_memWriteBytes _ _ _, hout, wordEligible_iff s⟩
  · exact exec_endsInError (e := .rangeSrc) hi (if_pos hsrc)
  · exact exec_endsInError (e := .rangeDst) hi ((if_neg (not_not.mpr hsrc)).trans (if_pos hdst))
  · exact exec_endsInError (e := .overlap) hi
      ((if_neg (not_not.mpr hsrc)).trans ((if_neg (not_not.mpr hdst)).trans (if_pos ⟨hover, hne⟩)))

/-! ### XOR_WITH_INT -/

theorem cmdXorWithInt_of_valid {s : State} {c : List Byte} (hsrc : (srcRegion s).Valid s.build.memBytes)
    (hdst : (dstRegion s).Valid s.build.memBytes)
    (hregions : ¬ ((srcRegion s).Overlaps (dstRegion s) ∧ (srcRegion s).start ≠ (dstRegion s).start))
    (hcap : (srcRegion s).len ≤ (dstRegion s).len)
    (hc : memReadBytes s.mem (srcRegion s).start (srcRegion s).len = .ok c) :
    cmdXorWithInt s = .ok (dstRegion s).start (xorWithIntBytes c (arg64 s)) none none := by
  rw [cmdXorWithInt, if_neg (not_not.mpr hsrc), if_neg (not_not.mpr hdst), if_neg hregions, if_neg (not_lt.mpr hcap), hc]

/-- Settles O38. -/
theorem xorWithIntCommand : Obligations.XorWithIntCommand := by
  have hi : Instr.xorWithInt ≠ .encrypt := by decide
  refine ⟨rfl, fun s c hsrc hdst hregions hcap hlen hc => ?_, fun s hsrc => ?_, fun s hsrc hdst => ?_,
    fun s hsrc hdst hover hne => ?_, fun s hsrc hdst hregions hcap => ?_⟩
  · rw [holdsBytes_iff, hlen] at hc
    have hval : commandValue s .xorWithInt = .ok (dstRegion s).start (xorWithIntBytes c (arg64 s)) none none :=
      cmdXorWithInt_of_valid hsrc hdst hregions hcap hc
    have hout := completeOk_sameOutside s (dstRegion s).start (xorWithIntBytes c (arg64 s)) none none
    rw [length_xorWithIntBytes, hlen] at hout
    exact ⟨_, exec_completes hi hval, completeOk_completesLike _ _ _ _ _, ⟨rfl, rfl, rfl⟩, ⟨rfl, rfl⟩,
      holdsBytes_memWriteBytes _ _ _, hout⟩
  · exact exec_endsInError (e := .rangeSrc) hi (if_pos hsrc)
  · exact exec_endsInError (e := .rangeDst) hi ((if_neg (not_not.mpr hsrc)).trans (if_pos hdst))
  · exact exec_endsInError (e := .overlap) hi
      ((if_neg (not_not.mpr hsrc)).trans ((if_neg (not_not.mpr hdst)).trans (if_pos ⟨hover, hne⟩)))
  · exact exec_endsInError (e := .capacity) hi
      ((if_neg (not_not.mpr hsrc)).trans ((if_neg (not_not.mpr hdst)).trans ((if_neg hregions).trans (if_pos hcap))))

end Sys2Proof.Machine
end

section
/-! Illegal command words, and the step that runs the latched word (R81-R83, R95, R96). -/

namespace Sys2Proof

open Sys2Proof.Machine

/-! ### Words the decoder refuses -/

theorem toNat_opcodeField (w : Word) : (opcodeField w).toNat = w.toNat % 256 := by
  rw [opcodeField, BitVec.extractLsb'_toNat, Nat.shiftRight_zero]

theorem toNat_reservedField (w : Word) : (reservedField w).toNat = w.toNat / 256 := by
  rw [reservedField, BitVec.extractLsb'_toNat, Nat.shiftRight_eq_div_pow]
  omega

/-- The opcode map names a value exactly when R81 lists it. -/
theorem decodeOpcode_eq_none_iff (op : BitVec 8) : decodeOpcode op = none ↔ op.toNat ∉ opcodeValues := by
  simp only [decodeOpcode, opcodeValues, List.mem_cons, List.not_mem_nil, or_false, BitVec.toNat_eq]
  split_ifs <;> simp_all

theorem decode_eq_illegalOpcode_iff (w : Word) : decode w = .illegalOpcode ↔ w.toNat % 256 ∉ opcodeValues := by
  rw [← toNat_opcodeField, ← decodeOpcode_eq_none_iff, decode]
  cases decodeOpcode (opcodeField w) with
  | none => simp
  | some i => simp only [reduceCtorEq, iff_false]; split <;> exact Decoded.noConfusion

theorem decode_eq_reservedBits_iff (w : Word) :
    decode w = .reservedBits ↔ w.toNat % 256 ∈ opcodeValues ∧ w.toNat / 256 ≠ 0 := by
  have hrsvd : reservedField w = 0#24 ↔ w.toNat / 256 = 0 := by rw [BitVec.toNat_eq, toNat_reservedField]; rfl
  rw [← not_not (a := w.toNat % 256 ∈ opcodeValues), ← toNat_opcodeField, ← decodeOpcode_eq_none_iff, Ne, ← hrsvd, decode]
  cases decodeOpcode (opcodeField w) with
  | none => simp
  | some i => by_cases h : reservedField w = 0#24 <;> simp [h]

theorem decode_ne_notOneWord (w : Word) : decode w ≠ .notOneWord := by
  rw [decode]
  split
  · exact Decoded.noConfusion
  · split <;> exact Decoded.noConfusion

/-- Settles O2. -/
theorem illegalWordsByName : Obligations.IllegalWordsByName := fun w =>
  ⟨decode_eq_illegalOpcode_iff w, decode_eq_reservedBits_iff w, decode_ne_notOneWord w⟩

/-- Settles O3. -/
theorem sampleCommandWords : Obligations.SampleCommandWords := by
  unfold Obligations.SampleCommandWords
  decide

/-! ### The step that completes a command -/

theorem step_of_due_command {s : State} {i : Instr} (hrun : s.phase = .run) (hdelay : s.delay = 0) (htie : s.tie = false)
    (hi : decode s.latched = .ok i) : step s = exec i s := by
  rw [step_of_due hrun hdelay htie, engineTurn, hi]

/-- Settles O4. -/
theorem stepRunsTheDecodedCommand : Obligations.StepRunsTheDecodedCommand :=
  fun _ _ => step_of_due_command

theorem engineTurn_of_illegalOpcode {s : State} (h : decode s.latched = .illegalOpcode) :
    engineTurn s = .next (raiseError s .illegalOpcode) := by
  rw [engineTurn, h]

theorem engineTurn_of_reservedBits {s : State} (h : decode s.latched = .reservedBits) :
    engineTurn s = .next (raiseError s .illegalReserved) := by
  rw [engineTurn, h]

/-- Settles O6: acceptance, the decoder's two refusals taken by the engine's turn, and the word of each command. -/
theorem commandWordsRunOrError : Obligations.CommandWordsRunOrError := by
  obtain ⟨hdecode, -⟩ := decodeEncodeAgree
  refine ⟨fun s w hidle => ⟨acceptCommand w s, ?_, rfl, rfl⟩,
    fun s hrun hdelay htie => ⟨fun hop => ?_, fun hop hrsvd => ?_, fun i hi => ?_⟩, hdecode⟩
  · rw [performOp_write_cmd, writeRegister_cmd_of_idle hidle]
  · have hdec := (decode_eq_illegalOpcode_iff s.latched).mpr hop
    exact ⟨_, (step_of_due hrun hdelay htie).trans (engineTurn_of_illegalOpcode hdec),
      raiseError_endsInError s .illegalOpcode⟩
  · have hdec := (decode_eq_reservedBits_iff s.latched).mpr ⟨hop, hrsvd⟩
    exact ⟨_, (step_of_due hrun hdelay htie).trans (engineTurn_of_reservedBits hdec),
      raiseError_endsInError s .illegalReserved⟩
  · exact step_of_due_command hrun hdelay htie ((hdecode s.latched i).mpr hi)

end Sys2Proof
end

section
/-! The registers a command ignores (R84): its value and its draws are the same with any other contents in them, and a
completion carries them along. -/

namespace Sys2Proof.Machine

/-- The state with other contents in CTRL, the operand registers and PADBYTE. -/
def changeInputs (c : Ctrl → Ctrl) (o : Operands → Operands) (x : Byte → Byte) (s : State) : State :=
  { s with ctrl := c s.ctrl, opnd := o s.opnd, fill := x s.fill }

/-- The command computes the same and draws as often after the change (R84, R96). -/
def IgnoresChange (i : Instr) (c : Ctrl → Ctrl) (o : Operands → Operands) (x : Byte → Byte) (s : State) : Prop :=
  commandValue (changeInputs c o x s) i = commandValue s i ∧ commandDraws (changeInputs c o x s) i = commandDraws s i

/-- Neither completion reads or writes CTRL, the operand registers or PADBYTE (R97, R98). -/
theorem finish_changeInputs (c : Ctrl → Ctrl) (o : Operands → Operands) (x : Byte → Byte) (s : State) (r : CmdResult) :
    finish (changeInputs c o x s) r = mapNext (changeInputs c o x) (finish s r) := by
  cases r <;> rfl

theorem exec_changeInputs {i : Instr} {c : Ctrl → Ctrl} {o : Operands → Operands} {x : Byte → Byte} {s : State}
    (h : IgnoresChange i c o x s) : exec i (changeInputs c o x s) = mapNext (changeInputs c o x) (exec i s) := by
  obtain ⟨hvalue, hdraws⟩ := h
  rw [exec_eq_finish, exec_eq_finish, hvalue, hdraws]
  exact finish_changeInputs c o x (spendDraws (commandDraws s i) s) (commandValue s i)

theorem ignores_variant {i : Instr} (hi : i ∉ [.encrypt, .decrypt, .padDerive]) (s : State) (v : BitVec 2) :
    IgnoresChange i (fun c => { c with variant := v }) id id s := by
  cases i with
  | encrypt | decrypt | padDerive => exact absurd (by decide) hi
  | _ => exact ⟨rfl, rfl⟩

theorem ignores_fill {i : Instr} (hi : i ≠ .encrypt) (s : State) (x : Byte) :
    IgnoresChange i id id (fun _ => x) s := by
  cases i with
  | encrypt => exact absurd rfl hi
  | _ => exact ⟨rfl, rfl⟩

theorem ignores_xorBytewise {i : Instr} (hi : i ≠ .xorInto) (s : State) (x : Bool) :
    IgnoresChange i (fun c => { c with xorBytewise := x }) id id s := by
  cases i with
  | xorInto => exact absurd rfl hi
  | _ => exact ⟨rfl, rfl⟩

theorem ignores_arg {i : Instr} (hi : i ∉ [.ctrEncode, .xorWithInt]) (s : State) (x y : Word) :
    IgnoresChange i id (fun o => { o with argLo := x, argHi := y }) id s := by
  cases i with
  | ctrEncode | xorWithInt => exact absurd (by decide) hi
  | _ => exact ⟨rfl, rfl⟩

theorem ignores_srcAddr {i : Instr} (hi : i ∈ [.padDerive, .ctrEncode, .ctrIncrement]) (s : State) (x : Word) :
    IgnoresChange i id (fun o => { o with srcAddr := x }) id s := by
  cases i with
  | padDerive | ctrEncode | ctrIncrement => exact ⟨rfl, rfl⟩
  | _ => exact absurd hi (by decide)

theorem ignores_srcLen {i : Instr} (hi : i ∈ [.ctrEncode, .ctrIncrement]) (s : State) (x : Word) :
    IgnoresChange i id (fun o => { o with srcLen := x }) id s := by
  cases i with
  | ctrEncode | ctrIncrement => exact ⟨rfl, rfl⟩
  | _ => exact absurd hi (by decide)

theorem ignores_dst {i : Instr} (hi : i ∈ [.padDerive, .ctrDecode]) (s : State) (x y : Word) :
    IgnoresChange i id (fun o => { o with dstAddr := x, dstLen := y }) id s := by
  cases i with
  | padDerive | ctrDecode => exact ⟨rfl, rfl⟩
  | _ => exact absurd hi (by decide)

/-- Settles O53: each row of R84's table, completed. -/
theorem ignoredRegistersDoNotMatter : Obligations.IgnoredRegistersDoNotMatter :=
  ⟨fun _ s x hi => exec_changeInputs (ignores_variant hi s x),
    fun _ s x hi => exec_changeInputs (ignores_fill hi s x),
    fun _ s x hi => exec_changeInputs (ignores_xorBytewise hi s x),
    fun _ s x y hi => exec_changeInputs (ignores_arg hi s x y),
    fun _ s x hi => exec_changeInputs (ignores_srcAddr hi s x),
    fun _ s x hi => exec_changeInputs (ignores_srcLen hi s x),
    fun _ s x y hi => exec_changeInputs (ignores_dst hi s x y)⟩

end Sys2Proof.Machine
end

section
/-! The pseudo-instructions of the host assembly and the words they write (R24, R41, R87). -/

namespace Sys2Proof.Machine

/-- CTRL's stored fields, each shifted to its place (R24). -/
theorem ctrlWord_eq_or (v : BitVec 2) (x y : Bool) :
    ctrlWord ⟨v, x, y⟩ =
      v.setWidth 32 ||| (BitVec.ofBool x).setWidth 32 <<< 2 ||| (BitVec.ofBool y).setWidth 32 <<< 3 := by
  revert v x y
  decide

theorem argOps_eq (i : BitVec 64) :
    argOps i = [.regWrite 0x024 4 (BitVec.ofNat 32 (i.toNat % 2 ^ 32)),
      .regWrite 0x028 4 (BitVec.ofNat 32 (i.toNat / 2 ^ 32))] := by
  have hlo : i.extractLsb' 0 32 = BitVec.ofNat 32 (i.toNat % 2 ^ 32) := BitVec.eq_of_toNat_eq (by simp)
  have hhi : i.extractLsb' 32 32 = BitVec.ofNat 32 (i.toNat / 2 ^ 32) :=
    BitVec.eq_of_toNat_eq (by simp [Nat.shiftRight_eq_div_pow])
  rw [argOps, hlo, hhi]
  rfl

theorem callOps_some (i : Instr) (sa sl da dl : Word) (x : BitVec 64) :
    callOps i sa sl da dl (some x) = opsOps sa sl da dl ++ argOps x ++ [wrOp .cmd (encode i)] :=
  rfl

/-- Settles O55. -/
theorem pseudoInstructionsExpand : Obligations.PseudoInstructionsExpand := by
  refine fun labels pos => ⟨fun _ => rfl, rfl, rfl, rfl, fun v x y => ?_, fun i => ?_, fun _ _ _ _ => rfl,
    fun i sa sl da dl x => ?_, fun _ _ _ _ _ => rfl⟩
  · rw [expand, ctrlWord_eq_or]
    rfl
  · rw [expand, argOps_eq]
  · rw [expand, callOps_some, argOps_eq]
    rfl

end Sys2Proof.Machine
end

section
/-! A running command ends within its delay and one step more (R99, R100): each turn of the host leaves it running with the
same delay or ends it, and the step in which it is due ends it. -/

namespace Sys2Proof.Machine

/-- After these steps the engine is idle, or the run has stopped before (R103). -/
def EndsAfter (n : Nat) (s : State) : Prop :=
  (∃ t : State, runSteps n s = .next t ∧ t.phase = .idle) ∨ (∃ f : Fault, runSteps n s = .fault f) ∨
    ∃ r : Refusal, runSteps n s = .refused r

theorem runSteps_succ_of_next {s t : State} (h : step s = .next t) (n : Nat) : runSteps (n + 1) s = runSteps n t := by
  rw [runSteps, h]

theorem endsAfter_succ_of_next {s t : State} {n : Nat} (h : step s = .next t) (ht : EndsAfter n t) :
    EndsAfter (n + 1) s := by
  rwa [EndsAfter, runSteps_succ_of_next h]

theorem endsAfter_zero_of_idle {s : State} (h : s.phase = .idle) : EndsAfter 0 s := .inl ⟨s, rfl, h⟩

/-- One step ends the run of the command, or leaves it running. -/
theorem endsAfter_one_or_runs_on (s : State) : EndsAfter 1 s ∨ ∃ t, step s = .next t ∧ t.phase = .run := by
  cases hstep : step s with
  | next t =>
    cases hphase : t.phase with
    | idle => exact .inl (endsAfter_succ_of_next hstep (endsAfter_zero_of_idle hphase))
    | run => exact .inr ⟨t, rfl, hphase⟩
  | fault f => exact .inl (.inr (.inl ⟨f, by rw [runSteps, hstep]⟩))
  | refused r => exact .inl (.inr (.inr ⟨r, by rw [runSteps, hstep]⟩))

theorem exec_phase {i : Instr} {s t : State} (h : exec i s = .next t) : t.phase = .idle := by
  obtain ⟨e, -, rfl⟩ | ⟨a, bs, res, x, -, rfl⟩ := exec_next h <;> rfl

theorem engineTurn_phase {s t : State} (h : engineTurn s = .next t) : t.phase = .idle := by
  obtain ⟨i, -, hi⟩ | ⟨e, rfl⟩ := engineTurn_next h
  · exact exec_phase hi
  · rfl

/-- A command whose delay has run out is not running after the step, host transaction or not (R231). -/
theorem step_phase_of_due {s t : State} (hrun : s.phase = .run) (hdelay : s.delay = 0) (h : step s = .next t) :
    t.phase = .idle := by
  obtain ⟨hidle, -⟩ | ⟨d, -, hd, -⟩ | ⟨-, -, -, u, -, ⟨-, hEngine⟩ | ⟨hidle, rfl⟩⟩ | ⟨-, -, -, hEngine⟩ := step_next h
  · cases hrun.symm.trans hidle
  · cases hdelay.symm.trans hd
  · exact engineTurn_phase hEngine
  · exact hidle
  · exact engineTurn_phase hEngine

/-- No turn of the host moves the delay of a command that it leaves running. -/
theorem hostTurn_delay {s t : State} (hrun : s.phase = .run) (h : hostTurn s = .next t) (hrun' : t.phase = .run) :
    t.delay = s.delay := by
  obtain rfl | ⟨op, -, hop⟩ := hostTurn_next h
  · rfl
  · obtain ⟨f, m, host, u, n, rfl, -, -⟩ :=
      performOp_while_run (s := { s with host := { s.host with pos := s.host.pos + 1 } }) hrun hop hrun'
    rfl

/-- A step that leaves a command running has counted its delay down. -/
theorem step_delay {s t : State} (hrun : s.phase = .run) (h : step s = .next t) (hrun' : t.phase = .run) :
    s.delay = t.delay + 1 := by
  cases hdelay : s.delay with
  | zero => cases hrun'.symm.trans (step_phase_of_due hrun hdelay h)
  | succ d =>
    rw [step_of_delay hrun hdelay] at h
    rw [hostTurn_delay (s := { advanceSequencer s with delay := d }) ((advanceSequencer_phase s).trans hrun) h hrun']

/-- A running command's delay bounds the steps to its end. -/
theorem endsAfter_of_run {d : Nat} {s : State} (hrun : s.phase = .run) (hdelay : s.delay = d) :
    ∃ n, n ≤ d + 1 ∧ EndsAfter n s := by
  induction d generalizing s with
  | zero =>
    obtain hends | ⟨t, hstep, hrun'⟩ := endsAfter_one_or_runs_on s
    · exact ⟨1, le_refl 1, hends⟩
    · cases hrun'.symm.trans (step_phase_of_due hrun hdelay hstep)
  | succ d ih =>
    obtain hends | ⟨t, hstep, hrun'⟩ := endsAfter_one_or_runs_on s
    · exact ⟨1, by omega, hends⟩
    · have hcount := step_delay hrun hstep hrun'
      obtain ⟨n, hn, hends⟩ := ih hrun' (by omega)
      exact ⟨n + 1, by omega, endsAfter_succ_of_next hstep hends⟩

/-- Settles O10, by induction on the delay. -/
theorem runningCommandCompletes : Obligations.RunningCommandCompletes :=
  fun _ hrun => endsAfter_of_run hrun rfl

end Sys2Proof.Machine
end

section
/-! What a command leaves as it was in each of its two completions: all but STATUS in an error completion (R98, R101), and every
byte but those it stores in a successful one (R96, R97). -/

namespace Sys2Proof.Machine

/-! ### Error completions -/

theorem commandDraws_le_one (i : Instr) (s : State) : commandDraws s i ≤ 1 := by
  cases i with
  | encrypt => rw [commandDraws]; split <;> decide
  | _ => exact Nat.zero_le 1

/-- A command that has raised ERR ended in an error completion: a successful one leaves ERR as it was (R97, R98). -/
theorem exec_next_of_err {i : Instr} {s t : State} (h : exec i s = .next t) (hs : s.flags.err = false)
    (ht : t.flags.err = true) : ∃ e, t = raiseError (spendDraws (commandDraws s i) s) e := by
  obtain ⟨e, -, he⟩ | ⟨a, bs, res, x, -, rfl⟩ := exec_next h
  · exact ⟨e, he⟩
  · cases hs.symm.trans ht

/-- Settles O50. -/
theorem errorsArePrecise : Obligations.ErrorsArePrecise := by
  intro i s t h hs ht
  obtain ⟨e, rfl⟩ := exec_next_of_err h hs ht
  exact ⟨e.code, e.cause, commandDraws s i, raiseError_endsInError _ e, commandDraws_le_one i s,
    commandDraws_of_ne_encrypt s⟩

/-! ### The bytes a command stores -/

/-- ENCRYPT and DECRYPT store from the start of their destination and report in RESULT0 how many bytes (R181, R200). -/
theorem commandValue_reports_length {i : Instr} {s : State} {a : Nat} {bs : List Byte} {res : Option (Word × Word)}
    {x : Option Bool} (hi : i ∈ [.encrypt, .decrypt]) (h : commandValue s i = .ok a bs res x) :
    a = (dstRegion s).start ∧ ∃ y, res = some (BitVec.ofNat 32 bs.length, y) := by
  cases i with
  | encrypt =>
    simp only [commandValue, encryptDrawn] at h
    (repeat' split at h) <;> cases h
    next hplain =>
      have hlen := ((memReadBytes_ok_iff _ _ _ _).mp hplain).1
      rw [length_encryptBuffer _ (fun _ => length_blockCipher _ _ _ _ _) (by simp), hlen]
      exact ⟨rfl, _, rfl⟩
  | decrypt =>
    simp only [commandValue, cmdDecrypt, decryptRead] at h
    (repeat' split at h) <;> cases h
    rw [length_recoveredPlain _ (fun _ => length_blockCipher _ _ _ _ _)]
    exact ⟨rfl, _, rfl⟩
  | _ => exact absurd hi (by decide)

/-- A destination region is shorter than 2^32 bytes (R85), so that RESULT0 can hold how many are stored. -/
theorem commandValue_ok_length_lt {i : Instr} {s : State} {a : Nat} {bs : List Byte} {res : Option (Word × Word)}
    {x : Option Bool} (h : commandValue s i = .ok a bs res x) : bs.length < 2 ^ 32 := by
  obtain rfl | ⟨r, hr, -, hlow, hhigh⟩ := commandValue_ok_writes h
  · decide
  · have hlen : r.len < 2 ^ 32 := by
      cases i with
      | ctrDecode | padDerive => cases hr
      | _ => cases hr; exact s.opnd.dstLen.isLt
    omega

/-- What a successful command stores, by its table (R96): from which address, and how many bytes. -/
theorem storedBytes_completeOk {i : Instr} {s : State} {a : Nat} {bs : List Byte} {res : Option (Word × Word)}
    {x : Option Bool} (h : commandValue s i = .ok a bs res x) (u : State) :
    storedBytes i s (completeOk u a bs res x) = (a, bs.length) := by
  have hlt := commandValue_ok_length_lt h
  cases i with
  | encrypt | decrypt =>
    obtain ⟨rfl, y, rfl⟩ := commandValue_reports_length (by decide) h
    rw [storedBytes, completeOk_result0_some, BitVec.toNat_ofNat, Nat.mod_eq_of_lt hlt]
  | xorInto =>
    simp only [commandValue, cmdXorInto] at h
    (repeat' split at h) <;> cases h
    next hd _ _ hc =>
      have hdlen := ((memReadBytes_ok_iff _ _ _ _).mp hd).1
      have hclen := ((memReadBytes_ok_iff _ _ _ _).mp hc).1
      rw [storedBytes, length_xorUnit _ _ (hdlen.trans hclen.symm), hdlen]
  | xorWithInt =>
    simp only [commandValue, cmdXorWithInt] at h
    (repeat' split at h) <;> cases h
    next hc => rw [storedBytes, length_xorWithIntBytes, ((memReadBytes_ok_iff _ _ _ _).mp hc).1]
  | ctrEncode =>
    simp only [commandValue, cmdCtrEncode] at h
    split at h <;> cases h
    rw [storedBytes, length_ctrEncode]
  | ctrIncrement =>
    simp only [commandValue, cmdCtrIncrement] at h
    (repeat' split at h) <;> cases h
    next hc => rw [storedBytes, length_ctrIncrement, ((memReadBytes_ok_iff _ _ _ _).mp hc).1]
  | ctrDecode =>
    simp only [commandValue, cmdCtrDecode] at h
    (repeat' split at h) <;> cases h
    rfl
  | padDerive =>
    simp only [commandValue, cmdPadDerive] at h
    split at h <;> cases h
    rfl

/-! ### The memory frame -/

/-- A command that has left ERR clear changes no byte outside those it stores (R97). -/
theorem exec_sameOutside_stored {i : Instr} {s t : State} (h : exec i s = .next t) (ht : t.flags.err = false) :
    MemorySameOutside s t (storedBytes i s t).1 (storedBytes i s t).2 := by
  obtain ⟨e, -, rfl⟩ | ⟨a, bs, res, x, hval, rfl⟩ := exec_next h
  · cases ht
  · rw [storedBytes_completeOk hval]
    exact completeOk_sameOutside (spendDraws (commandDraws s i) s) a bs res x

/-- Neither completion changes a byte outside the command's destination region (R96, R98). -/
theorem exec_memRead_outside_dst {i : Instr} {s t : State} (h : exec i s = .next t) {c : Nat}
    (hc : ¬ InRegion (commandDst i s) c) : memRead t.mem c = memRead s.mem c := by
  obtain ⟨e, -, rfl⟩ | ⟨a, bs, res, x, hval, rfl⟩ := exec_next h
  · rfl
  · obtain rfl | ⟨r, hr, -, hlow, hhigh⟩ := commandValue_ok_writes hval
    · rfl
    · have hout : ¬ r.Has c := fun hin => hc ⟨r, hr, hin⟩
      exact memRead_memWriteBytes_outside s.mem (by rw [Region.Has] at hout; omega)

/-- A command without a destination region leaves the memory as it is (R112, R131). -/
theorem exec_mem_of_no_dst {i : Instr} {s t : State} (hdst : commandDst i s = none) (h : exec i s = .next t) :
    t.mem = s.mem := by
  obtain ⟨e, -, rfl⟩ | ⟨a, bs, res, x, hval, rfl⟩ := exec_next h
  · rfl
  · obtain rfl | ⟨r, hr, -⟩ := commandValue_ok_writes hval
    · rfl
    · cases hdst.symm.trans hr

/-- Settles O52. -/
theorem memoryFrameOfEveryCommand : Obligations.MemoryFrameOfEveryCommand := by
  refine ⟨fun i s t hi h => ?_, fun _ _ _ h _ ht => exec_sameOutside_stored h ht, fun i s t h hs ht => ?_,
    fun _ _ _ h _ => exec_memRead_outside_dst h⟩
  · cases i with
    | padDerive | ctrDecode => exact exec_mem_of_no_dst rfl h
    | _ => exact absurd hi (by decide)
  · obtain ⟨e, rfl⟩ := exec_next_of_err h hs ht
    rfl

end Sys2Proof.Machine
end

section
/-! The padding rule (R110, R111) and PAD_DERIVE (R112). -/

namespace Sys2Proof.Machine

/-! ### The padding rule -/

theorem padDerive_pNum_pos {b : Nat} (hb : 1 ≤ b) (len : Nat) : 1 ≤ (padDerive len b).1 :=
  Nat.sub_pos_of_lt (Nat.mod_lt len hb)

theorem padDerive_pNum_le (len b : Nat) : (padDerive len b).1 ≤ b := Nat.sub_le _ _

/-- The padded plaintext is exactly its blocks (R111). -/
theorem padDerive_blocks_mul {b : Nat} (hb : 1 ≤ b) (len : Nat) :
    (padDerive len b).2 * b = len + (padDerive len b).1 := by
  have hmod : len % b < b := Nat.mod_lt len hb
  have hdiv : len / b * b + len % b = len := Nat.div_add_mod' len b
  simp only [padDerive, Nat.add_mul, Nat.one_mul]
  omega

theorem padDerive_pNum_of_dvd {len b : Nat} (h : b ∣ len) : (padDerive len b).1 = b := by
  rw [padDerive, Nat.mod_eq_zero_of_dvd h, Nat.sub_zero]

/-- Settles O23. -/
theorem paddingLaws : Obligations.PaddingLaws := by
  intro len b hb
  have hpos := padDerive_pNum_pos hb len
  have hmul := padDerive_blocks_mul hb len
  have hlt : len < (padDerive len b).2 * b := by omega
  exact ⟨hpos, padDerive_pNum_le len b, Nat.succ_pos _, hmul, hlt, fun h => ⟨padDerive_pNum_of_dvd h, rfl⟩⟩

/-! ### PAD_DERIVE -/

theorem cmdPadDerive_of_supported {s : State} {v : Variant} (hv : selectedVariant s = some v) :
    cmdPadDerive s =
      .ok 0 [] (some (BitVec.ofNat 32 (v.b - s.opnd.srcLen.toNat % v.b), BitVec.ofNat 32 (s.opnd.srcLen.toNat / v.b + 1)))
        none := by
  simp only [cmdPadDerive, hv, padDerive]

theorem cmdPadDerive_of_unsupported {s : State} (hv : selectedVariant s = none) : cmdPadDerive s = .err .badConfig := by
  simp only [cmdPadDerive, hv]

/-- Settles O33. -/
theorem padDeriveCommand : Obligations.PadDeriveCommand := by
  have hi : Instr.padDerive ≠ .encrypt := by decide
  refine ⟨rfl, fun s v hv => ?_, fun s hv => exec_endsInError (e := .badConfig) hi (cmdPadDerive_of_unsupported hv)⟩
  exact ⟨_, exec_completes hi (cmdPadDerive_of_supported hv), completeOk_completesLike _ _ _ _ _, rfl, rfl, rfl, rfl,
    ⟨rfl, rfl⟩⟩

end Sys2Proof.Machine
end

section
/-! The counter codec (R120-R123) and CTR_ENCODE, CTR_DECODE, CTR_INCREMENT (R130-R132). -/

namespace Sys2Proof.Machine

/-! ### Big-endian bytes and their value -/

@[simp] theorem beNat_nil : beNat [] = 0 := rfl

theorem getElem_beBytes (n i : Nat) {j : Nat} (h : j < (beBytes n i).length) :
    (beBytes n i)[j] = BitVec.ofNat 8 (i / 256 ^ (n - 1 - j)) := by
  induction n generalizing i with
  | zero => simp at h
  | succ n ih =>
    rw [length_beBytes] at h
    simp only [beBytes, List.getElem_append, length_beBytes]
    split
    · next hj =>
      rw [ih, Nat.div_div_eq_div_mul, ← pow_succ', show n - 1 - j + 1 = n + 1 - 1 - j by omega]
    · next hj =>
      obtain rfl : j = n := by omega
      simp

/-- The last bytes of an encoding are the encoding in that many bytes. -/
theorem drop_beBytes (m n i : Nat) : (beBytes n i).drop m = beBytes (n - m) i := by
  induction n generalizing i with
  | zero => simp [beBytes]
  | succ n ih =>
    by_cases hm : m ≤ n
    · rw [beBytes, List.drop_append_of_le_length (by simpa using hm), ih, Nat.sub_add_comm hm, beBytes]
    · rw [List.drop_eq_nil_of_le (by simp; omega), Nat.sub_eq_zero_of_le (by omega), beBytes]

theorem beNat_beBytes (n i : Nat) : beNat (beBytes n i) = i % 256 ^ n := by
  induction n generalizing i with
  | zero => simp [beBytes, Nat.mod_one]
  | succ n ih =>
    rw [beBytes, beNat_snoc, ih, pow_succ', Nat.mod_mul, BitVec.toNat_ofNat]
    omega

theorem beNat_lt (a : List Byte) : beNat a < 256 ^ a.length := by
  induction a using List.reverseRecOn with
  | nil => simp
  | append_singleton a x ih =>
    rw [beNat_snoc, List.length_append, List.length_singleton, pow_succ]
    omega

/-- Byte `j` from the last has the weight `256 ^ j`. -/
theorem beNat_eq_sum (a : List Byte) :
    beNat a = ∑ j ∈ Finset.range a.length, (a.reverse.getD j 0).toNat * 256 ^ j := by
  induction a using List.reverseRecOn with
  | nil => rfl
  | append_singleton a x ih =>
    rw [beNat_snoc, ih, Finset.sum_mul, List.length_append, List.length_singleton, Finset.sum_range_succ']
    simp [pow_succ, mul_assoc]

/-! ### decode and encode -/

theorem length_decodedBytes (width : Nat) (a : List Byte) :
    (a.drop (a.length - width)).length = min a.length width := by
  rw [List.length_drop, Nat.sub_sub_eq_min]

theorem ctrDecode_eq_sum (width : Nat) (a : List Byte) :
    ctrDecode width a = ∑ j ∈ Finset.range (min a.length width), (a.reverse.getD j 0).toNat * 256 ^ j := by
  rw [ctrDecode, beNat_eq_sum, length_decodedBytes]
  refine Finset.sum_congr rfl fun j hj => ?_
  rw [List.reverse_drop, Nat.sub_sub_eq_min, List.getD_eq_getElem?_getD,
    List.getElem?_take_of_lt (Finset.mem_range.mp hj), List.getD_eq_getElem?_getD]

theorem ctrDecode_lt (width : Nat) (a : List Byte) : ctrDecode width a < 2 ^ (8 * width) := by
  calc ctrDecode width a < 256 ^ min a.length width := length_decodedBytes width a ▸ beNat_lt _
    _ ≤ 256 ^ width := Nat.pow_le_pow_right (by decide) (Nat.min_le_right _ _)
    _ = 2 ^ (8 * width) := (Nat.pow_mul 2 8 width).symm

theorem ctrDecode_ctrEncode (i n width : Nat) : ctrDecode width (ctrEncode i n) = i % 2 ^ (8 * min n width) := by
  rw [ctrDecode, ctrEncode, length_beBytes, drop_beBytes, Nat.sub_sub_eq_min, beNat_beBytes, Nat.pow_mul]

/-- Settles O24. -/
theorem encodeGivesTheBigEndianBytes : Obligations.EncodeGivesTheBigEndianBytes := fun i n =>
  ⟨length_ctrEncode i n, fun _ h => by
    simp only [ctrEncode, getElem_beBytes, BitVec.toNat_ofNat]⟩

/-- Settles O25. -/
theorem decodeGivesTheLowBytes : Obligations.DecodeGivesTheLowBytes := fun width a =>
  ⟨(ctrDecode_eq_sum width a).trans List.foldr_map, ctrDecode_lt width a, by simp [ctrDecode]⟩

/-! ### increment -/

/-- The last byte goes up by one, and carries into the bytes before it when it wraps (R122). -/
theorem ctrIncrement_snoc (a : List Byte) (x : Byte) :
    ctrIncrement (a ++ [x]) = (if x + 1 = 0 then ctrIncrement a else a) ++ [x + 1] := by
  rw [ctrIncrement, List.reverse_append, List.reverse_singleton, List.singleton_append, incrementFromLast]
  split <;> simp [ctrIncrement]

/-- Trailing 0xFF bytes wrap and carry (R122). -/
theorem ctrIncrement_append_replicate (a : List Byte) (n : Nat) :
    ctrIncrement (a ++ List.replicate n 0xFF#8) = ctrIncrement a ++ List.replicate n 0x00#8 := by
  induction n with
  | zero => simp
  | succ n ih =>
    rw [List.replicate_succ', ← List.append_assoc, ctrIncrement_snoc, if_pos (by decide), ih, List.append_assoc,
      List.replicate_succ']
    rfl

theorem ctrIncrement_ctrEncode (i n : Nat) : ctrIncrement (ctrEncode i n) = ctrEncode (i + 1) n := by
  unfold ctrEncode
  induction n generalizing i with
  | zero => rfl
  | succ n ih =>
    have hwraps : BitVec.ofNat 8 i + 1 = 0 ↔ (i + 1) % 256 = 0 := by
      rw [← BitVec.toNat_inj]
      simp
    have hlast : BitVec.ofNat 8 (i + 1) = BitVec.ofNat 8 i + 1 := BitVec.ofNat_add i 1
    rw [beBytes, ctrIncrement_snoc, beBytes, hlast]
    split
    · next h => rw [ih, show (i + 1) / 256 = i / 256 + 1 by have := hwraps.mp h; omega]
    · next h => rw [show (i + 1) / 256 = i / 256 by have := mt hwraps.mpr h; omega]

theorem zeros_eq_ctrEncode (n : Nat) : zeros n = ctrEncode 0 n := by
  unfold zeros ctrEncode
  induction n with
  | zero => rfl
  | succ n ih =>
    rw [List.replicate_succ', ih, beBytes, Nat.zero_div]
    rfl

theorem ctrIncrement_iterate_zeros (m n : Nat) : ctrIncrement^[m] (zeros n) = ctrEncode m n := by
  induction m with
  | zero => exact zeros_eq_ctrEncode n
  | succ m ih => rw [Function.iterate_succ_apply', ih, ctrIncrement_ctrEncode]

/-- Settles O26. -/
theorem incrementCarries : Obligations.IncrementCarries := by
  refine ⟨fun p x n hx => ?_, ctrIncrement_append_replicate []⟩
  have hstops : x + 1 ≠ 0 := by bv_omega
  rw [ctrIncrement_append_replicate, ctrIncrement_snoc, if_neg hstops]

/-- Settles O27. -/
theorem counterCodecLaws : Obligations.CounterCodecLaws :=
  ⟨fun i n _ => ctrIncrement_ctrEncode i n, ctrIncrement_iterate_zeros, ctrDecode_ctrEncode⟩

/-! ### The counter commands -/

theorem cmdCtrEncode_of_valid {s : State} (hdst : (dstRegion s).Valid s.build.memBytes) :
    cmdCtrEncode s = .ok (dstRegion s).start (ctrEncode (arg64 s) (dstRegion s).len) none none :=
  if_neg (not_not.mpr hdst)

theorem cmdCtrDecode_of_valid {s : State} {a : List Byte} (hsrc : (srcRegion s).Valid s.build.memBytes)
    (ha : memReadBytes s.mem (srcRegion s).start (srcRegion s).len = .ok a) :
    cmdCtrDecode s =
      .ok 0 []
        (some (BitVec.ofNat 32 (ctrDecode s.build.decodeBytes a),
          BitVec.ofNat 32 (ctrDecode s.build.decodeBytes a / 4294967296)))
        none := by
  rw [cmdCtrDecode, if_neg (not_not.mpr hsrc), ha]

theorem cmdCtrIncrement_of_valid {s : State} {a : List Byte} (hdst : (dstRegion s).Valid s.build.memBytes)
    (ha : memReadBytes s.mem (dstRegion s).start (dstRegion s).len = .ok a) :
    cmdCtrIncrement s = .ok (dstRegion s).start (ctrIncrement a) none none := by
  rw [cmdCtrIncrement, if_neg (not_not.mpr hdst), ha]

/-- Settles O34. -/
theorem ctrEncodeCommand : Obligations.CtrEncodeCommand := by
  have hi : Instr.ctrEncode ≠ .encrypt := by decide
  refine ⟨rfl, fun s hdst => ?_, fun s hdst => exec_endsInError (e := .rangeDst) hi (if_pos hdst)⟩
  have hout := completeOk_sameOutside s (dstRegion s).start (ctrEncode (arg64 s) (dstRegion s).len) none none
  rw [length_ctrEncode] at hout
  refine ⟨_, exec_completes hi (cmdCtrEncode_of_valid hdst), completeOk_completesLike _ _ _ _ _, ⟨rfl, rfl, rfl⟩,
    ⟨rfl, rfl⟩, fun j hj => ?_, hout⟩
  have hj' : j < (ctrEncode (arg64 s) (dstRegion s).len).length := by rwa [length_ctrEncode]
  exact (holdsBytes_memWriteBytes s.mem _ _ j hj').trans (congrArg some (getElem_beBytes _ _ hj'))

/-- Settles O35. -/
theorem ctrDecodeCommand : Obligations.CtrDecodeCommand := by
  have hi : Instr.ctrDecode ≠ .encrypt := by decide
  refine ⟨rfl, fun s a hsrc hlen ha => ?_, fun s hsrc => exec_endsInError (e := .rangeSrc) hi (if_pos hsrc)⟩
  rw [holdsBytes_iff, hlen] at ha
  exact ⟨_, exec_completes hi (cmdCtrDecode_of_valid hsrc ha), completeOk_completesLike _ _ _ _ _, rfl, rfl,
    ⟨rfl, rfl⟩, BitVec.toNat_ofNat _ _, BitVec.toNat_ofNat _ _⟩

/-- Settles O36. -/
theorem ctrIncrementCommand : Obligations.CtrIncrementCommand := by
  have hi : Instr.ctrIncrement ≠ .encrypt := by decide
  refine ⟨rfl, fun s a hdst hlen ha => ?_, fun s hdst => exec_endsInError (e := .rangeDst) hi (if_pos hdst)⟩
  rw [holdsBytes_iff, hlen] at ha
  have hout := completeOk_sameOutside s (dstRegion s).start (ctrIncrement a) none none
  rw [length_ctrIncrement, hlen] at hout
  exact ⟨_, exec_completes hi (cmdCtrIncrement_of_valid hdst ha), completeOk_completesLike _ _ _ _ _,
    ⟨rfl, rfl, rfl⟩, ⟨rfl, rfl⟩, holdsBytes_memWriteBytes _ _ _, hout⟩

end Sys2Proof.Machine
end

section
/-! The XOR functions (R140-R143) and the agreement of the XOR unit's two paths (R147). -/

namespace Sys2Proof.Machine

/-! ### XOR of equal lengths -/

theorem xorBytes_cancel {a c : List Byte} (h : a.length ≤ c.length) : xorBytes (xorBytes a c) c = a := by
  induction a generalizing c with
  | nil => rfl
  | cons x xs ih =>
    cases c with
    | nil => cases h
    | cons y ys =>
      have hhead : x ^^^ y ^^^ y = x := by rw [BitVec.xor_assoc, BitVec.xor_self, BitVec.xor_zero]
      exact congrArg₂ List.cons hhead (ih (Nat.le_of_succ_le_succ h))

theorem xorBytes_snoc {a c : List Byte} (h : a.length = c.length) (x y : Byte) :
    xorBytes (a ++ [x]) (c ++ [y]) = xorBytes a c ++ [x ^^^ y] :=
  List.zipWith_append h

/-! ### xorInto -/

/-- The bytes before the window are kept (R140). -/
theorem take_xorIntoBytes (dst src : List Byte) :
    (xorIntoBytes dst src).take (dst.length - min dst.length src.length) =
      dst.take (dst.length - min dst.length src.length) :=
  List.take_left' (by simp)

/-- The windows, aligned at the last byte, are XORed (R140). -/
theorem drop_xorIntoBytes (dst src : List Byte) :
    (xorIntoBytes dst src).drop (dst.length - min dst.length src.length) =
      xorBytes (dst.drop (dst.length - min dst.length src.length)) (src.drop (src.length - min dst.length src.length)) :=
  List.drop_left' (by simp)

theorem xorIntoBytes_nil (dst : List Byte) : xorIntoBytes dst [] = dst := by
  simp [xorIntoBytes, xorBytes]

/-- A second XOR with the same source finds the kept prefix and undoes the window (R143). -/
theorem xorIntoBytes_cancel (dst src : List Byte) : xorIntoBytes (xorIntoBytes dst src) src = dst := by
  have hwindow : (dst.drop (dst.length - min dst.length src.length)).length ≤
      (src.drop (src.length - min dst.length src.length)).length := by
    simp only [List.length_drop]
    omega
  rw [xorIntoBytes]
  simp only [length_xorIntoBytes]
  rw [take_xorIntoBytes, drop_xorIntoBytes, xorBytes_cancel hwindow, List.take_append_drop]

/-- Settles O28, from the two parts of the result: the kept prefix and the XORed window. -/
theorem xorIntoIsTrailingAligned : Obligations.XorIntoIsTrailingAligned := by
  refine fun dst src => ⟨length_xorIntoBytes dst src, xorIntoBytes_of_same_length, fun j h hj => ?_, fun j hd hs => ?_⟩
  · rw [← List.getElem?_take_of_lt hj, take_xorIntoBytes, List.getElem?_take_of_lt hj, List.getElem?_eq_getElem h]
  · rw [← List.getElem?_drop, drop_xorIntoBytes, xorBytes, List.getElem?_zipWith, List.getElem?_drop, List.getElem?_drop,
      List.getElem?_eq_getElem hd, List.getElem?_eq_getElem hs]

/-! ### xorWithInt -/

theorem xorIntFromLast_zero (a : List Byte) : xorIntFromLast a 0 = a := by
  cases a with
  | nil => rfl
  | cons x xs => exact if_pos rfl

theorem xorWithIntBytes_zero (src : List Byte) : xorWithIntBytes src 0 = src := by
  rw [xorWithIntBytes, xorIntFromLast_zero, List.reverse_reverse]

/-- The last byte takes `i`'s low byte, and the bytes before it the rest of `i`; at 0 the early stop of R141 changes
nothing. -/
theorem xorWithIntBytes_snoc (a : List Byte) (x : Byte) (i : Nat) :
    xorWithIntBytes (a ++ [x]) i = xorWithIntBytes a (i / 256) ++ [x ^^^ BitVec.ofNat 8 i] := by
  by_cases hi : i = 0
  · subst hi
    rw [Nat.zero_div, xorWithIntBytes_zero, xorWithIntBytes_zero, BitVec.xor_zero]
  · rw [xorWithIntBytes, List.reverse_append, List.reverse_singleton, List.singleton_append, xorIntFromLast, if_neg hi,
      List.reverse_cons]
    rfl

theorem xorWithIntBytes_eq_xorBytes (src : List Byte) (i : Nat) :
    xorWithIntBytes src i = xorBytes src (ctrEncode i src.length) := by
  induction src using List.reverseRecOn generalizing i with
  | nil => rfl
  | append_singleton a x ih =>
    have hencode : ctrEncode i (a ++ [x]).length = ctrEncode (i / 256) a.length ++ [BitVec.ofNat 8 i] := by
      rw [List.length_append]
      rfl
    rw [xorWithIntBytes_snoc, ih, hencode, xorBytes_snoc (length_ctrEncode _ _).symm]

theorem xorWithIntBytes_cancel (src : List Byte) (i : Nat) : xorWithIntBytes (xorWithIntBytes src i) i = src := by
  rw [xorWithIntBytes_eq_xorBytes (xorWithIntBytes src i), length_xorWithIntBytes, xorWithIntBytes_eq_xorBytes]
  exact xorBytes_cancel (length_ctrEncode i src.length).ge

/-- Settles O29: an integer below 256 has no byte left after the last one. -/
theorem xorWithIntIsXorOfEncode : Obligations.XorWithIntIsXorOfEncode := by
  refine ⟨xorWithIntBytes_eq_xorBytes, xorWithIntBytes_zero, fun p x i hi => ?_⟩
  rw [xorWithIntBytes_snoc, Nat.div_eq_of_lt hi, xorWithIntBytes_zero]

/-- Settles O30. -/
theorem xorLaws : Obligations.XorLaws :=
  ⟨xorIntoBytes_cancel, take_xorIntoBytes, xorIntoBytes_nil, xorWithIntBytes_cancel⟩

/-! ### The two paths -/

theorem wordPath_eq_bytePath (width : Nat) {dst src : List Byte} (h : dst.length = src.length) :
    wordPath width dst src = bytePath dst src :=
  wordSteps_eq_xorBytes h (Nat.div_mul_le_self _ _)

/-- Settles O31. -/
theorem xorPathsAgree : Obligations.XorPathsAgree := fun useWords width _ _ h =>
  ⟨wordPath_eq_bytePath width h, (xorUnit_eq_xorBytes useWords width h).trans (xorIntoBytes_of_same_length h).symm⟩

end Sys2Proof.Machine
end

section
/-! ENCRYPT from the draw on (R166, R180, R181, R183): the value it completes with for each answer of the ports. -/

namespace Sys2Proof.Machine

section ports
variable {p : Ports} {s : State} {v : Variant} {key : Vector Byte v.k} {plain : List Byte}

/-- An ENCRYPT that passes the checks before the draw takes one RNG answer and completes with its value (R166, R180). -/
theorem execEncryptWith_of_checks (hchecks : encryptChecks s = .ok v) :
    execEncryptWith p s = finish (spendDraws 1 s) (encryptDrawn p s v (p.draw s.draws v.k)) := by
  rw [execEncryptWith, hchecks]

theorem encryptDrawn_of_key_refused (hkey : p.accepts s.ctrl.variant key.toList = false) :
    encryptDrawn p s v (some key) = .err .cipherInitKey :=
  if_pos (Bool.eq_false_iff.mp hkey)

theorem encryptDrawn_of_k0_refused (hkey : p.accepts s.ctrl.variant key.toList = true)
    (hk0 : p.accepts s.ctrl.variant (publicKey s.build v) = false) :
    encryptDrawn p s v (some key) = .err .cipherInitK0 :=
  (if_neg (not_not.mpr hkey)).trans (if_pos (Bool.eq_false_iff.mp hk0))

/-- The flat buffer of ENCRYPT with given ports (R181). -/
def encryptOutput (p : Ports) (s : State) (v : Variant) (key plain : List Byte) : List Byte :=
  encryptBuffer (blockCipher p s.ctrl.variant v.b key) (publicHash p s v) v key s.fill plain

theorem length_encryptOutput (p : Ports) (s : State) (key : Vector Byte v.k) (plain : List Byte) :
    (encryptOutput p s v key.toList plain).length = encryptSize v plain.length :=
  length_encryptBuffer _ (fun _ => length_blockCipher _ _ _ _ _) (Vector.length_toList ..)

theorem encryptDrawn_of_accepted (hkey : p.accepts s.ctrl.variant key.toList = true)
    (hk0 : p.accepts s.ctrl.variant (publicKey s.build v) = true) (hlen : plain.length = (srcRegion s).len)
    (hplain : HoldsBytes s.mem (srcRegion s).start plain) :
    encryptDrawn p s v (some key) =
      .ok (dstRegion s).start (encryptOutput p s v key.toList plain)
        (some (BitVec.ofNat 32 (encryptSize v plain.length), BitVec.ofNat 32 (plain.length / v.b + 3))) none := by
  have hread := (holdsBytes_iff _ _ _).mp hplain
  rw [hlen] at hread ⊢
  simp only [encryptDrawn, hkey, hk0, hread, not_true, if_false]
  rfl

end ports

/-- ENCRYPT on the attached ports, from what the RNG answers and what is made of it. -/
theorem exec_encrypt_of_drawn {s : State} {v : Variant} {draw : Option (Vector Byte v.k)} {r : CmdResult}
    (hchecks : encryptChecks s = .ok v) (hdraw : Config.rngDraw s.draws v.k = draw)
    (hval : encryptDrawn attachedPorts s v draw = r) : exec .encrypt s = finish (spendDraws 1 s) r := by
  subst hdraw hval
  exact execEncryptWith_of_checks hchecks

/-- RESULT0 can hold `N`: the destination that has room for it is shorter than 2^32 bytes (R85, R183). -/
theorem toNat_ofNat_encryptSize {s : State} {v : Variant} {len : Nat} (hcap : encryptSize v len ≤ (dstRegion s).len) :
    (BitVec.ofNat 32 (encryptSize v len)).toNat = encryptSize v len := by
  have hlt : encryptSize v len < 2 ^ 32 := lt_of_le_of_lt hcap s.opnd.dstLen.isLt
  rw [BitVec.toNat_ofNat, Nat.mod_eq_of_lt hlt]

/-- Settles O39: the split follows the answers of the ports, in the rule's order. -/
theorem encryptCommand : Obligations.EncryptCommand := by
  intro s v plain hv hsrc hdst hdisjoint hcap hlen hplain
  have hchecks : encryptChecks s = .ok v := encryptChecks_of_valid hv hsrc hdst hdisjoint (by rw [← hlen]; exact hcap)
  cases hdraw : Config.rngDraw s.draws v.k with
  | none => exact ⟨_, exec_encrypt_of_drawn hchecks hdraw rfl, raiseError_endsInError _ .entropy⟩
  | some key =>
    by_cases hkey : Config.cipherAccepts s.ctrl.variant key.toList = false
    · exact ⟨_, exec_encrypt_of_drawn hchecks hdraw (encryptDrawn_of_key_refused hkey),
        (if_pos hkey).mpr (raiseError_endsInError _ .cipherInitKey)⟩
    have hkey' := Bool.eq_true_of_not_eq_false hkey
    by_cases hk0 : Config.cipherAccepts s.ctrl.variant (List.replicate v.k s.build.k0Byte) = false
    · exact ⟨_, exec_encrypt_of_drawn hchecks hdraw (encryptDrawn_of_k0_refused hkey' hk0),
        (if_neg hkey).mpr ((if_pos hk0).mpr (raiseError_endsInError _ .cipherInitK0))⟩
    have hk0' := Bool.eq_true_of_not_eq_false hk0
    have hframe := fun results => completeOk_sameOutside (spendDraws 1 s) (dstRegion s).start
      (encryptOutput attachedPorts s v key.toList plain) results none
    rw [length_encryptOutput] at hframe
    refine ⟨_, exec_encrypt_of_drawn hchecks hdraw (encryptDrawn_of_accepted hkey' hk0' hlen hplain),
      (if_neg hkey).mpr ((if_neg hk0).mpr ?_)⟩
    exact ⟨completeOk_completesLike (spendDraws 1 s) _ _ _ _, rfl, rfl, rfl, toNat_ofNat_encryptSize hcap, rfl,
      holdsBytes_memWriteBytes _ _ _, hframe _⟩

end Sys2Proof.Machine
end

section
/-! The flat segment buffer of ENCRYPT (R180-R184), read block by block, and the checks before the draw (R180, R222). -/

namespace Sys2Proof.Machine

/-! ### The segments -/

/-- The mask of a block is `E` of its number (R180 step 3). -/
theorem getElem?_maskBlocks (enc : List Byte → List Byte) (b i : Nat) (xs : List (List Byte)) (j : Nat) :
    (maskBlocks enc b i xs)[j]? = xs[j]?.map fun x => xorBytes (enc (ctrEncode (i + j) b)) x := by
  induction xs generalizing i j with
  | nil => rfl
  | cons x xs ih =>
    cases j with
    | zero => rfl
    | succ j => simpa [maskBlocks, Nat.add_assoc, Nat.add_comm 1] using ih (i + 1) j

section segments
variable (enc : List Byte → List Byte) (v : Variant) (fill : Byte) (plain : List Byte)

/-- A segment before the marker is a masked block of the padded plaintext (R180 step 3). -/
theorem getElem?_encryptSegments_of_lt {j : Nat} (hj : j < plain.length / v.b + 1) :
    (encryptSegments enc v fill plain)[j]? =
      some (xorBytes (enc (ctrEncode (j + 1) v.b))
        (((plain ++ List.replicate (v.b - plain.length % v.b) fill).drop (j * v.b)).take v.b)) := by
  have hblock : j < (padDerive plain.length v.b).2 := hj
  rw [encryptSegments, List.getElem?_append_left (by simpa using hblock), getElem?_maskBlocks, chunks_eq_map,
    List.getElem?_map, List.getElem?_range hblock, Nat.add_comm 1]
  rfl

/-- The marker block is the masked encoding of the padding count (R181). -/
theorem getElem?_encryptSegments_marker (henc : ∀ x, (enc x).length = v.b) :
    (encryptSegments enc v fill plain)[plain.length / v.b + 1]? =
      some (xorBytes (enc (ctrEncode (plain.length / v.b + 2) v.b)) (ctrEncode (v.b - plain.length % v.b) v.b)) := by
  have hlen : (maskBlocks enc v.b 1 (chunks v.b (padDerive plain.length v.b).2
      (plain ++ rep (padDerive plain.length v.b).1 fill))).length = plain.length / v.b + 1 := by simp [padDerive]
  rw [encryptSegments, List.getElem?_append_right hlen.le, hlen, Nat.sub_self, xorWithIntBytes_eq_xorBytes, henc]
  rfl

end segments

/-! ### The buffer -/

section buffer
variable {enc hash : List Byte → List Byte} {v : Variant} {key plain : List Byte} {fill : Byte}

/-- The blocks of the buffer are the segments m[1] .. m[s+1] (R181). -/
theorem block_encryptBuffer {j : Nat} {x : List Byte} (henc : ∀ x, (enc x).length = v.b)
    (hx : (encryptSegments enc v fill plain)[j]? = some x) :
    ((encryptBuffer enc hash v key fill plain).drop (j * v.b)).take v.b = x := by
  have hblocks := chunks_flatten_append (xs := encryptSegments enc v fill plain)
    (fun _ hy => length_of_mem_encryptSegments henc hy) le_rfl
    (xorIntoBytes (trailingAligned v key) (hashChain hash v.b 1 (zeros v.b) (encryptSegments enc v fill plain)))
  obtain ⟨hj, -⟩ := List.getElem?_eq_some_iff.mp hx
  rw [List.take_length, chunks_eq_map] at hblocks
  rw [← hblocks, List.getElem?_map, List.getElem?_range hj] at hx
  exact Option.some.inj hx

/-- The last segment is the trailing-aligned key with the hash of the segments XORed in (R182, R184). -/
theorem lastSegment_encryptBuffer (henc : ∀ x, (enc x).length = v.b) :
    (encryptBuffer enc hash v key fill plain).drop ((plain.length / v.b + 2) * v.b) =
      xorIntoBytes (trailingAligned v key)
        (hashFold hash v.b (encryptBuffer enc hash v key fill plain) (plain.length / v.b + 2)) := by
  have hcount : (encryptSegments enc v fill plain).length = plain.length / v.b + 2 := length_encryptSegments ..
  have hflat : (encryptSegments enc v fill plain).flatten.length = (plain.length / v.b + 2) * v.b :=
    hcount ▸ length_flatten_of_all fun _ hx => length_of_mem_encryptSegments henc hx
  rw [← hashChain_encryptSegments henc le_rfl, List.take_of_length_le hcount.le, encryptBuffer, List.drop_left' hflat]

end buffer

theorem length_hashFold {hash : List Byte → List Byte} {b : Nat} (hhash : ∀ x, (hash x).length = b) (buffer : List Byte)
    (n : Nat) : (hashFold hash b buffer n).length = b := by
  rw [← hashChain_chunks]
  exact length_hashChain hhash (length_zeros b)

/-- XORing a block into the trailing-aligned key leaves the key's first `k - b` bytes (R180). -/
theorem take_xorIntoBytes_trailingAligned {v : Variant} {key h : List Byte} (hkey : key.length = v.k)
    (hh : h.length = v.b) :
    (xorIntoBytes (trailingAligned v key) h).take (v.k - v.b) = key.take (v.k - v.b) := by
  rcases Nat.le_total v.k v.b with hkb | hbk
  · rw [Nat.sub_eq_zero_of_le hkb, List.take_zero, List.take_zero]
  · have halign : trailingAligned v key = key := by simp [trailingAligned, zeros, lastSize, max_eq_right hbk]
    have hkeep := take_xorIntoBytes key h
    rw [hkey, hh, min_eq_right hbk] at hkeep
    rw [halign, hkeep]

/-- Settles O32. -/
theorem encryptLayout : Obligations.EncryptLayout := by
  intro enc hash v key plain fill _ henc hhash hkey out pNum blocks block
  have hlast : out.drop ((blocks + 1) * v.b) = xorIntoBytes (trailingAligned v key) (hashFold hash v.b out (blocks + 1)) :=
    lastSegment_encryptBuffer henc
  refine ⟨length_encryptBuffer fill henc hkey, fun i hi hile => ?_,
    block_encryptBuffer henc (getElem?_encryptSegments_marker enc v fill plain henc), hlast, ?_⟩
  · obtain ⟨j, rfl⟩ := Nat.exists_eq_add_of_le' hi
    exact block_encryptBuffer henc (getElem?_encryptSegments_of_lt enc v fill plain hile)
  · rw [hlast, take_xorIntoBytes_trailingAligned hkey (length_hashFold hhash _ _)]

/-! ### The checks before the draw -/

/-- An ENCRYPT that fails a check before the draw takes none (R222). -/
theorem exec_encrypt_of_failed_check {s : State} {e : CmdError} (hchecks : encryptChecks s = .error e) :
    ∃ t, exec .encrypt s = .next t ∧ EndsInError s t e.code e.cause := by
  refine ⟨raiseError s e, ?_, raiseError_endsInError s e⟩
  rw [exec_eq_finish, commandDraws, commandValue, hchecks]
  rfl

/-- The checks on the regions, once the variant is known (R180, R222). -/
theorem encryptChecks_of_supported {s : State} {v : Variant} (hv : selectedVariant s = some v) :
    encryptChecks s =
      if ¬ (srcRegion s).Valid s.build.memBytes then .error .rangeSrc
      else if ¬ (dstRegion s).Valid s.build.memBytes then .error .rangeDst
      else if (srcRegion s).Overlaps (dstRegion s) then .error .overlap
      else if (dstRegion s).len < encryptSize v (srcRegion s).len then .error .capacity
      else .ok v := by
  rw [encryptChecks, hv]

/-- Settles O40: each failing check is reached past the ones before it. -/
theorem encryptChecksBeforeTheDraw : Obligations.EncryptChecksBeforeTheDraw := by
  refine fun s => ⟨fun hv => exec_encrypt_of_failed_check (e := .badConfig) (by rw [encryptChecks, hv]), fun v hv => ?_⟩
  have hchecks := encryptChecks_of_supported hv
  refine ⟨fun hsrc => ?_, fun hsrc hdst => ?_, fun hsrc hdst hover => ?_, fun hsrc hdst hdisjoint hcap => ?_⟩
  · exact exec_encrypt_of_failed_check (hchecks.trans (if_pos hsrc))
  · exact exec_encrypt_of_failed_check (hchecks.trans ((if_neg (not_not.mpr hsrc)).trans (if_pos hdst)))
  · exact exec_encrypt_of_failed_check
      (hchecks.trans ((if_neg (not_not.mpr hsrc)).trans ((if_neg (not_not.mpr hdst)).trans (if_pos hover))))
  · exact exec_encrypt_of_failed_check
      (hchecks.trans ((if_neg (not_not.mpr hsrc)).trans
        ((if_neg (not_not.mpr hdst)).trans ((if_neg hdisjoint).trans (if_pos hcap)))))

end Sys2Proof.Machine
end

section
/-! DECRYPT: its checks before the read (R200, R201, R222), and what it completes with once its buffer is read
(R200-R204). -/

namespace Sys2Proof.Machine

/-! ### The checks before the read -/

/-- The checks on the regions and the length, once the variant is known (R200, R222). -/
theorem decryptChecks_of_supported {s : State} {v : Variant} (hv : selectedVariant s = some v) :
    decryptChecks s =
      if ¬ (srcRegion s).Valid s.build.memBytes then .error .rangeSrc
      else if ¬ (dstRegion s).Valid s.build.memBytes then .error .rangeDst
      else if (srcRegion s).Overlaps (dstRegion s) then .error .overlap
      else if (srcRegion s).len < v.b + lastSize v then .error .inputTooShort
      else if ((srcRegion s).len - lastSize v) % v.b ≠ 0 then .error .inputMisaligned
      else .ok v := by
  rw [decryptChecks, hv]

theorem decryptChecks_of_lengths {s : State} {v : Variant} (hv : selectedVariant s = some v)
    (hsrc : (srcRegion s).Valid s.build.memBytes) (hdst : (dstRegion s).Valid s.build.memBytes)
    (hdisjoint : ¬ (srcRegion s).Overlaps (dstRegion s)) (hlong : v.b + lastSize v ≤ (srcRegion s).len)
    (haligned : ((srcRegion s).len - lastSize v) % v.b = 0) : decryptChecks s = .ok v := by
  rw [decryptChecks_of_supported hv, if_neg (not_not.mpr hsrc), if_neg (not_not.mpr hdst), if_neg hdisjoint,
    if_neg (not_lt.mpr hlong), if_neg (not_not.mpr haligned)]

theorem exec_decrypt_of_failed_check {s : State} {e : CmdError} (hchecks : decryptChecks s = .error e) :
    ∃ t, exec .decrypt s = .next t ∧ EndsInError s t e.code e.cause :=
  exec_endsInError (by decide) (by rw [commandValue, cmdDecrypt, hchecks])

/-- Settles O42: each failing check is reached past the ones before it. -/
theorem decryptChecksBeforeTheRead : Obligations.DecryptChecksBeforeTheRead := by
  refine fun s => ⟨fun hv => exec_decrypt_of_failed_check (e := .badConfig) (by rw [decryptChecks, hv]), fun v hv => ?_⟩
  have hchecks := decryptChecks_of_supported hv
  refine ⟨fun hsrc => exec_decrypt_of_failed_check (hchecks.trans (if_pos hsrc)), fun hsrc => ?_⟩
  replace hchecks := hchecks.trans (if_neg (not_not.mpr hsrc))
  refine ⟨fun hdst => exec_decrypt_of_failed_check (hchecks.trans (if_pos hdst)), fun hdst => ?_⟩
  replace hchecks := hchecks.trans (if_neg (not_not.mpr hdst))
  refine ⟨fun hover => exec_decrypt_of_failed_check (hchecks.trans (if_pos hover)), fun hdisjoint => ?_⟩
  replace hchecks := hchecks.trans (if_neg hdisjoint)
  refine ⟨fun hshort => exec_decrypt_of_failed_check (hchecks.trans (if_pos hshort)), fun hlong hmisaligned => ?_⟩
  exact exec_decrypt_of_failed_check (hchecks.trans ((if_neg (not_lt.mpr hlong)).trans (if_pos hmisaligned)))

/-! ### The bytes of the plaintext -/

theorem xorBytes_comm (a c : List Byte) : xorBytes a c = xorBytes c a :=
  List.zipWith_comm_of_comm BitVec.xor_comm

/-- Byte `r` of block `i` of blocks of `b` bytes, in the joined blocks. -/
theorem getElem?_flatten_of_all {b i r : Nat} {xs : List (List Byte)} {x : List Byte} (hxs : ∀ y ∈ xs, y.length = b)
    (hx : xs[i]? = some x) (hr : r < b) : xs.flatten[i * b + r]? = x[r]? := by
  induction xs generalizing i with
  | nil => cases hx
  | cons y ys ih =>
    have hy : y.length = b := hxs y List.mem_cons_self
    cases i with
    | zero =>
      obtain rfl : y = x := Option.some.inj hx
      rw [Nat.zero_mul, Nat.zero_add, List.flatten_cons, List.getElem?_append_left (hy ▸ hr)]
    | succ i =>
      rw [List.flatten_cons, List.getElem?_append_right (by rw [hy, Nat.succ_mul]; omega),
        ← ih (fun z hz => hxs z (List.mem_cons_of_mem _ hz)) hx, hy, Nat.succ_mul]
      congr 1
      omega

/-- Plaintext byte `j` lies in block `j / b + 1`, unmasked with that block's counter (R200 step 5). -/
theorem getElem?_recoveredPlain {enc : List Byte → List Byte} {v : Variant} {pNum j : Nat} {buffer : List Byte}
    (henc : ∀ x, (enc x).length = v.b) (hj : j < (segmentCount v buffer.length - 1) * v.b - pNum) :
    (recoveredPlain enc v pNum buffer)[j]? =
      (xorBytes ((buffer.drop (j / v.b * v.b)).take v.b) (enc (ctrEncode (j / v.b + 1) v.b)))[j % v.b]? := by
  have hpos : 0 < v.b := Nat.pos_of_ne_zero fun h0 => by simp [h0] at hj
  have hblock : j / v.b < segmentCount v buffer.length - 1 := Nat.div_lt_of_lt_mul (by rw [Nat.mul_comm]; omega)
  have hfits : (segmentCount v buffer.length - 1) * v.b ≤ buffer.length :=
    (Nat.mul_le_mul_right _ (Nat.sub_le _ _)).trans ((Nat.div_mul_le_self _ _).trans (Nat.sub_le _ _))
  have hwhole : ∀ y ∈ maskBlocks enc v.b 1 (chunks v.b (segmentCount v buffer.length - 1) buffer), y.length = v.b :=
    fun _ hy => length_of_mem_maskBlocks henc (fun _ hz => length_of_mem_chunks hfits hz) hy
  have hmasked : (maskBlocks enc v.b 1 (chunks v.b (segmentCount v buffer.length - 1) buffer))[j / v.b]? =
      some (xorBytes ((buffer.drop (j / v.b * v.b)).take v.b) (enc (ctrEncode (j / v.b + 1) v.b))) := by
    rw [getElem?_maskBlocks, chunks_eq_map, List.getElem?_map, List.getElem?_range hblock, Nat.add_comm 1, xorBytes_comm]
    rfl
  rw [recoveredPlain, List.getElem?_take_of_lt hj, ← getElem?_flatten_of_all hwhole hmasked (Nat.mod_lt j hpos),
    Nat.div_add_mod']

/-! ### DECRYPT once its buffer is read -/

section read
variable {p : Ports} {s : State} {v : Variant} {buffer key : List Byte} {pNum c : Nat}

theorem cmdDecrypt_of_checks (hchecks : decryptChecks s = .ok v) (hlen : buffer.length = (srcRegion s).len)
    (hbuffer : HoldsBytes s.mem (srcRegion s).start buffer) : cmdDecrypt p s = decryptRead p s v buffer := by
  have hread := (holdsBytes_iff _ _ _).mp hbuffer
  rw [hlen] at hread
  simp only [cmdDecrypt, hchecks, hread]

/-- The order of the checks from the read on, for a buffer of `c` segments before the last one (R200, R203). -/
theorem decryptRead_eq (hc : segmentCount v buffer.length = c) (hkey : recoveredKey (publicHash p s v) v buffer = key)
    (hpad : recoveredPadding (blockCipher p s.ctrl.variant v.b key) s.build.decodeBytes v buffer = pNum) :
    decryptRead p s v buffer =
      if p.accepts s.ctrl.variant (publicKey s.build v) = false then .err .cipherInitK0
      else if p.accepts s.ctrl.variant key = false then .err .cipherInitKey
      else if pNum < 1 ∨ v.b < pNum ∨ c < 2 then .err .inputPadding
      else if (dstRegion s).len < (c - 1) * v.b - pNum then .err .capacity
      else
        .ok (dstRegion s).start (recoveredPlain (blockCipher p s.ctrl.variant v.b key) v pNum buffer)
          (some (BitVec.ofNat 32 ((c - 1) * v.b - pNum), BitVec.ofNat 32 pNum)) none := by
  have hpadding : ¬ (1 ≤ pNum ∧ pNum ≤ v.b ∧ 1 ≤ c - 1) ↔ pNum < 1 ∨ v.b < pNum ∨ c < 2 := by omega
  subst hc hkey hpad
  exact if_congr Bool.eq_false_iff.symm rfl (if_congr Bool.eq_false_iff.symm rfl (if_congr hpadding rfl rfl))

end read

/-- RESULT0 can hold a length that fits in the destination (R85). -/
theorem toNat_ofNat_of_le_dst {s : State} {n : Nat} (h : n ≤ (dstRegion s).len) : (BitVec.ofNat 32 n).toNat = n := by
  have hlt : n < 2 ^ 32 := lt_of_le_of_lt h s.opnd.dstLen.isLt
  rw [BitVec.toNat_ofNat, Nat.mod_eq_of_lt hlt]

/-- One check of a command: where it fails the command ends with its error, and else the rest of the command decides. -/
theorem exec_check {i : Instr} {s : State} {P : Prop} [Decidable P] {e : CmdError} {r : CmdResult} {Q : State → Prop}
    (hi : i ≠ .encrypt) (hval : commandValue s i = if P then .err e else r)
    (hrest : ¬ P → commandValue s i = r → ∃ t, exec i s = .next t ∧ Q t) :
    ∃ t, exec i s = .next t ∧ if P then EndsInError s t e.code e.cause else Q t := by
  by_cases h : P
  · simp only [if_pos h] at hval ⊢
    exact exec_endsInError hi hval
  · simp only [if_neg h] at hval ⊢
    exact hrest h hval

/-- Settles O41: the checks from the read on, in the rule's order, and then the plaintext byte by byte. -/
theorem decryptCommand : Obligations.DecryptCommand := by
  intro s v buffer hv hsrc hdst hdisjoint hlong haligned hlen hbuffer c seg k0 h kacc key mask pNum len
  have hi : Instr.decrypt ≠ .encrypt := by decide
  have hchecks : decryptChecks s = .ok v :=
    decryptChecks_of_lengths hv hsrc hdst hdisjoint (hlen ▸ hlong) (hlen ▸ haligned)
  have hval : commandValue s .decrypt = _ := (cmdDecrypt_of_checks hchecks hlen hbuffer).trans
    (decryptRead_eq (c := c) (key := key) (pNum := pNum) rfl (recoveredKey_eq rfl) rfl)
  refine exec_check hi hval fun _ hval => exec_check hi hval fun _ hval => exec_check hi hval fun _ hval =>
    exec_check hi hval fun hcap hval => ?_
  have henc := length_blockCipher attachedPorts s.ctrl.variant v.b key
  have hplen : (recoveredPlain (blockCipher attachedPorts s.ctrl.variant v.b key) v pNum buffer).length = len :=
    length_recoveredPlain pNum henc
  refine ⟨_, exec_completes hi hval, completeOk_completesLike _ _ _ _ _, rfl, ⟨rfl, rfl⟩,
    toNat_ofNat_of_le_dst (not_lt.mp hcap), rfl, fun j hj => ?_, hplen ▸ completeOk_sameOutside _ _ _ _ _⟩
  have hbyte := holdsBytes_memWriteBytes s.mem (dstRegion s).start _ j (hplen.symm ▸ hj)
  exact hbyte.trans ((List.getElem?_eq_getElem _).symm.trans (getElem?_recoveredPlain henc hj))

/-- Settles O43: with one segment before the last, `c < 2` is reached unless a key is refused. -/
theorem twoSegmentsNeverDecrypt : Obligations.TwoSegmentsNeverDecrypt := by
  intro s v buffer hv hb hsrc hdst hdisjoint hsize hlen hbuffer
  have hsegments : buffer.length - max v.b v.k = v.b := by rw [hsize, Nat.add_sub_cancel]
  have hc : (buffer.length - max v.b v.k) / v.b < 2 := by rw [hsegments, Nat.div_self hb]; decide
  have haligned : (buffer.length - max v.b v.k) % v.b = 0 := by rw [hsegments, Nat.mod_self]
  obtain ⟨t, ht, hends⟩ :=
    decryptCommand s v buffer hv hsrc hdst hdisjoint hsize.ge haligned hlen hbuffer
  refine ⟨t, ht, ?_⟩
  split at hends
  · exact .inl hends
  · split at hends
    · exact .inr (.inl hends)
    · exact .inr (.inr ((if_pos (.inr (.inr hc))).mp hends))

end Sys2Proof.Machine
end

section
/-! The round trip (R205): what DECRYPT recovers from the buffer of an ENCRYPT, and the two commands one after the other. -/

namespace Sys2Proof.Machine

/-! ### Well-formed builds -/

theorem decodeBytes_pos_of_wellFormed {c : Build} (h : c.wellFormed = true) : 1 ≤ c.decodeBytes := by
  simp only [Build.wellFormed, Bool.and_eq_true, decide_eq_true_eq] at h
  obtain ⟨⟨⟨-, hdecode⟩, -⟩, -⟩ := h
  exact hdecode

/-- The variant selected in a well-formed build has sizes from 1 to 255 (R8). -/
theorem variant_wellFormed_of_selected {s : State} {v : Variant} (h : s.build.wellFormed = true)
    (hv : selectedVariant s = some v) : v.wellFormed = true := by
  simp only [Build.wellFormed, Bool.and_eq_true, decide_eq_true_eq] at h
  obtain ⟨⟨⟨⟨⟨⟨⟨⟨h0, h1⟩, h2⟩, h3⟩, -⟩, -⟩, -⟩, -⟩, -⟩ := h
  rw [selectedVariant, variantAt] at hv
  split at hv
  · rwa [hv] at h0
  split at hv
  · rwa [hv] at h1
  split at hv
  · rwa [hv] at h2
  · rwa [hv] at h3

theorem blockSize_of_selected {s : State} {v : Variant} (h : s.build.wellFormed = true)
    (hv : selectedVariant s = some v) : 1 ≤ v.b ∧ v.b ≤ 255 := by
  have hwf := variant_wellFormed_of_selected h hv
  simp only [Variant.wellFormed, Bool.and_eq_true, decide_eq_true_eq] at hwf
  obtain ⟨⟨hb, -⟩, -⟩ := hwf
  exact hb

/-! ### Masking twice -/

/-- Masking with the same counters a second time gives the blocks back (R200 step 5). -/
theorem maskBlocks_maskBlocks {enc : List Byte → List Byte} {b i : Nat} {xs : List (List Byte)}
    (henc : ∀ x, (enc x).length = b) (hxs : ∀ x ∈ xs, x.length = b) :
    maskBlocks enc b i (maskBlocks enc b i xs) = xs := by
  induction xs generalizing i with
  | nil => rfl
  | cons x xs ih =>
    have hx : x.length ≤ (enc (ctrEncode i b)).length := by rw [henc, hxs x List.mem_cons_self]
    rw [maskBlocks, maskBlocks, xorBytes_comm, xorBytes_comm (enc _) x, xorBytes_cancel hx,
      ih fun y hy => hxs y (List.mem_cons_of_mem _ hy)]

theorem flatten_chunks (b n : Nat) (s : List Byte) : (chunks b n s).flatten = s.take (n * b) := by
  induction n generalizing s with
  | zero => simp [chunks]
  | succ n ih => rw [chunks, List.flatten_cons, ih, Nat.succ_mul, Nat.add_comm, List.take_add]

/-! ### What DECRYPT recovers from the buffer of ENCRYPT -/

section recover
variable {enc hash : List Byte → List Byte} {v : Variant} {key plain : List Byte} {fill : Byte}

theorem segmentCount_encryptBuffer (hb : 1 ≤ v.b) (henc : ∀ x, (enc x).length = v.b) (hkey : key.length = v.k) :
    segmentCount v (encryptBuffer enc hash v key fill plain).length = plain.length / v.b + 2 :=
  segmentCount_of_length hb (length_encryptBuffer fill henc hkey)

/-- The same hash chain, XORed in a second time, leaves the trailing-aligned key, which ends with the key (R202). -/
theorem recoveredKey_encryptBuffer {p : Ports} {s : State} (hb : 1 ≤ v.b) (henc : ∀ x, (enc x).length = v.b)
    (hkey : key.length = v.k) :
    recoveredKey (publicHash p s v) v (encryptBuffer enc (publicHash p s v) v key fill plain) = key := by
  rw [recoveredKey_eq (segmentCount_encryptBuffer hb henc hkey), lastSegment_encryptBuffer henc, xorIntoBytes_cancel,
    trailingAligned, List.drop_left' (length_zeros _)]

/-- The unmasked marker block encodes the padding count, which fits in the bytes that decode reads (R205). -/
theorem recoveredPadding_encryptBuffer {width : Nat} (hb : 1 ≤ v.b) (hb255 : v.b ≤ 255) (hwidth : 1 ≤ width)
    (henc : ∀ x, (enc x).length = v.b) (hkey : key.length = v.k) :
    recoveredPadding enc width v (encryptBuffer enc hash v key fill plain) = v.b - plain.length % v.b := by
  have hmarker := block_encryptBuffer (hash := hash) (key := key) henc
    (getElem?_encryptSegments_marker enc v fill plain henc)
  have hfits : (ctrEncode (v.b - plain.length % v.b) v.b).length ≤
      (enc (ctrEncode (plain.length / v.b + 2) v.b)).length := by rw [henc, length_ctrEncode]
  have hsmall : v.b - plain.length % v.b < 2 ^ (8 * min v.b width) :=
    calc v.b - plain.length % v.b < 2 ^ 8 := by omega
      _ ≤ 2 ^ (8 * min v.b width) := Nat.pow_le_pow_right (by decide) (by omega)
  simp only [recoveredPadding, segmentCount_encryptBuffer hb henc hkey,
    show plain.length / v.b + 2 - 1 = plain.length / v.b + 1 from rfl]
  rw [hmarker, xorBytes_comm (enc _), xorBytes_cancel hfits, ctrDecode_ctrEncode, Nat.mod_eq_of_lt hsmall]

/-- The blocks before the marker unmask to the padded plaintext, and `pNum` bytes are dropped (R205). -/
theorem recoveredPlain_encryptBuffer (hb : 1 ≤ v.b) (henc : ∀ x, (enc x).length = v.b) (hkey : key.length = v.k) :
    recoveredPlain enc v (v.b - plain.length % v.b) (encryptBuffer enc hash v key fill plain) = plain := by
  have hpadded : (plain.length / v.b + 1) * v.b = plain.length + (v.b - plain.length % v.b) :=
    padDerive_blocks_mul hb plain.length
  have hblocks : chunks v.b (plain.length / v.b + 1) (encryptBuffer enc hash v key fill plain) =
      maskBlocks enc v.b 1 (chunks v.b (plain.length / v.b + 1) (plain ++ rep (v.b - plain.length % v.b) fill)) := by
    rw [encryptBuffer, chunks_flatten_append (fun _ hx => length_of_mem_encryptSegments henc hx) (by simp [padDerive])]
    exact List.take_left' (by simp [padDerive])
  have hwhole : ∀ x ∈ chunks v.b (plain.length / v.b + 1) (plain ++ rep (v.b - plain.length % v.b) fill),
      x.length = v.b := fun x hx => length_of_mem_chunks (by simp [hpadded]) hx
  simp only [recoveredPlain, segmentCount_encryptBuffer hb henc hkey,
    show plain.length / v.b + 2 - 1 = plain.length / v.b + 1 from rfl]
  rw [hblocks, maskBlocks_maskBlocks henc hwhole, flatten_chunks, hpadded, Nat.add_sub_cancel,
    List.take_take, Nat.min_eq_left (Nat.le_add_right _ _), List.take_left]

end recover

/-! ### The two commands -/

section commands
variable {p : Ports} {s u : State} {v : Variant} {key : Vector Byte v.k} {plain : List Byte}

theorem encryptOutput_congr (hbuild : u.build = s.build) (hvariant : u.ctrl.variant = s.ctrl.variant) :
    encryptOutput p s v key.toList plain =
      encryptBuffer (blockCipher p u.ctrl.variant v.b key.toList) (publicHash p u v) v key.toList s.fill plain := by
  rw [encryptOutput, publicHash, publicHash, hbuild, hvariant]

/-- An ENCRYPT whose key and K0 the cipher accepts (R180). -/
theorem execEncryptWith_of_accepted (hchecks : encryptChecks s = .ok v) (hdraw : p.draw s.draws v.k = some key)
    (hkey : p.accepts s.ctrl.variant key.toList = true) (hk0 : p.accepts s.ctrl.variant (publicKey s.build v) = true)
    (hlen : plain.length = (srcRegion s).len) (hplain : HoldsBytes s.mem (srcRegion s).start plain) :
    execEncryptWith p s =
      .next (completeOk (spendDraws 1 s) (dstRegion s).start (encryptOutput p s v key.toList plain)
        (some (BitVec.ofNat 32 (encryptSize v plain.length), BitVec.ofNat 32 (plain.length / v.b + 3))) none) := by
  rw [execEncryptWith_of_checks hchecks, hdraw, encryptDrawn_of_accepted hkey hk0 hlen hplain]
  rfl

/-- DECRYPT's value on the buffer of an ENCRYPT under the same K0 and variant (R205). -/
theorem decryptRead_encryptOutput (hbuild : u.build = s.build) (hvariant : u.ctrl.variant = s.ctrl.variant)
    (hwf : u.build.wellFormed = true) (hv : selectedVariant u = some v)
    (hkey : p.accepts u.ctrl.variant key.toList = true) (hk0 : p.accepts u.ctrl.variant (publicKey u.build v) = true)
    (hcap : plain.length ≤ (dstRegion u).len) :
    decryptRead p u v (encryptOutput p s v key.toList plain) =
      .ok (dstRegion u).start plain
        (some (BitVec.ofNat 32 plain.length, BitVec.ofNat 32 (v.b - plain.length % v.b))) none := by
  obtain ⟨hb, hb255⟩ := blockSize_of_selected hwf hv
  have henc := length_blockCipher p u.ctrl.variant v.b key.toList
  have hlen : key.toList.length = v.k := Vector.length_toList ..
  have hpasses : ¬ (v.b - plain.length % v.b < 1 ∨ v.b < v.b - plain.length % v.b ∨ plain.length / v.b + 2 < 2) := by
    rw [not_or, not_or, not_lt, not_lt, not_lt]
    exact ⟨padDerive_pNum_pos hb plain.length, Nat.sub_le _ _, Nat.le_add_left _ _⟩
  have hplain : (plain.length / v.b + 2 - 1) * v.b - (v.b - plain.length % v.b) = plain.length :=
    Nat.sub_eq_of_eq_add (padDerive_blocks_mul hb plain.length)
  rw [encryptOutput_congr hbuild hvariant, decryptRead_eq (segmentCount_encryptBuffer hb henc hlen)
    (recoveredKey_encryptBuffer hb henc hlen)
    (recoveredPadding_encryptBuffer hb hb255 (decodeBytes_pos_of_wellFormed hwf) henc hlen),
    recoveredPlain_encryptBuffer hb henc hlen, hplain, if_neg (by simp [hk0]), if_neg (by simp [hkey]),
    if_neg hpasses, if_neg (not_lt.mpr hcap)]

/-- A DECRYPT by an engine that holds the buffer of an ENCRYPT (R205). -/
theorem execDecryptWith_encryptOutput (hbuild : u.build = s.build) (hvariant : u.ctrl.variant = s.ctrl.variant)
    (hwf : u.build.wellFormed = true) (hv : selectedVariant u = some v)
    (hkey : p.accepts u.ctrl.variant key.toList = true) (hk0 : p.accepts u.ctrl.variant (publicKey u.build v) = true)
    (hsrc : (srcRegion u).Valid u.build.memBytes) (hdst : (dstRegion u).Valid u.build.memBytes)
    (hdisjoint : ¬ (srcRegion u).Overlaps (dstRegion u)) (hlen : (srcRegion u).len = encryptSize v plain.length)
    (hholds : HoldsBytes u.mem (srcRegion u).start (encryptOutput p s v key.toList plain))
    (hcap : plain.length ≤ (dstRegion u).len) :
    execDecryptWith p u =
      .next (completeOk u (dstRegion u).start plain
        (some (BitVec.ofNat 32 plain.length, BitVec.ofNat 32 (v.b - plain.length % v.b))) none) := by
  have hchecks : decryptChecks u = .ok v := decryptChecks_of_valid hv hsrc hdst hdisjoint (Nat.succ_pos _) hlen
  rw [execDecryptWith, cmdDecrypt_of_checks hchecks ((length_encryptOutput p s key plain).trans hlen.symm) hholds,
    decryptRead_encryptOutput hbuild hvariant hwf hv hkey hk0 hcap]
  rfl

end commands

/-- Settles O44: ENCRYPT writes its buffer, any engine `u` reads the same bytes there, and the value of DECRYPT on them is the
plaintext. -/
theorem encryptThenDecryptGivesThePlaintext : Obligations.EncryptThenDecryptGivesThePlaintext := by
  refine ⟨fun s => ⟨rfl, rfl⟩, fun p s v key plain hwf hv hsrc hdst hdisjoint hcap hlen hplain hdraw hkey hk0 => ?_⟩
  have hchecks : encryptChecks s = .ok v := encryptChecks_of_valid hv hsrc hdst hdisjoint (hlen ▸ hcap)
  have hsize := toNat_ofNat_encryptSize hcap
  refine ⟨_, execEncryptWith_of_accepted hchecks hdraw hkey hk0 hlen hplain,
    completeOk_completesLike (spendDraws 1 s) _ _ _ _, hsize,
    fun u hbuild hvariant haddr hsrcLen hsame hdst' hdisjoint' hcap' => ?_⟩
  have hstart : (srcRegion u).start = (dstRegion s).start := congrArg BitVec.toNat haddr
  have hlen' : (srcRegion u).len = encryptSize v plain.length := (congrArg BitVec.toNat hsrcLen).trans hsize
  have hsrc' : (srcRegion u).Valid u.build.memBytes := by
    rw [Region.Valid, hstart, hlen', hbuild]
    exact (Nat.add_le_add_left hcap _).trans hdst
  have hholds : HoldsBytes u.mem (srcRegion u).start (encryptOutput p s v key.toList plain) := fun j hj => by
    have hj' : j < (srcRegion u).len := by rwa [hlen', ← length_encryptOutput p s key plain]
    rw [hsame _ ⟨Nat.le_add_right _ _, Nat.add_lt_add_left hj' _⟩, hstart]
    exact holdsBytes_memWriteBytes _ _ _ j hj
  have hv' : selectedVariant u = some v := by rw [selectedVariant, hbuild, hvariant]; exact hv
  have hpNum : v.b - plain.length % v.b < 2 ^ 32 := by
    obtain ⟨-, hb255⟩ := blockSize_of_selected hwf hv
    omega
  refine ⟨_, execDecryptWith_encryptOutput hbuild hvariant (hbuild ▸ hwf) hv' (hvariant ▸ hkey)
    (by rw [hbuild, hvariant]; exact hk0) hsrc' hdst' hdisjoint' hlen' hholds hcap', completeOk_completesLike _ _ _ _ _,
    holdsBytes_memWriteBytes _ _ _, toNat_ofNat_of_le_dst hcap', ?_⟩
  rw [completeOk_result1_some, BitVec.toNat_ofNat, Nat.mod_eq_of_lt hpNum]

end Sys2Proof.Machine
end

section
/-! The error pairs of each command, check by check (R220-R222). -/

namespace Sys2Proof.Machine

/-- The command can report this error: its pair is one of the command's (R220, R222). -/
abbrev ReportedBy (i : Instr) (e : CmdError) : Prop := (e.code, e.cause) ∈ errorPairs i

theorem encryptChecks_error_reported {s : State} {e : CmdError} (h : encryptChecks s = .error e) :
    ReportedBy .encrypt e := by
  rw [encryptChecks] at h
  (repeat' split at h) <;> cases h <;> decide

theorem encryptDrawn_err_reported {p : Ports} {s : State} {v : Variant} {draw : Option (Vector Byte v.k)} {e : CmdError}
    (h : encryptDrawn p s v draw = .err e) : ReportedBy .encrypt e := by
  simp only [encryptDrawn] at h
  (repeat' split at h) <;> cases h <;> decide

theorem decryptChecks_error_reported {s : State} {e : CmdError} (h : decryptChecks s = .error e) :
    ReportedBy .decrypt e := by
  rw [decryptChecks] at h
  (repeat' split at h) <;> cases h <;> decide

theorem decryptRead_err_reported {p : Ports} {s : State} {v : Variant} {buffer : List Byte} {e : CmdError}
    (h : decryptRead p s v buffer = .err e) : ReportedBy .decrypt e := by
  simp only [decryptRead] at h
  (repeat' split at h) <;> cases h <;> decide

/-- Each branch of a command's checks that ends in an error raises one that the check order gives the command (R222). -/
theorem commandValue_err_reported {i : Instr} {s : State} {e : CmdError} (h : commandValue s i = .err e) :
    ReportedBy i e := by
  cases i with
  | encrypt =>
    simp only [commandValue] at h
    split at h
    · next hchecks => cases h; exact encryptChecks_error_reported hchecks
    · exact encryptDrawn_err_reported h
  | decrypt =>
    simp only [commandValue, cmdDecrypt] at h
    split at h
    · next hchecks => cases h; exact decryptChecks_error_reported hchecks
    · split at h
      · cases h
      · exact decryptRead_err_reported h
  | xorInto =>
    simp only [commandValue, cmdXorInto] at h
    (repeat' split at h) <;> cases h <;> decide
  | xorWithInt =>
    simp only [commandValue, cmdXorWithInt] at h
    (repeat' split at h) <;> cases h <;> decide
  | ctrEncode =>
    simp only [commandValue, cmdCtrEncode] at h
    split at h <;> cases h
    decide
  | ctrDecode =>
    simp only [commandValue, cmdCtrDecode] at h
    (repeat' split at h) <;> cases h
    decide
  | ctrIncrement =>
    simp only [commandValue, cmdCtrIncrement] at h
    (repeat' split at h) <;> cases h
    decide
  | padDerive =>
    simp only [commandValue, cmdPadDerive] at h
    split at h <;> cases h
    decide

/-- Settles O49: a command that raised ERR completed with an error value, whose pair STATUS holds. -/
theorem errorPairsOfEachCommand : Obligations.ErrorPairsOfEachCommand := by
  intro i s t h hs ht
  obtain ⟨e, hval, rfl⟩ | ⟨a, bs, res, x, -, rfl⟩ := exec_next h
  · exact commandValue_err_reported hval
  · cases hs.symm.trans ht

end Sys2Proof.Machine
end

section
/-! A completion in the step of a host transaction, which is taken first (R231, R251). -/

namespace Sys2Proof.Machine

/-- The state in which the host's transaction is taken when the completion falls in the same step: the tie is used up and
the host has gone on to its next transaction (R231). -/
def atTiedTransaction (s : State) : State := { s with tie := false, host := { s.host with pos := s.host.pos + 1 } }

theorem runningDst_atTiedTransaction (s : State) : runningDst (atTiedTransaction s) = runningDst s :=
  runningDst_congr rfl rfl rfl

theorem hostTurn_atTiedTransaction {s : State} {op : BusOp} (hop : s.host.ops[s.host.pos]? = some op) :
    hostTurn { s with tie := false } = performOp (atTiedTransaction s) op :=
  hostTurn_of_some (s := { s with tie := false }) hop

/-- A completion sets DONE, ends the run, and leaves OVR and the latched word as they are (R97, R98). -/
theorem engineTurn_completes {s t : State} (h : engineTurn s = .next t) :
    t.flags.done = true ∧ t.phase = .idle ∧ t.flags.ovr = s.flags.ovr ∧ t.latched = s.latched := by
  obtain ⟨i, -, hi⟩ | ⟨e, rfl⟩ := engineTurn_next h
  · obtain ⟨-, -, -, -, hlatched, -, -, -, hovr, hdone, hidle, -⟩ := registerFrameOfEveryCommand i s t hi
    exact ⟨hdone, hidle, hovr, hlatched⟩
  · exact ⟨rfl, rfl, rfl, rfl⟩

section tie

variable {s t u : State} {op : BusOp} (hrun : s.phase = .run) (hdelay : s.delay = 0) (htie : s.tie = true)
  (hop : s.host.ops[s.host.pos]? = some op) (hu : performOp (atTiedTransaction s) op = .next u) (h : step s = .next t)
include hrun hdelay htie hop hu h

/-- A transaction that leaves the command running is followed by the completion in the same step (R231). -/
theorem engineTurn_of_tied_transaction (hrun' : u.phase = .run) : engineTurn u = .next t := by
  have hturn := (hostTurn_atTiedTransaction hop).trans hu
  rw [← tieTurn_of_run hturn hrun', ← step_of_tie hrun hdelay htie, h]

/-- A transaction that ends the command's run leaves no completion to follow it (R231, R251). -/
theorem eq_of_tied_transaction (hidle : u.phase = .idle) : t = u := by
  have hturn := (hostTurn_atTiedTransaction hop).trans hu
  rw [step_of_tie hrun hdelay htie, tieTurn_of_idle hturn hidle] at h
  cases h
  rfl

end tie

/-- Settles O11: after a write of STATUS or CMD the command still runs and its completion follows; a soft reset leaves
nothing to complete. -/
theorem simultaneousEvents : Obligations.SimultaneousEvents := by
  intro s t v hrun hdelay htie h
  refine ⟨fun hop => ?_, fun hop hv => ?_, fun hop => ?_⟩
  · obtain ⟨hdone, hidle, -⟩ := engineTurn_completes
      (engineTurn_of_tied_transaction hrun hdelay htie hop (performOp_write_status _ v) h hrun)
    exact ⟨hdone, hidle⟩
  · cases eq_of_tied_transaction hrun hdelay htie hop (performOp_softReset _ hv) h rfl
    have hdst := runningDst_atTiedTransaction s
    exact ⟨registersAreReset_softReset _, fun a ha => memRead_softReset_outside (hdst ▸ ha),
      fun r j hr hlen hexists => (memRead_softReset_inside (hdst.trans hr) hlen hexists).1⟩
  · have hdrop : performOp (atTiedTransaction s) (.regWrite 0x00C 4 v) = .next (dropWrite (atTiedTransaction s)) := by
      rw [performOp_write_cmd, writeRegister_of_run (s := atTiedTransaction s) hrun (List.mem_cons_self ..)]
    obtain ⟨hdone, hidle, hovr, hlatched⟩ := engineTurn_completes
      (engineTurn_of_tied_transaction hrun hdelay htie hop hdrop h hrun)
    exact ⟨hovr, hdone, hidle, hlatched⟩

end Sys2Proof.Machine
end
